-- ==== Sys2Proof/Word.lean ====
section
/-! DEFINITION. The value types of AES-GO CORE: bytes, 32-bit words, byte sequences, 16-byte Blocks and the
11-entry round-key file (spec 00_scope.md R5, R7; 10_state.md R10, R19). No operation stands here. -/

namespace Sys2Proof

/-- A byte: 8 bits, bit 0 least significant (R7). -/
abbrev Byte := BitVec 8

/-- A 32-bit value: a command word, a port value or a descriptor register (R5, R15, R18, R55). -/
abbrev Word := BitVec 32

/-- A byte sequence, first byte first (R7). -/
abbrev Bytes := List Byte

/-- A Block: exactly 16 bytes with indices 0 to 15.  The State view reads row `r`, column `c` at index
`4*c + r` and is indexing only, never a second copy (R7, R10). -/
abbrev Block := Vector Byte 16

/-- The RoundKeySchedule: 11 Blocks, round 0 to round 10 (R19). -/
abbrev RoundKeys := Vector Block 11

end Sys2Proof
end

