-- ==== Sys2Proof/Syntax.lean ====
section
/-! DEFINITION. The command set: one constructor per row of spec/opcode_table.json, with the operands of
spec/30_encoding.md R56 to R58. -/

namespace Sys2Proof

/-- A command of AES-GO CORE (R60).  Immediates are unsigned (R58). -/
inductive Instr where
  /-- CLRE: clear the sticky error flag (R193). -/
  | clre
  /-- GMUL a, b: multiply two bytes in GF(2^8) (R81). -/
  | gmul (a b : Byte)
  /-- XTIME x: multiply a byte by 0x02 and reduce (R82). -/
  | xtime (x : Byte)
  /-- SBOX x: look one byte up in the S-box (R83). -/
  | sbox (x : Byte)
  /-- ISBOX x: look one byte up in the inverse S-box (R84). -/
  | isbox (x : Byte)
  /-- LDS imm24: load `S` from MEM (R99). -/
  | lds (imm24 : BitVec 24)
  /-- STS imm24: store `S` to MEM (R100). -/
  | sts (imm24 : BitVec 24)
  /-- SUBB: SubBytes on `S` (R101). -/
  | subb
  /-- ISUBB: InvSubBytes on `S` (R102). -/
  | isubb
  /-- SHROWS: ShiftRows on `S` (R103). -/
  | shrows
  /-- ISHROWS: InvShiftRows on `S` (R104). -/
  | ishrows
  /-- MIXC: MixColumns on `S` (R105). -/
  | mixc
  /-- IMIXC: InvMixColumns on `S` (R106). -/
  | imixc
  /-- ARK i: add round key `i` to `S` (R98).  The field has 4 bits; 11 to 15 are ill-formed (R57). -/
  | ark (i : BitVec 4)
  /-- KEXP: construct the cipher instance from the key the descriptor names (R112). -/
  | kexp
  /-- LDIV: supply the IV for CBC encryption (R147). -/
  | ldiv
  /-- LDNC: supply the nonce for CTR encryption (R148). -/
  | ldnc
  /-- ENC: encrypt the block in `S` (R122). -/
  | enc
  /-- DEC: decrypt the block in `S` (R123). -/
  | dec
  /-- SETSRC imm24: set the source address (R130). -/
  | setsrc (imm24 : BitVec 24)
  /-- SETLEN imm24: set the source length (R131). -/
  | setlen (imm24 : BitVec 24)
  /-- SETDST imm24: set the destination address (R132). -/
  | setdst (imm24 : BitVec 24)
  /-- PAD: pad a final block (R136). -/
  | pad
  /-- UNPAD: validate padding and report the unpadded length (R137). -/
  | unpad
  /-- MENC mode: encrypt a message (R156).  Selectors 3 to 255 are legal words and raise InvalidMode (R62). -/
  | menc (mode : Byte)
  /-- MDEC mode: decrypt a message (R157). -/
  | mdec (mode : Byte)
  deriving DecidableEq, Repr

end Sys2Proof
end

