-- ==== Sys2Proof/WellFormed.lean ====
section
/-! DEFINITION. Which terms of `Instr` are commands (spec/30_encoding.md R57, R59): every operand value its field can hold,
but for ARK, whose round index is 0 to 10. -/

namespace Sys2Proof

/-- The one check that the operand types do not already make: ARK's index is 0 to 10 (R57, R59, R98). -/
def Instr.wf : Instr → Bool
  | .ark i => decide (i.toNat ≤ 10)
  | .clre | .gmul _ _ | .xtime _ | .sbox _ | .isbox _ | .lds _ | .sts _ | .subb | .isubb | .shrows | .ishrows
  | .mixc | .imixc | .kexp | .ldiv | .ldnc | .enc | .dec | .setsrc _ | .setlen _ | .setdst _ | .pad | .unpad
  | .menc _ | .mdec _ => true

end Sys2Proof
end

