-- ==== Sys2Proof/Decode.lean ====
section
/-! DEFINITION. The decoder, total on all 2^32 words and rejecting by name (spec/30_encoding.md R55 to R61), then the
encoder, the opcode table as mask and match rows (R60), and the host's view of a table word. -/

namespace Sys2Proof

/-- Why a word is no command: the three classes of R61. -/
inductive IllegalWord where
  /-- (a) the opcode is not one of the 26 of R60. -/
  | reservedOpcode
  /-- (b) a listed opcode with a nonzero must-be-zero bit. -/
  | reservedBits
  /-- (c) ARK with a round index of 11 to 15. -/
  | roundIndex
  deriving DecidableEq, Repr

/-- `bits[31:24]` of a command word (R56). -/
def opcodeOf (w : Word) : BitVec 8 := w.extractLsb' 24 8

/-- `bits[23:0]` of a command word: `imm24` (R57, R58). -/
def imm24Of (w : Word) : BitVec 24 := w.extractLsb' 0 24

/-- `bits[7:0]` of a command word: `b`, `x` or `mode` (R57, R58). -/
def lowByteOf (w : Word) : Byte := w.extractLsb' 0 8

/-- `bits[15:8]` of a command word: `a` (R57, R58). -/
def secondByteOf (w : Word) : Byte := w.extractLsb' 8 8

/-- `bits[3:0]` of a command word: `i` (R57, R58). -/
def roundIndexOf (w : Word) : BitVec 4 := w.extractLsb' 0 4

/-- Format Z: `bits[23:0] = 0` (R59). -/
def decodeZ (i : Instr) (w : Word) : Except IllegalWord Instr :=
  if w.extractLsb' 0 24 = 0 then .ok i else .error .reservedBits

/-- Format A: nothing to test (R59). -/
def decodeA (f : BitVec 24 → Instr) (w : Word) : Except IllegalWord Instr := .ok (f (imm24Of w))

/-- Format B: `bits[23:16] = 0` (R59). -/
def decodeB (f : Byte → Byte → Instr) (w : Word) : Except IllegalWord Instr :=
  if w.extractLsb' 16 8 = 0 then .ok (f (secondByteOf w) (lowByteOf w)) else .error .reservedBits

/-- Formats X and M: `bits[23:8] = 0` (R59). -/
def decodeX (f : Byte → Instr) (w : Word) : Except IllegalWord Instr :=
  if w.extractLsb' 8 16 = 0 then .ok (f (lowByteOf w)) else .error .reservedBits

/-- Format I: `bits[23:4] = 0` and `bits[3:0] <= 10` (R59). -/
def decodeI (f : BitVec 4 → Instr) (w : Word) : Except IllegalWord Instr :=
  if w.extractLsb' 4 20 = 0 then
    if (roundIndexOf w).toNat ≤ 10 then .ok (f (roundIndexOf w)) else .error .roundIndex
  else .error .reservedBits

/-- The decoder (R59): the opcode selects the command and its format, the format's must-be-zero bits are tested. -/
def decode (w : Word) : Except IllegalWord Instr :=
  match (opcodeOf w).toNat with
  | 0x01 => decodeZ .clre w
  | 0x10 => decodeB .gmul w
  | 0x11 => decodeX .xtime w
  | 0x12 => decodeX .sbox w
  | 0x13 => decodeX .isbox w
  | 0x20 => decodeA .lds w
  | 0x21 => decodeA .sts w
  | 0x30 => decodeZ .subb w
  | 0x31 => decodeZ .isubb w
  | 0x32 => decodeZ .shrows w
  | 0x33 => decodeZ .ishrows w
  | 0x34 => decodeZ .mixc w
  | 0x35 => decodeZ .imixc w
  | 0x36 => decodeI .ark w
  | 0x40 => decodeZ .kexp w
  | 0x41 => decodeZ .ldiv w
  | 0x42 => decodeZ .ldnc w
  | 0x50 => decodeZ .enc w
  | 0x51 => decodeZ .dec w
  | 0x60 => decodeA .setsrc w
  | 0x61 => decodeA .setlen w
  | 0x62 => decodeA .setdst w
  | 0x70 => decodeZ .pad w
  | 0x71 => decodeZ .unpad w
  | 0x80 => decodeX .menc w
  | 0x81 => decodeX .mdec w
  | _ => .error .reservedOpcode

/-! ## The encoder -/

/-- A word of an opcode and its 24 operand bits (R56). -/
def word (op : BitVec 8) (operands : BitVec 24) : Word := op ++ operands

/-- The word of a command (R56 to R58, R60). -/
def encode : Instr → Word
  | .clre => word 0x01 0
  | .gmul a b => word 0x10 ((0 : BitVec 8) ++ a ++ b)
  | .xtime x => word 0x11 ((0 : BitVec 16) ++ x)
  | .sbox x => word 0x12 ((0 : BitVec 16) ++ x)
  | .isbox x => word 0x13 ((0 : BitVec 16) ++ x)
  | .lds a => word 0x20 a
  | .sts a => word 0x21 a
  | .subb => word 0x30 0
  | .isubb => word 0x31 0
  | .shrows => word 0x32 0
  | .ishrows => word 0x33 0
  | .mixc => word 0x34 0
  | .imixc => word 0x35 0
  | .ark i => word 0x36 ((0 : BitVec 20) ++ i)
  | .kexp => word 0x40 0
  | .ldiv => word 0x41 0
  | .ldnc => word 0x42 0
  | .enc => word 0x50 0
  | .dec => word 0x51 0
  | .setsrc a => word 0x60 a
  | .setlen a => word 0x61 a
  | .setdst a => word 0x62 a
  | .pad => word 0x70 0
  | .unpad => word 0x71 0
  | .menc m => word 0x80 ((0 : BitVec 16) ++ m)
  | .mdec m => word 0x81 ((0 : BitVec 16) ++ m)

/-! ## The opcode table as rows (R60) -/

/-- A row of R60: the bits a word must have (`match`) under a mask. -/
structure OpRow where
  mnemonic : String
  mask : Word
  bits : Word
  deriving DecidableEq, Repr

/-- The first half of R60's rows. -/
def opRowsLow : List OpRow :=
  [⟨"CLRE", 0xFFFFFFFF, 0x01000000⟩, ⟨"GMUL", 0xFFFF0000, 0x10000000⟩, ⟨"XTIME", 0xFFFFFF00, 0x11000000⟩,
   ⟨"SBOX", 0xFFFFFF00, 0x12000000⟩, ⟨"ISBOX", 0xFFFFFF00, 0x13000000⟩, ⟨"LDS", 0xFF000000, 0x20000000⟩,
   ⟨"STS", 0xFF000000, 0x21000000⟩, ⟨"SUBB", 0xFFFFFFFF, 0x30000000⟩, ⟨"ISUBB", 0xFFFFFFFF, 0x31000000⟩,
   ⟨"SHROWS", 0xFFFFFFFF, 0x32000000⟩, ⟨"ISHROWS", 0xFFFFFFFF, 0x33000000⟩, ⟨"MIXC", 0xFFFFFFFF, 0x34000000⟩,
   ⟨"IMIXC", 0xFFFFFFFF, 0x35000000⟩]

/-- The second half of R60's rows. -/
def opRowsHigh : List OpRow :=
  [⟨"ARK", 0xFFFFFFF0, 0x36000000⟩, ⟨"KEXP", 0xFFFFFFFF, 0x40000000⟩, ⟨"LDIV", 0xFFFFFFFF, 0x41000000⟩,
   ⟨"LDNC", 0xFFFFFFFF, 0x42000000⟩, ⟨"ENC", 0xFFFFFFFF, 0x50000000⟩, ⟨"DEC", 0xFFFFFFFF, 0x51000000⟩,
   ⟨"SETSRC", 0xFF000000, 0x60000000⟩, ⟨"SETLEN", 0xFF000000, 0x61000000⟩, ⟨"SETDST", 0xFF000000, 0x62000000⟩,
   ⟨"PAD", 0xFFFFFFFF, 0x70000000⟩, ⟨"UNPAD", 0xFFFFFFFF, 0x71000000⟩, ⟨"MENC", 0xFFFFFF00, 0x80000000⟩,
   ⟨"MDEC", 0xFFFFFF00, 0x81000000⟩]

/-- R60's 26 rows, in its order. -/
def opTable : List OpRow := opRowsLow ++ opRowsHigh

/-- "a word `w` is command `c` if and only if `w & c.mask = c.match`, plus for ARK the extra condition
`bits[3:0] <= 10`" (R59). -/
def OpRow.isCommand (row : OpRow) (w : Word) : Bool :=
  decide (w &&& row.mask = row.bits) && (row.mnemonic != "ARK" || decide ((roundIndexOf w).toNat ≤ 10))

/-- The command's mnemonic, letter for letter as the table has it. -/
def Instr.mnemonic : Instr → String
  | .clre => "CLRE" | .gmul _ _ => "GMUL" | .xtime _ => "XTIME" | .sbox _ => "SBOX" | .isbox _ => "ISBOX"
  | .lds _ => "LDS" | .sts _ => "STS" | .subb => "SUBB" | .isubb => "ISUBB" | .shrows => "SHROWS"
  | .ishrows => "ISHROWS" | .mixc => "MIXC" | .imixc => "IMIXC" | .ark _ => "ARK" | .kexp => "KEXP"
  | .ldiv => "LDIV" | .ldnc => "LDNC" | .enc => "ENC" | .dec => "DEC" | .setsrc _ => "SETSRC"
  | .setlen _ => "SETLEN" | .setdst _ => "SETDST" | .pad => "PAD" | .unpad => "UNPAD" | .menc _ => "MENC"
  | .mdec _ => "MDEC"

/-! ## The host's table words -/

/-- The command word of a table word: its low `nbits` bits, zeros above (a command is one 32-bit word, R55). -/
def fetchWord (nbits w : Nat) : Word := BitVec.ofNat 32 (w % 2 ^ nbits)

/-- The command the decoder reads from a word numbered as spec/opcode_table.json numbers it; `none` where it refuses. -/
def decodeTableWord (nbits w : Nat) : Option Instr := (decode (fetchWord nbits w)).toOption

end Sys2Proof
end

