-- ==== Sys2Proof/Machine/Bytes.lean ====
section
/-! DEFINITION. Byte-sequence helpers of the pure functions: Blocks and sequences, block `j` of a buffer, exclusive OR of
sequences (spec/00_scope.md R7, R8; 20_memory.md R36). -/

namespace Sys2Proof.Machine

/-- The Block of the first 16 bytes of a sequence (R7).  Every use in the model gives it 16 bytes (notes/assumptions/10.md). -/
def blockOfBytes (l : Bytes) : Block := Vector.ofFn fun i : Fin 16 => l.getD i.val 0

/-- The byte sequence of a Block, index 0 first (R7). -/
def bytesOfBlock (b : Block) : Bytes := b.toList

/-- Exclusive OR of two Blocks, byte by byte (R8). -/
def xorBlock (a b : Block) : Block := Vector.ofFn fun i : Fin 16 => a[i] ^^^ b[i]

/-- Exclusive OR of two sequences, byte by byte, as long as the shorter one (R8, R152). -/
def xorBytes (a b : Bytes) : Bytes := List.zipWith (· ^^^ ·) a b

/-- Bytes `16j` to `16j+15` of a buffer, fewer at its end (R36 "Messages into blocks"). -/
def chunkAt (buf : Bytes) (j : Nat) : Bytes := (buf.drop (16 * j)).take 16

/-- The buffer cut into 16-byte pieces, the last one possibly shorter (R152). -/
def chunks (buf : Bytes) : List Bytes := (List.range ((buf.length + 15) / 16)).map (chunkAt buf)

/-- The whole Blocks of a buffer, in order (R36, R149). -/
def wholeBlocks (buf : Bytes) : List Block :=
  (List.range (buf.length / 16)).map fun j => blockOfBytes (chunkAt buf j)

/-- Concatenation of Blocks (R8). -/
def concatBlocks (bs : List Block) : Bytes := (bs.map bytesOfBlock).flatten

/-- `rep(v, n)` (R8). -/
def rep (v : Byte) (n : Nat) : Bytes := List.replicate n v

end Sys2Proof.Machine
end

