-- ==== Sys2Proof/Config.lean ====
section
/-! DEFINITION. What one implementation fixes and what the spec leaves open: the range of `MEMSIZE`, the value of
`MEMSIZE` in `State.reset`, and the free power-on contents of MEM. -/

namespace Sys2Proof.Config

/-- The least legal `MEMSIZE` (R5: `64 <= MEMSIZE <= 2^24`). -/
def memSizeMin : Nat := 64

/-- The greatest legal `MEMSIZE` (R5). -/
def memSizeMax : Nat := 2 ^ 24

/-- `MEMSIZE` of the one machine that `State.reset` is.  DESIGN CHOICE (notes/assumptions/2.md), unsafe: `MEMSIZE` is OPEN
in the spec; 512 is the value the spec's own vectors use where they name one (V14, V28).  Statements quantify over it. -/
def resetMemSize : Nat := 512

/-- What a byte of MEM that nothing has written since the `k`-th reset reads as: A FREE VALUE, no body, so that nothing can
be proved about it (R24, R210: "every byte is an unknown value, a free input of the run").  notes/assumptions/1.md. -/
opaque powerOnByte (k : Nat) (addr : Nat) : Byte

end Sys2Proof.Config
end

