-- ==== Sys2Proof/Machine/State.lean ====
section
/-! DEFINITION. The machine's state (spec/10_state.md, its table "Summary of all state"), the error kinds of R185, the steps
the host can make (20_memory.md R45, 70_reset_and_hazards.md R210), and the state after reset (R24, R210). -/

namespace Sys2Proof.Machine

/-- The data memory: the bytes written since power-on, as (address, byte) pairs with strictly rising addresses.  An address
that is not listed holds its power-on byte, which is unknown (R24; notes/assumptions/1.md). -/
abbrev Memory := List Host.Cell

/-- The error kinds of R185; their codes 1 to 11 are `ErrKind.code`. -/
inductive ErrKind where
  | unsupportedKeySize
  | invalidIVLength
  | invalidNonceLength
  | ciphertextTooShort
  | invalidPadding
  | invalidMode
  | noKey
  | illegalCommand
  | memRange
  | badLength
  | counterOverflow
  deriving DecidableEq, Repr

/-- The cipher mode a legal selector names (R57: 0 ECB, 1 CBC, 2 CTR). -/
inductive CipherMode where
  | ecb
  | cbc
  | ctr
  deriving DecidableEq, Repr

/-- One step of the host (R45), or a reset (R210). -/
inductive HostStep where
  /-- Write a 32-bit value to a port; on port 0 it is the command word (R18, R55). -/
  | writePort (port : Nat) (v : Word)
  /-- Read a port (R18). -/
  | readPort (port : Nat)
  /-- Write one byte of MEM (R22, R45). -/
  | writeMem (addr : Nat) (v : Byte)
  /-- Read one byte of MEM (R22, R45). -/
  | readMem (addr : Nat)
  /-- Reset is asserted; how is left to the platform (R210). -/
  | reset
  deriving DecidableEq, Repr

/-- Everything the machine holds between two steps.  Upper-case fields are the spec's registers, flags and memory under
its names; `memSize` is its open parameter; the other lower-case fields are the model's own (notes/assumptions/3.md, 4.md). -/
structure State where
  /-- `S`, the Block under transformation (R10). -/
  S : Block
  /-- `R`, the result byte of GMUL, XTIME, SBOX, ISBOX (R11). -/
  R : Byte
  /-- `RK[0..10]`, the RoundKeySchedule (R19). -/
  RK : RoundKeys
  /-- `KV`: a valid cipher instance exists (R14). -/
  KV : Bool
  /-- `IV`, the configured IV or nonce (R21). -/
  IV : Block
  /-- `IVOK`: `IV` holds a 16-byte value (R14). -/
  IVOK : Bool
  /-- `SRC`, the source address (R15). -/
  SRC : Word
  /-- `LEN`, the source length (R15). -/
  LEN : Word
  /-- `DST`, the destination address (R15). -/
  DST : Word
  /-- `OLEN`, the output length of the last buffer command (R16). -/
  OLEN : Word
  /-- `ERR`, the result code of the most recent command (R17). -/
  ERR : Byte
  /-- `ESTICKY`: some command has failed since the last CLRE or reset (R14). -/
  ESTICKY : Bool
  /-- `MEM[0..MEMSIZE-1]` (R22). -/
  MEM : Memory
  /-- `MEMSIZE`, the open parameter of R5; no step changes it. -/
  memSize : Nat
  /-- How many resets there have been: it selects the free power-on contents of MEM (model's own). -/
  powerOns : Nat
  /-- The host's coming steps, the next one first (model's own: the Host agent of R6). -/
  pending : List HostStep
  /-- The values the host has read, the latest first (model's own: the Host agent of R6). -/
  received : List Word
  deriving DecidableEq, Repr

/-- Why a step stops.  No command ever does: every error is a code in `ERR` and a next state (R186, R187). -/
inductive Fault where
  /-- Raised by a HOST step (never by a command) that names an address at or above `MEMSIZE`: the byte does not exist (R22,
  R43).  Safe: the spec gives the access no effect, and the model stops. -/
  | hostAddressOutsideMem (addr : Nat)
  deriving DecidableEq, Repr

/-- Why a step has no meaning. -/
inductive Refusal where
  /-- Raised by `exec` for a command that has no meaning yet; no arm raises it.  Safe. -/
  | notModelled (mnemonic : String)
  deriving DecidableEq, Repr

/-- The state after the `k`-th reset of a machine of `n` bytes (R24, R210).  `RK` and `IV` are unspecified and unobservable
there; the zeros are a DESIGN CHOICE (notes/assumptions/5.md), unsafe. -/
def State.resetAt (n k : Nat) : State where
  S := Vector.replicate 16 0
  R := 0
  RK := Vector.replicate 11 (Vector.replicate 16 0)
  KV := false
  IV := Vector.replicate 16 0
  IVOK := false
  SRC := 0
  LEN := 0
  DST := 0
  OLEN := 0
  ERR := 0
  ESTICKY := false
  MEM := []
  memSize := n
  powerOns := k
  pending := []
  received := []

/-- The machine right after its first reset, with nothing placed (R24, R210). -/
def State.reset : State := State.resetAt Config.resetMemSize 0

end Sys2Proof.Machine
end

