-- ==== Sys2Proof/Machine/Ops.lean ====
section
/-! DEFINITION. The operations every command shares: one byte and runs of bytes of MEM with the range check
(spec/20_memory.md R35, R38, R41), and the one error mechanism (60_exceptions.md R185, R187): a command succeeds, or raises
one error.  This hardware's exception is that error code; it has no return from one (R191, R192). -/

namespace Sys2Proof.Machine

/-! ## Error codes (R185) -/

/-- The code an error writes to `ERR` (R185). -/
def ErrKind.code : ErrKind → Byte
  | .unsupportedKeySize => 1
  | .invalidIVLength => 2
  | .invalidNonceLength => 3
  | .ciphertextTooShort => 4
  | .invalidPadding => 5
  | .invalidMode => 6
  | .noKey => 7
  | .illegalCommand => 8
  | .memRange => 9
  | .badLength => 10
  | .counterOverflow => 11

/-! ## The canonical list of MEM's written bytes -/

/-- The byte listed at an address. -/
def Memory.lookup : Memory → Nat → Option Byte
  | [], _ => none
  | (x, b) :: m, a => if a = x then some b else Memory.lookup m a

/-- List a byte at an address, keeping addresses strictly rising. -/
def Memory.insert : Memory → Nat → Byte → Memory
  | [], a, v => [(a, v)]
  | (x, b) :: m, a, v =>
    if a < x then (a, v) :: (x, b) :: m
    else if a = x then (a, v) :: m
    else (x, b) :: Memory.insert m a v

/-- The canonical form: addresses strictly rising.  An unlisted address has no known value, so no entry can equal it. -/
def Memory.wf : Memory → Bool
  | [] => true
  | [_] => true
  | c :: d :: m => decide (c.1 < d.1) && Memory.wf (d :: m)

/-! ## One byte of MEM (R35, R42) -/

/-- The byte of MEM at an address: the last one written there, else the free power-on byte (R24, R42). -/
def readByte (s : State) (a : Nat) : Byte :=
  (Memory.lookup s.MEM a).getD (Config.powerOnByte s.powerOns a)

/-- Write one byte of MEM (R42). -/
def writeByte (s : State) (a : Nat) (v : Byte) : State := { s with MEM := Memory.insert s.MEM a v }

/-! ## Runs of bytes (R35, R38) -/

/-- The `n` bytes from `a` on, lowest address first (R35). -/
def readBytes (s : State) : Nat → Nat → Bytes
  | _, 0 => []
  | a, n + 1 => readByte s a :: readBytes s (a + 1) n

/-- Write a sequence from `a` on, element 0 at `a` (R35). -/
def writeBytes (s : State) : Nat → Bytes → State
  | _, [] => s
  | a, v :: vs => writeBytes (writeByte s a v) (a + 1) vs

/-- "in range if and only if `n = 0`, or `a + n <= MEMSIZE` with the sum taken in the natural numbers" (R38). -/
def inRange (s : State) (a n : Nat) : Bool := decide (n = 0) || decide (a + n ≤ s.memSize)

/-- `MemRead(addr, n)`, all or nothing (R8, R38). -/
def memRead (s : State) (a n : Nat) : Except ErrKind Bytes :=
  if inRange s a n then .ok (readBytes s a n) else .error .memRange

/-- `MemWrite(addr, len(v), v)`, all or nothing: the range is checked before the first byte is written (R8, R38, R189). -/
def memWrite (s : State) (a : Nat) (v : Bytes) : Except ErrKind State :=
  if inRange s a v.length then .ok (writeBytes s a v) else .error .memRange

/-! ## How a command ends (R187) -/

/-- `if c then raise e` (R8). -/
def raiseIf (c : Bool) (e : ErrKind) : Except ErrKind Unit := if c then .error e else .ok ()

/-- Success: `ERR <- 0`, `ESTICKY` unchanged (R187). -/
def succeed (s : State) : State := { s with ERR := 0 }

/-- `raise E`: `ERR <- code(E)`, `ESTICKY <- 1` (R187).  This is the machine's whole exception entry (R191). -/
def raise (e : ErrKind) (s : State) : State := { s with ERR := e.code, ESTICKY := true }

/-- "Every command ends in exactly one of two ways" (R187): with its own writes and success, or with an error, the writes
`onError` that R187 lists for the command, and nothing else. -/
def complete (onError : State → State) (s : State) (r : Except ErrKind State) :
    Host.Outcome State Fault Refusal :=
  match r with
  | .ok t => .next (succeed t)
  | .error e => .next (raise e (onError s))

/-- An illegal word executes as `raise IllegalCommand` and changes only `ERR` and `ESTICKY` (R59, R61, R187). -/
def execIllegal (s : State) : Host.Outcome State Fault Refusal := .next (raise .illegalCommand s)

end Sys2Proof.Machine
end

