-- ==== Sys2Proof/Machine/Operands.lean ====
section
/-! DEFINITION. The operand forms (spec/30_encoding.md R57, R58; 44_padding.md R130 to R132): immediates of the word, the
absolute address in the word, and the buffers the descriptor registers name. -/

namespace Sys2Proof.Machine

/-- `zext_32(imm24)`, what SETSRC, SETLEN and SETDST store (R58). -/
def zext32 (imm24 : BitVec 24) : Word := imm24.setWidth 32

/-- The absolute address in the word, used directly by LDS and STS (R58). -/
def immAddr (imm24 : BitVec 24) : Nat := imm24.toNat

/-- The address the descriptor register `SRC` names (R15). -/
def srcAddr (s : State) : Nat := s.SRC.toNat

/-- The length the descriptor register `LEN` names (R15). -/
def srcLen (s : State) : Nat := s.LEN.toNat

/-- The address the register `DST` names (R15). -/
def dstAddr (s : State) : Nat := s.DST.toNat

/-- `MemRead(SRC, LEN)`: the source buffer of PAD, UNPAD, MENC and MDEC (R15, R40). -/
def readSource (s : State) : Except ErrKind Bytes := memRead s (srcAddr s) (srcLen s)

/-- The 16 bytes at `SRC` of KEXP, LDIV and LDNC, read "only when LEN = 16" (R40): another length is the error `e`. -/
def readSource16 (s : State) (e : ErrKind) : Except ErrKind Block := do
  raiseIf (srcLen s != 16) e
  let b ← memRead s (srcAddr s) 16
  return blockOfBytes b

/-- `MemWrite(DST, len(out), out); OLEN <- len(out)`: the result of PAD, MENC and MDEC (R16, R40). -/
def writeResult (s : State) (out : Bytes) : Except ErrKind State := do
  let t ← memWrite s (dstAddr s) out
  return { t with OLEN := BitVec.ofNat 32 out.length }

/-- The cipher mode a selector byte names: 0 ECB, 1 CBC, 2 CTR, else `InvalidMode` (R57, R62). -/
def selectMode (mode : Byte) : Except ErrKind CipherMode :=
  if mode = 0 then .ok .ecb
  else if mode = 1 then .ok .cbc
  else if mode = 2 then .ok .ctr
  else .error .invalidMode

end Sys2Proof.Machine
end

