-- ==== Sys2Proof/Machine/Flags.lean ====
section
/-! DEFINITION. The flags `KV`, `IVOK`, `ESTICKY` (spec/10_state.md R14), the guards that read them, what a failing command
writes beside `ERR` and `ESTICKY` (60_exceptions.md R187), and the STATUS port's layout (R18). -/

namespace Sys2Proof.Machine

/-- "if KV = 0 then raise NoKey" (R98, R122, R123, R156, R157). -/
def requireKey (s : State) : Except ErrKind Unit := raiseIf (!s.KV) .noKey

/-- MENC's check that an IV or nonce is loaded: CBC raises InvalidIVLength, CTR InvalidNonceLength, ECB needs none (R156). -/
def requireIV (m : CipherMode) (s : State) : Except ErrKind Unit :=
  match m with
  | .ecb => .ok ()
  | .cbc => raiseIf (!s.IVOK) .invalidIVLength
  | .ctr => raiseIf (!s.IVOK) .invalidNonceLength

/-- A failing command that writes nothing beside `ERR` and `ESTICKY` (R187). -/
def keepAll (s : State) : State := s

/-- A failing KEXP: `KV <- 0` (R112, R187). -/
def dropKey (s : State) : State := { s with KV := false }

/-- A failing LDIV or LDNC: `IVOK <- 0` (R147, R148, R187). -/
def dropIV (s : State) : State := { s with IVOK := false }

/-- A failing PAD, UNPAD, MENC or MDEC: `OLEN <- 0` (R187). -/
def clearOlen (s : State) : State := { s with OLEN := 0 }

/-- Port 1, `STATUS`: bit 0 `KV`, bit 1 `IVOK`, bit 2 `ESTICKY`, bits 15:8 `ERR`, the others 0 (R18). -/
def statusWord (s : State) : Word :=
  (0 : BitVec 16) ++ s.ERR ++ (0 : BitVec 5) ++ BitVec.ofBool s.ESTICKY ++ BitVec.ofBool s.IVOK ++ BitVec.ofBool s.KV

end Sys2Proof.Machine
end

