-- ==== Sys2Proof/Machine/GfSbox.lean ====
section
/-! DEFINITION. The GF(2^8) multiplier and reducer, the S-box and the inverse S-box, and the commands GMUL, XTIME, SBOX,
ISBOX (spec/40_gf_sbox.md). -/

namespace Sys2Proof.Machine

/-- `xtime(a)`: shift left by one, and if the bit shifted out was set, exclusive OR with 0x1B (R75). -/
def xtime (a : Byte) : Byte := if a.getLsbD 7 then (a <<< 1) ^^^ 0x1B else a <<< 1

/-- The loop of `gmul`, `n` iterations still to make (R76). -/
def gmulLoop : Nat → Byte → Byte → Byte → Byte
  | 0, _, _, acc => acc
  | n + 1, a, b, acc => gmulLoop n (xtime a) (b >>> 1) (if b.getLsbD 0 then acc ^^^ a else acc)

/-- `gmul(a, b)`: the product in GF(2^8), always 8 iterations (R76). -/
def gmul (a b : Byte) : Byte := gmulLoop 8 a b 0

/-- The S-box, one number a row of the table of R78: row `x[7:4]`, its 16 bytes from column 0 on. -/
def sBoxRows : List Nat :=
  [0x637c777bf26b6fc53001672bfed7ab76, 0xca82c97dfa5947f0add4a2af9ca472c0,
   0xb7fd9326363ff7cc34a5e5f171d83115, 0x04c723c31896059a071280e2eb27b275,
   0x09832c1a1b6e5aa0523bd6b329e32f84, 0x53d100ed20fcb15b6acbbe394a4c58cf,
   0xd0efaafb434d338545f9027f503c9fa8, 0x51a3408f929d38f5bcb6da2110fff3d2,
   0xcd0c13ec5f974417c4a77e3d645d1973, 0x60814fdc222a908846eeb814de5e0bdb,
   0xe0323a0a4906245cc2d3ac629195e479, 0xe7c8376d8dd54ea96c56f4ea657aae08,
   0xba78252e1ca6b4c6e8dd741f4bbd8b8a, 0x703eb5664803f60e613557b986c11d9e,
   0xe1f8981169d98e949b1e87e9ce5528df, 0x8ca1890dbfe6426841992d0fb054bb16]

/-- The inverse S-box, one number a row of the table of R79. -/
def invSBoxRows : List Nat :=
  [0x52096ad53036a538bf40a39e81f3d7fb, 0x7ce339829b2fff87348e4344c4dee9cb,
   0x547b9432a6c2233dee4c950b42fac34e, 0x082ea16628d924b2765ba2496d8bd125,
   0x72f8f66486689816d4a45ccc5d65b692, 0x6c704850fdedb9da5e154657a78d9d84,
   0x90d8ab008cbcd30af7e45805b8b34506, 0xd02c1e8fca3f0f02c1afbd0301138a6b,
   0x3a9111414f67dcea97f2cfcef0b4e673, 0x96ac7422e7ad3585e2f937e81c75df6e,
   0x47f11a711d29c5896fb7620eaa18be1b, 0xfc563e4bc6d279209adbc0fe78cd5af4,
   0x1fdda8338807c731b11210592780ec5f, 0x60517fa919b54a0d2de57a9f93c99cef,
   0xa0e03b4dae2af5b0c8ebbb3c83539961, 0x172b047eba77d626e169146355210c7d]

/-- A table byte: row `x[7:4]`, column `x[3:0]` (R78, R79). -/
def tableByte (rows : List Nat) (x : Byte) : Byte :=
  BitVec.ofNat 8 (rows.getD (x.toNat / 16) 0 >>> (8 * (15 - x.toNat % 16)))

/-- `sBox[x]` (R78). -/
def sBox (x : Byte) : Byte := tableByte sBoxRows x

/-- `invSBox[x]` (R79). -/
def invSBox (x : Byte) : Byte := tableByte invSBoxRows x

/-! ## Commands -/

/-- GMUL: `R <- gmul(a, b)` (R81). -/
def execGmul (a b : Byte) (s : State) : Host.Outcome State Fault Refusal :=
  complete keepAll s (.ok { s with R := gmul a b })

/-- XTIME: `R <- xtime(x)` (R82). -/
def execXtime (x : Byte) (s : State) : Host.Outcome State Fault Refusal :=
  complete keepAll s (.ok { s with R := xtime x })

/-- SBOX: `R <- sBox[x]` (R83). -/
def execSbox (x : Byte) (s : State) : Host.Outcome State Fault Refusal :=
  complete keepAll s (.ok { s with R := sBox x })

/-- ISBOX: `R <- invSBox[x]` (R84). -/
def execIsbox (x : Byte) (s : State) : Host.Outcome State Fault Refusal :=
  complete keepAll s (.ok { s with R := invSBox x })

end Sys2Proof.Machine
end

