-- ==== Sys2Proof/Machine/Transforms.lean ====
section
/-! DEFINITION. The state transforms and the commands LDS, STS, SUBB, ISUBB, SHROWS, ISHROWS, MIXC, IMIXC, ARK
(spec/41_state_transforms.md). -/

namespace Sys2Proof.Machine

/-! ## The functions -/

/-- The block index of row `r`, column `c` of the State: `4*c + r` (R7), for `r` and `c` below 4. -/
def stateIndex (r c : Nat) : Nat := 4 * c + r

/-- The byte at row `r`, column `c` of a Block (R7), both taken modulo 4 so that the index exists. -/
def stateByte (s : Block) (r c : Nat) : Byte :=
  s[stateIndex (r % 4) (c % 4)]'(by unfold stateIndex; omega)

/-- `SubBytes(s)` (R90). -/
def SubBytes (s : Block) : Block := Vector.ofFn fun i : Fin 16 => sBox s[i]

/-- `InvSubBytes(s)` (R91). -/
def InvSubBytes (s : Block) : Block := Vector.ofFn fun i : Fin 16 => invSBox s[i]

/-- `ShiftRows(s)`: `out[4*c + r] = s[4*((c + r) mod 4) + r]` (R92). -/
def ShiftRows (s : Block) : Block :=
  Vector.ofFn fun i : Fin 16 => stateByte s (i.val % 4) ((i.val / 4 + i.val % 4) % 4)

/-- `InvShiftRows(s)`: `out[4*c + r] = s[4*((c - r) mod 4) + r]` (R93). -/
def InvShiftRows (s : Block) : Block :=
  Vector.ofFn fun i : Fin 16 => stateByte s (i.val % 4) ((i.val / 4 + 4 - i.val % 4) % 4)

/-- One output row of a matrix product: `k0*a0 ^ k1*a1 ^ k2*a2 ^ k3*a3` on column `c`, with `*` = `gmul` (R94, R95). -/
def mulRow (k0 k1 k2 k3 : Byte) (s : Block) (c : Nat) : Byte :=
  gmul k0 (stateByte s 0 c) ^^^ gmul k1 (stateByte s 1 c) ^^^ gmul k2 (stateByte s 2 c) ^^^ gmul k3 (stateByte s 3 c)

/-- `MixColumns(s)`: the matrix rows {2,3,1,1}, {1,2,3,1}, {1,1,2,3}, {3,1,1,2} give output rows 0 to 3 (R94). -/
def MixColumns (s : Block) : Block :=
  Vector.ofFn fun i : Fin 16 =>
    match i.val % 4 with
    | 0 => mulRow 2 3 1 1 s (i.val / 4)
    | 1 => mulRow 1 2 3 1 s (i.val / 4)
    | 2 => mulRow 1 1 2 3 s (i.val / 4)
    | _ => mulRow 3 1 1 2 s (i.val / 4)

/-- `InvMixColumns(s)`: the rows {14,11,13,9}, {9,14,11,13}, {13,9,14,11}, {11,13,9,14}, decimal (R95). -/
def InvMixColumns (s : Block) : Block :=
  Vector.ofFn fun i : Fin 16 =>
    match i.val % 4 with
    | 0 => mulRow 14 11 13 9 s (i.val / 4)
    | 1 => mulRow 9 14 11 13 s (i.val / 4)
    | 2 => mulRow 13 9 14 11 s (i.val / 4)
    | _ => mulRow 11 13 9 14 s (i.val / 4)

/-- `AddRoundKey(s, k)`: "XOR state with round key reshaped as a State" (R96). -/
def AddRoundKey (s k : Block) : Block := xorBlock s k

/-! ## Commands -/

/-- LDS: `S <- MemRead(imm24, 16)` (R99). -/
def execLds (imm24 : BitVec 24) (s : State) : Host.Outcome State Fault Refusal :=
  complete keepAll s (do
    let b ← memRead s (immAddr imm24) 16
    return { s with S := blockOfBytes b })

/-- STS: `MemWrite(imm24, 16, S)` (R100). -/
def execSts (imm24 : BitVec 24) (s : State) : Host.Outcome State Fault Refusal :=
  complete keepAll s (memWrite s (immAddr imm24) (bytesOfBlock s.S))

/-- SUBB: `S <- SubBytes(S)` (R101). -/
def execSubb (s : State) : Host.Outcome State Fault Refusal :=
  complete keepAll s (.ok { s with S := SubBytes s.S })

/-- ISUBB: `S <- InvSubBytes(S)` (R102). -/
def execIsubb (s : State) : Host.Outcome State Fault Refusal :=
  complete keepAll s (.ok { s with S := InvSubBytes s.S })

/-- SHROWS: `S <- ShiftRows(S)` (R103). -/
def execShrows (s : State) : Host.Outcome State Fault Refusal :=
  complete keepAll s (.ok { s with S := ShiftRows s.S })

/-- ISHROWS: `S <- InvShiftRows(S)` (R104). -/
def execIshrows (s : State) : Host.Outcome State Fault Refusal :=
  complete keepAll s (.ok { s with S := InvShiftRows s.S })

/-- MIXC: `S <- MixColumns(S)` (R105). -/
def execMixc (s : State) : Host.Outcome State Fault Refusal :=
  complete keepAll s (.ok { s with S := MixColumns s.S })

/-- IMIXC: `S <- InvMixColumns(S)` (R106). -/
def execImixc (s : State) : Host.Outcome State Fault Refusal :=
  complete keepAll s (.ok { s with S := InvMixColumns s.S })

/-- `RK[i]` for an index of 0 to 10 (R19); an index of 11 to 15 has no round key, and no legal word holds one (R59;
DEDUCED, safe: notes/assumptions/8.md). -/
def roundKeyAt (rk : RoundKeys) (i : BitVec 4) : Except ErrKind Block :=
  if h : i.toNat < 11 then .ok rk[i.toNat] else .error .illegalCommand

/-- ARK: `S <- AddRoundKey(S, RK[i])`, after `IllegalCommand` for 11 to 15, then `NoKey` (R98). -/
def execArk (i : BitVec 4) (s : State) : Host.Outcome State Fault Refusal :=
  complete keepAll s (do
    let k ← roundKeyAt s.RK i
    requireKey s
    return { s with S := AddRoundKey s.S k })

end Sys2Proof.Machine
end

