-- ==== Sys2Proof/Machine/KeySchedule.lean ====
section
/-! DEFINITION. The Rijndael key-expansion scheduler and the command KEXP (spec/42_key_schedule.md). -/

namespace Sys2Proof.Machine

/-- The ten round constants (R110). -/
def rcTable : List Byte := [0x01, 0x02, 0x04, 0x08, 0x10, 0x20, 0x40, 0x80, 0x1B, 0x36]

/-- `rc(i)` for `i` = 1 to 10 (R110).  Every other index, `rc(0)` that "is not defined and never used" among them, gives 0: DESIGN
CHOICE, safe (notes/assumptions/10.md). -/
def rc : Nat → Byte
  | 0 => 0
  | i + 1 => rcTable.getD i 0

/-- A 4-byte word of a round key: one State column (R36, R111). -/
abbrev KeyWord := Vector Byte 4

/-- Word `wj` of a round key: bytes `4j` to `4j+3` (R36, R111), `j` taken modulo 4 so that the word exists. -/
def keyWord (k : Block) (j : Nat) : KeyWord := Vector.ofFn fun n : Fin 4 => stateByte k n.val j

/-- `RotWord`: "left-rotates the 4 bytes by one position" (R36, R111). -/
def RotWord (w : KeyWord) : KeyWord := Vector.ofFn fun n : Fin 4 => w[(n.val + 1) % 4]'(by omega)

/-- `SubWord`: the S-box on each byte (R111). -/
def SubWord (w : KeyWord) : KeyWord := Vector.ofFn fun n : Fin 4 => sBox w[n]

/-- `Rcon(i) = {rc(i), 0, 0, 0}` (R110). -/
def Rcon (i : Nat) : KeyWord := #v[rc i, 0, 0, 0]

/-- Exclusive OR of two words (R8). -/
def xorWord (a b : KeyWord) : KeyWord := Vector.ofFn fun n : Fin 4 => a[n] ^^^ b[n]

/-- The Block `w0 ‖ w1 ‖ w2 ‖ w3` (R111). -/
def blockOfWords (w0 w1 w2 w3 : KeyWord) : Block :=
  Vector.ofFn fun i : Fin 16 =>
    match i.val / 4 with
    | 0 => w0[i.val % 4]'(by omega)
    | 1 => w1[i.val % 4]'(by omega)
    | 2 => w2[i.val % 4]'(by omega)
    | _ => w3[i.val % 4]'(by omega)

/-- One round of the key expansion, from the previous round key (R111). -/
def nextRoundKey (i : Nat) (p : Block) : Block :=
  let t := xorWord (SubWord (RotWord (keyWord p 3))) (Rcon i)
  let w4 := xorWord (keyWord p 0) t
  let w5 := xorWord w4 (keyWord p 1)
  let w6 := xorWord w5 (keyWord p 2)
  let w7 := xorWord w6 (keyWord p 3)
  blockOfWords w4 w5 w6 w7

/-- Round key `i` of a key: "Round 0 = raw key bytes", round `i` from round `i-1` (R111). -/
def roundKey (key : Block) : Nat → Block
  | 0 => key
  | i + 1 => nextRoundKey (i + 1) (roundKey key i)

/-- `KeyExpand(key) -> RK[0..10]` (R111). -/
def KeyExpand (key : Block) : RoundKeys := Vector.ofFn fun i : Fin 11 => roundKey key i.val

/-- KEXP: `RK <- KeyExpand(MemRead(SRC, 16))`, `KV <- 1`; on either error `KV <- 0` and `RK` stays (R112;
notes/assumptions/9.md). -/
def execKexp (s : State) : Host.Outcome State Fault Refusal :=
  complete dropKey s (do
    let key ← readSource16 s .unsupportedKeySize
    return { s with RK := KeyExpand key, KV := true })

end Sys2Proof.Machine
end

