-- ==== Sys2Proof/Machine/BlockEngine.lean ====
section
/-! DEFINITION. The block encryption and decryption engine and the commands ENC, DEC (spec/43_block_engine.md). -/

namespace Sys2Proof.Machine

/-- One of rounds 1 to 9 of encryption: SubBytes, ShiftRows, MixColumns, AddRoundKey (R120). -/
def encRound (rk : RoundKeys) (s : Block) (i : Fin 11) : Block :=
  AddRoundKey (MixColumns (ShiftRows (SubBytes s))) rk[i]

/-- `EncryptBlock(RK, b)`: round 0, rounds 1 to 9, round 10 without MixColumns (R120). -/
def EncryptBlock (rk : RoundKeys) (b : Block) : Block :=
  let s := ([1, 2, 3, 4, 5, 6, 7, 8, 9] : List (Fin 11)).foldl (encRound rk) (AddRoundKey b rk[0])
  AddRoundKey (ShiftRows (SubBytes s)) rk[10]

/-- One of rounds 9 to 1 of decryption: InvShiftRows, InvSubBytes, AddRoundKey, InvMixColumns (R121). -/
def decRound (rk : RoundKeys) (s : Block) (i : Fin 11) : Block :=
  InvMixColumns (AddRoundKey (InvSubBytes (InvShiftRows s)) rk[i])

/-- `DecryptBlock(RK, b)`: round 10, rounds 9 down to 1, round 0 without InvMixColumns (R121). -/
def DecryptBlock (rk : RoundKeys) (b : Block) : Block :=
  let s := ([9, 8, 7, 6, 5, 4, 3, 2, 1] : List (Fin 11)).foldl (decRound rk) (AddRoundKey b rk[10])
  AddRoundKey (InvSubBytes (InvShiftRows s)) rk[0]

/-- ENC: `S <- EncryptBlock(RK, S)`, `NoKey` when `KV = 0` (R122). -/
def execEnc (s : State) : Host.Outcome State Fault Refusal :=
  complete keepAll s (do
    requireKey s
    return { s with S := EncryptBlock s.RK s.S })

/-- DEC: `S <- DecryptBlock(RK, S)`, `NoKey` when `KV = 0` (R123). -/
def execDec (s : State) : Host.Outcome State Fault Refusal :=
  complete keepAll s (do
    requireKey s
    return { s with S := DecryptBlock s.RK s.S })

end Sys2Proof.Machine
end

