-- ==== Sys2Proof/Machine/Padding.lean ====
section
/-! DEFINITION. The buffer descriptor, the padding generator and validator, and the commands SETSRC, SETLEN, SETDST, PAD,
UNPAD (spec/44_padding.md). -/

namespace Sys2Proof.Machine

/-! ## The functions -/

/-- `AddPadding(last)` for a sequence of 0 to 16 bytes (R133).  PAD refuses longer ones before it is called (R136;
notes/assumptions/10.md). -/
def AddPadding (last : Bytes) : Bytes :=
  let n := 16 - last.length
  if n = 0 then last ++ rep 0x10 16 else last ++ rep (BitVec.ofNat 8 n) n

/-- `PadMessage(pt)`: `pt ‖ rep(p, p)` with `p = 16 - (L mod 16)` (R134). -/
def PadMessage (pt : Bytes) : Bytes :=
  let p := 16 - pt.length % 16
  pt ++ rep (BitVec.ofNat 8 p) p

/-- `RemovePadding(buf)`; `none` is InvalidPadding, the one failure kind of its three checks (R135).  An empty buffer has no
last byte; UNPAD and MDEC refuse it before the function is called (R137, R157). -/
def RemovePadding (buf : Bytes) : Option Bytes :=
  match buf.getLast? with
  | none => none
  | some last =>
    let p := last.toNat
    if p = 0 ∨ 16 < p then none
    else if buf.length < p then none
    else if (buf.drop (buf.length - p)).all (fun b => b == last) then some (buf.take (buf.length - p))
    else none

/-- How a command takes `RemovePadding`'s answer: the result, or InvalidPadding (code 5) (R137, R150, R155, R157). -/
def paddedOrRaise (r : Option Bytes) : Except ErrKind Bytes :=
  match r with
  | some pt => .ok pt
  | none => .error .invalidPadding

/-! ## Commands -/

/-- SETSRC: `SRC <- zext_32(imm24)` (R130). -/
def execSetsrc (imm24 : BitVec 24) (s : State) : Host.Outcome State Fault Refusal :=
  complete keepAll s (.ok { s with SRC := zext32 imm24 })

/-- SETLEN: `LEN <- zext_32(imm24)` (R131). -/
def execSetlen (imm24 : BitVec 24) (s : State) : Host.Outcome State Fault Refusal :=
  complete keepAll s (.ok { s with LEN := zext32 imm24 })

/-- SETDST: `DST <- zext_32(imm24)` (R132). -/
def execSetdst (imm24 : BitVec 24) (s : State) : Host.Outcome State Fault Refusal :=
  complete keepAll s (.ok { s with DST := zext32 imm24 })

/-- PAD: `BadLength` when `LEN > 16`, then the padded block at `DST` and its length in `OLEN` (R136). -/
def execPad (s : State) : Host.Outcome State Fault Refusal :=
  complete clearOlen s (do
    raiseIf (decide (16 < srcLen s)) .badLength
    let last ← readSource s
    writeResult s (AddPadding last))

/-- UNPAD: `BadLength` when `LEN = 0`, then the unpadded length in `OLEN`; MEM is never written (R137). -/
def execUnpad (s : State) : Host.Outcome State Fault Refusal :=
  complete clearOlen s (do
    raiseIf (srcLen s == 0) .badLength
    let buf ← readSource s
    let r ← paddedOrRaise (RemovePadding buf)
    return { s with OLEN := BitVec.ofNat 32 r.length })

end Sys2Proof.Machine
end

