-- ==== Sys2Proof/Machine/Modes.lean ====
section
/-! DEFINITION. The modes ECB, CBC and CTR and the commands LDIV, LDNC, MENC, MDEC (spec/45_modes.md). -/

namespace Sys2Proof.Machine

/-! ## The counter -/

/-- Add one to a big-endian byte sequence of any length: the sum at the same length, and whether a carry is left. -/
def incBytes : Bytes → Bytes × Bool
  | [] => ([], true)
  | b :: bs =>
    let r := incBytes bs
    if r.2 then ((b + 1) :: r.1, b + 1 == 0) else (b :: r.1, false)

/-- `CtrInc(c)`: the carry goes from the last byte leftward; when all bytes wrapped, 0x01 is prepended and the result has
one byte more (R146). -/
def CtrInc (c : Bytes) : Bytes :=
  let r := incBytes c
  if r.2 then 0x01 :: r.1 else r.1

/-! ## The mode functions -/

/-- `EcbEncrypt(RK, pt)` (R149). -/
def EcbEncrypt (rk : RoundKeys) (pt : Bytes) : Bytes :=
  concatBlocks ((wholeBlocks (PadMessage pt)).map (EncryptBlock rk))

/-- The blocks an ECB ciphertext decrypts to, concatenated, before the padding is removed (R150). -/
def ecbPlain (rk : RoundKeys) (ct : Bytes) : Bytes := concatBlocks ((wholeBlocks ct).map (DecryptBlock rk))

/-- `EcbDecrypt(RK, ct)`; `none` is InvalidPadding (R150). -/
def EcbDecrypt (rk : RoundKeys) (ct : Bytes) : Option Bytes := RemovePadding (ecbPlain rk ct)

/-- The chain of CBC encryption from a previous ciphertext block on (R151). -/
def cbcChain (rk : RoundKeys) : Block → List Block → List Block
  | _, [] => []
  | prev, p :: ps =>
    let c := EncryptBlock rk (xorBlock p prev)
    c :: cbcChain rk c ps

/-- `CbcEncrypt(RK, iv, pt)`: the IV, then the chained blocks (R151). -/
def CbcEncrypt (rk : RoundKeys) (iv : Block) (pt : Bytes) : Bytes :=
  bytesOfBlock iv ++ concatBlocks (cbcChain rk iv (wholeBlocks (PadMessage pt)))

/-- `P[j] = D(B[j]) ^ B[j-1]` for the blocks after the first, concatenated, before the padding is removed (R155). -/
def cbcPlain (rk : RoundKeys) (ct : Bytes) : Bytes :=
  let B := wholeBlocks ct
  concatBlocks (List.zipWith (fun b prev => xorBlock (DecryptBlock rk b) prev) B.tail B)

/-- `CbcDecrypt(RK, ct)`, the IV being the first 16 bytes of `ct`; `none` is InvalidPadding (R155). -/
def CbcDecrypt (rk : RoundKeys) (ct : Bytes) : Option Bytes := RemovePadding (cbcPlain rk ct)

/-- The loop of `CtrStream` over the pieces of the data (R152). -/
def ctrLoop (rk : RoundKeys) : Bytes → List Bytes → Except ErrKind Bytes
  | _, [] => .ok []
  | ctr, blk :: rest =>
    if ctr.length != 16 then .error .counterOverflow
    else do
      let tail ← ctrLoop rk (CtrInc ctr) rest
      return xorBytes blk (bytesOfBlock (EncryptBlock rk (blockOfBytes ctr))) ++ tail

/-- `CtrStream(RK, ctr, data)` (R152). -/
def CtrStream (rk : RoundKeys) (ctr data : Bytes) : Except ErrKind Bytes := ctrLoop rk ctr (chunks data)

/-- `CtrEncrypt(RK, nonce, pt) = nonce ‖ CtrStream(RK, nonce, pt)` (R153). -/
def CtrEncrypt (rk : RoundKeys) (nonce : Block) (pt : Bytes) : Except ErrKind Bytes := do
  let x ← CtrStream rk (bytesOfBlock nonce) pt
  return bytesOfBlock nonce ++ x

/-- `CtrDecrypt(RK, ct) = CtrStream(RK, ct[0 .. 16), ct[16 .. len(ct)))` (R154). -/
def CtrDecrypt (rk : RoundKeys) (ct : Bytes) : Except ErrKind Bytes := CtrStream rk (ct.take 16) (ct.drop 16)

/-- "case mode of" of MENC (R156). -/
def modeEncrypt (m : CipherMode) (rk : RoundKeys) (iv : Block) (pt : Bytes) : Except ErrKind Bytes :=
  match m with
  | .ecb => .ok (EcbEncrypt rk pt)
  | .cbc => .ok (CbcEncrypt rk iv pt)
  | .ctr => CtrEncrypt rk iv pt

/-- "case mode of" of MDEC (R157). -/
def modeDecrypt (m : CipherMode) (rk : RoundKeys) (ct : Bytes) : Except ErrKind Bytes :=
  match m with
  | .ecb => paddedOrRaise (EcbDecrypt rk ct)
  | .cbc => paddedOrRaise (CbcDecrypt rk ct)
  | .ctr => CtrDecrypt rk ct

/-- MDEC's length checks: CiphertextTooShort (ECB empty, CBC below 32, CTR at most 16), then BadLength for an ECB or CBC
ciphertext that is not a whole number of blocks (R157). -/
def checkCipherLength (m : CipherMode) (n : Nat) : Except ErrKind Unit :=
  match m with
  | .ecb => do raiseIf (n == 0) .ciphertextTooShort; raiseIf (n % 16 != 0) .badLength
  | .cbc => do raiseIf (decide (n < 32)) .ciphertextTooShort; raiseIf (n % 16 != 0) .badLength
  | .ctr => raiseIf (decide (n ≤ 16)) .ciphertextTooShort

/-! ## Commands -/

/-- LDIV: `IV <- MemRead(SRC, 16)`, `IVOK <- 1`; on either error `IVOK <- 0` (R147). -/
def execLdiv (s : State) : Host.Outcome State Fault Refusal :=
  complete dropIV s (do
    let b ← readSource16 s .invalidIVLength
    return { s with IV := b, IVOK := true })

/-- LDNC: as LDIV, with InvalidNonceLength as its length error (R148). -/
def execLdnc (s : State) : Host.Outcome State Fault Refusal :=
  complete dropIV s (do
    let b ← readSource16 s .invalidNonceLength
    return { s with IV := b, IVOK := true })

/-- MENC: encrypt the source buffer to `DST` (R156). -/
def execMenc (mode : Byte) (s : State) : Host.Outcome State Fault Refusal :=
  complete clearOlen s (do
    let m ← selectMode mode
    requireKey s
    requireIV m s
    let pt ← readSource s
    let out ← modeEncrypt m s.RK s.IV pt
    writeResult s out)

/-- MDEC: decrypt the source buffer to `DST`; `IV` and `IVOK` are not read (R157). -/
def execMdec (mode : Byte) (s : State) : Host.Outcome State Fault Refusal :=
  complete clearOlen s (do
    let m ← selectMode mode
    requireKey s
    checkCipherLength m (srcLen s)
    let ct ← readSource s
    let out ← modeDecrypt m s.RK ct
    writeResult s out)

end Sys2Proof.Machine
end

