-- ==== Sys2Proof/Machine/System.lean ====
section
/-! DEFINITION. The one system command, CLRE (spec/60_exceptions.md R193). -/

namespace Sys2Proof.Machine

/-- CLRE: `ESTICKY <- 0`, and `ERR <- 0` as every successful command (R193). -/
def execClre (s : State) : Host.Outcome State Fault Refusal := complete keepAll s (.ok { s with ESTICKY := false })

end Sys2Proof.Machine
end

