-- ==== Sys2Proof/Machine/Dispatch.lean ====
section
/-! DEFINITION. One arm per command: the meaning each constructor of `Instr` calls (spec/30_encoding.md R60). -/

namespace Sys2Proof.Machine

def exec (i : Instr) (s : State) : Host.Outcome State Fault Refusal :=
  match i with
  | .clre => Sys2Proof.Machine.execClre s
  | .gmul a b => Sys2Proof.Machine.execGmul a b s
  | .xtime x => Sys2Proof.Machine.execXtime x s
  | .sbox x => Sys2Proof.Machine.execSbox x s
  | .isbox x => Sys2Proof.Machine.execIsbox x s
  | .lds a => Sys2Proof.Machine.execLds a s
  | .sts a => Sys2Proof.Machine.execSts a s
  | .subb => Sys2Proof.Machine.execSubb s
  | .isubb => Sys2Proof.Machine.execIsubb s
  | .shrows => Sys2Proof.Machine.execShrows s
  | .ishrows => Sys2Proof.Machine.execIshrows s
  | .mixc => Sys2Proof.Machine.execMixc s
  | .imixc => Sys2Proof.Machine.execImixc s
  | .ark k => Sys2Proof.Machine.execArk k s
  | .kexp => Sys2Proof.Machine.execKexp s
  | .ldiv => Sys2Proof.Machine.execLdiv s
  | .ldnc => Sys2Proof.Machine.execLdnc s
  | .enc => Sys2Proof.Machine.execEnc s
  | .dec => Sys2Proof.Machine.execDec s
  | .setsrc a => Sys2Proof.Machine.execSetsrc a s
  | .setlen a => Sys2Proof.Machine.execSetlen a s
  | .setdst a => Sys2Proof.Machine.execSetdst a s
  | .pad => Sys2Proof.Machine.execPad s
  | .unpad => Sys2Proof.Machine.execUnpad s
  | .menc m => Sys2Proof.Machine.execMenc m s
  | .mdec m => Sys2Proof.Machine.execMdec m s

end Sys2Proof.Machine
end

