-- ==== Sys2Proof/Machine/Ports.lean ====
section
/-! DEFINITION. What the host does to the machine between commands: the ports (spec/10_state.md R18), single bytes of MEM
(20_memory.md R45), and reset (70_reset_and_hazards.md R210). -/

namespace Sys2Proof.Machine

/-- Port 0, `CMD`: a write there executes the command (R18). -/
def isCommandPort (port : Nat) : Bool := port == 0

/-- The value of a port (R18): port 0 reads 0, ports 7 and above do not exist and read 0. -/
def portValue (s : State) (port : Nat) : Word :=
  match port with
  | 1 => statusWord s
  | 2 => s.R.setWidth 32
  | 3 => s.OLEN
  | 4 => s.SRC
  | 5 => s.LEN
  | 6 => s.DST
  | _ => 0

/-- The host receives a value. -/
def receive (v : Word) (s : State) : State := { s with received := v :: s.received }

/-- The host reads a port: "Reading a port has no side effect" (R18). -/
def hostReadPort (port : Nat) (s : State) : Host.Outcome State Fault Refusal := .next (receive (portValue s port) s)

/-- The host writes a port that is not the command port: "A write to a read-only port is ignored", and so is one to a port
that does not exist (R18). -/
def hostWriteOther (s : State) : Host.Outcome State Fault Refusal := .next s

/-- The host writes one byte of MEM (R22, R45); an address that does not exist is a fault (R43;
DESIGN CHOICE, safe: notes/assumptions/6.md). -/
def hostWriteMem (addr : Nat) (v : Byte) (s : State) : Host.Outcome State Fault Refusal :=
  if inRange s addr 1 then .next (writeByte s addr v) else .fault (.hostAddressOutsideMem addr)

/-- The host reads one byte of MEM (R22, R45); an address that does not exist is a fault (R43;
notes/assumptions/6.md). -/
def hostReadMem (addr : Nat) (s : State) : Host.Outcome State Fault Refusal :=
  if inRange s addr 1 then .next (receive ((readByte s addr).setWidth 32) s)
  else .fault (.hostAddressOutsideMem addr)

/-- Reset is asserted (R24, R210): the core and MEM as after a reset, the power-on contents of MEM unknown afresh; the host's
script and what it has read are not the core's (DEDUCED, notes/assumptions/7.md). -/
def hostReset (s : State) : Host.Outcome State Fault Refusal :=
  .next { State.resetAt s.memSize (s.powerOns + 1) with pending := s.pending, received := s.received }

/-- No host step is left: the core has no program of its own, and "all state survives" (R6, R13, R204;
notes/assumptions/4.md). -/
def hostIdle (s : State) : Host.Outcome State Fault Refusal := .next s

end Sys2Proof.Machine
end

