-- ==== Sys2Proof/Machine/Step.lean ====
section
/-! DEFINITION. One step of the machine: the host's next step, a command word executing completely within it
(spec/20_memory.md R45, 30_encoding.md R55, R59). -/

namespace Sys2Proof.Machine

/-- The core executes one command word: a command, or `IllegalCommand` (R55, R59). -/
def command (w : Word) (s : State) : Host.Outcome State Fault Refusal :=
  match decode w with
  | .ok i => exec i s
  | .error _ => execIllegal s

/-- What one step of the host does to the rest of the state (R45). -/
def hostStep (h : HostStep) (s : State) : Host.Outcome State Fault Refusal :=
  match h with
  | .writePort port v => if isCommandPort port then command v s else hostWriteOther s
  | .readPort port => hostReadPort port s
  | .writeMem addr v => hostWriteMem addr v s
  | .readMem addr => hostReadMem addr s
  | .reset => hostReset s

/-- One step: the first of the host's coming steps is taken off and made; with none left nothing happens. -/
def step (s : State) : Host.Outcome State Fault Refusal :=
  match s.pending with
  | [] => hostIdle s
  | h :: rest => hostStep h { s with pending := rest }

/-- The machine fetches nothing (R13, R49): its next command is the word the host writes to port 0 next.  A table word is
placed as the host's very next step (notes/assumptions/4.md). -/
def State.withFetchWord (s : State) (nbits w : Nat) : State :=
  { s with pending := .writePort 0 (fetchWord nbits w) :: s.pending }

end Sys2Proof.Machine
end

