-- ==== Sys2Proof/Machine/Pseudo.lean ====
section
/-! DEFINITION. The pseudo-commands and how the host runs a list of commands (spec/30_encoding.md R66 to R68). -/

namespace Sys2Proof.Machine

/-- The pseudo-commands (R66, R67, R68). -/
inductive Pseudo where
  | setbuf (src len : BitVec 24)
  | loadkey (addr : BitVec 24)
  | loadkeyn (addr n : BitVec 24)
  | setiv (addr : BitVec 24)
  | setnonce (addr : BitVec 24)
  | encb (src dst : BitVec 24)
  | decb (src dst : BitVec 24)
  | rnde (i : BitVec 4)
  | rndef
  | rndd (i : BitVec 4)
  | rnddf
  | encrypt (mode : Byte) (src len dst : BitVec 24)
  | decrypt (mode : Byte) (src len dst : BitVec 24)
  | trydec (src len scratch : BitVec 24)
  deriving DecidableEq, Repr

/-- RNDE and RNDD take a middle round, 1 to 9 (R67). -/
def Pseudo.wf : Pseudo → Bool
  | .rnde i | .rndd i => decide (1 ≤ i.toNat) && decide (i.toNat ≤ 9)
  | .setbuf _ _ | .loadkey _ | .loadkeyn _ _ | .setiv _ | .setnonce _ | .encb _ _ | .decb _ _ | .rndef | .rnddf
  | .encrypt _ _ _ _ | .decrypt _ _ _ _ | .trydec _ _ _ => true

/-- "Each expands to the listed real commands in order" (R66, R67, R68). -/
def Pseudo.expand : Pseudo → List Instr
  | .setbuf src len => [.setsrc src, .setlen len]
  | .loadkey addr => [.setsrc addr, .setlen 16, .kexp]
  | .loadkeyn addr n => [.setsrc addr, .setlen n, .kexp]
  | .setiv addr => [.setsrc addr, .setlen 16, .ldiv]
  | .setnonce addr => [.setsrc addr, .setlen 16, .ldnc]
  | .encb src dst => [.lds src, .enc, .sts dst]
  | .decb src dst => [.lds src, .dec, .sts dst]
  | .rnde i => [.subb, .shrows, .mixc, .ark i]
  | .rndef => [.subb, .shrows, .ark 10]
  | .rndd i => [.ishrows, .isubb, .ark i, .imixc]
  | .rnddf => [.ishrows, .isubb, .ark 0]
  | .encrypt mode src len dst => [.setsrc src, .setlen len, .setdst dst, .menc mode]
  | .decrypt mode src len dst => [.setsrc src, .setlen len, .setdst dst, .mdec mode]
  | .trydec src len scratch => [.setsrc src, .setlen len, .setdst scratch, .mdec 1]

/-- Commands in order; "if one of them raises an error the host stops the expansion there" (R66, and for the
pseudo-commands of R67 and R68 DEDUCED, notes/assumptions/13.md). -/
def runCommands : List Instr → State → Host.Outcome State Fault Refusal
  | [], s => .next s
  | i :: is, s =>
    match exec i s with
    | .next t => if t.ERR = 0 then runCommands is t else .next t
    | .fault f => .fault f
    | .refused r => .refused r

/-- A pseudo-command run by the host (R66 to R68). -/
def runPseudo (p : Pseudo) (s : State) : Host.Outcome State Fault Refusal := runCommands p.expand s

/-- ENC spelled by primitive commands: `ARK 0 ; RNDE 1 ; ... ; RNDE 9 ; RNDEF` (R67). -/
def encByRounds : List Instr :=
  .ark 0 :: (([1, 2, 3, 4, 5, 6, 7, 8, 9].map fun i : BitVec 4 => (Pseudo.rnde i).expand).flatten ++ Pseudo.rndef.expand)

/-- DEC spelled by primitive commands: `ARK 10 ; RNDD 9 ; ... ; RNDD 1 ; RNDDF` (R67). -/
def decByRounds : List Instr :=
  .ark 10 :: (([9, 8, 7, 6, 5, 4, 3, 2, 1].map fun i : BitVec 4 => (Pseudo.rndd i).expand).flatten ++ Pseudo.rnddf.expand)

/-- TRYDEC: the host's report, `true` (ok) if `ERR = 0` and `false` (InvalidPadding) "for every other value of `ERR`", and the
machine after it.  Nothing else of the state reaches whoever asks (R68, R195). -/
def tryDec (src len scratch : BitVec 24) (s : State) : Bool × State :=
  match runPseudo (.trydec src len scratch) s with
  | .next t => (t.ERR == 0, t)
  | .fault _ => (false, s)
  | .refused _ => (false, s)

end Sys2Proof.Machine
end

