-- ==== Sys2Proof/Machine/Assembler.lean ====
section
/-! DEFINITION. The assembler syntax of spec/30_encoding.md R65, one line of text at a time (what R65 leaves open:
PRESUMED, notes/assumptions/11.md). -/

namespace Sys2Proof.Machine

/-- Why the assembler refuses a line (R65). -/
inductive AsmError where
  /-- The first word is no mnemonic of R60. -/
  | unknownMnemonic
  /-- Too many or too few operands for the command's format. -/
  | operandCount
  /-- An operand that is no number in the format's range (nor, in format M, a mode name). -/
  | operand
  deriving DecidableEq, Repr

/-- A space or a tab. -/
def isSpace (c : Char) : Bool := c == ' ' || c == '\t'

/-- "A `;` starts a comment to end of line" (R65). -/
def stripComment (l : List Char) : List Char := l.takeWhile (· != ';')

/-- Text without the spaces at its two ends. -/
def trim (l : List Char) : List Char := ((l.dropWhile isSpace).reverse.dropWhile isSpace).reverse

/-- Text cut at its commas. -/
def splitCommas : List Char → List (List Char)
  | [] => [[]]
  | c :: cs =>
    if c == ',' then [] :: splitCommas cs
    else
      match splitCommas cs with
      | [] => [[c]]
      | x :: xs => (c :: x) :: xs

/-- The value of a digit in a base of at most 16. -/
def digitValue (base : Nat) (c : Char) : Option Nat :=
  let n := c.toNat
  let v :=
    if 48 ≤ n ∧ n ≤ 57 then some (n - 48)
    else if 97 ≤ n ∧ n ≤ 102 then some (n - 87)
    else if 65 ≤ n ∧ n ≤ 70 then some (n - 55)
    else none
  v.filter (· < base)

/-- The number a run of digits spells, after `acc`. -/
def digitsValue (base : Nat) : Nat → List Char → Option Nat
  | acc, [] => some acc
  | acc, c :: cs =>
    match digitValue base c with
    | some d => digitsValue base (acc * base + d) cs
    | none => none

/-- "Numbers are decimal, or hexadecimal with the prefix `0x`" (R65). -/
def numberValue (l : List Char) : Option Nat :=
  match l with
  | [] => none
  | ['0', 'x'] => none
  | '0' :: 'x' :: ds => digitsValue 16 0 ds
  | ds => digitsValue 10 0 ds

/-- A number up to `max` (R65: "The assembler refuses an operand outside the stated range"). -/
def operandValue (max : Nat) (l : List Char) : Except AsmError Nat :=
  match numberValue l with
  | some n => if n ≤ max then .ok n else .error .operand
  | none => .error .operand

/-- Format M's operand: ECB, CBC or CTR (0, 1, 2), or a number 0 to 255 (R65). -/
def modeValue (l : List Char) : Except AsmError Nat :=
  if l = ['E', 'C', 'B'] then .ok 0
  else if l = ['C', 'B', 'C'] then .ok 1
  else if l = ['C', 'T', 'R'] then .ok 2
  else operandValue 255 l

/-- Format Z: no operand (R65). -/
def asmZ (i : Instr) (ops : List (List Char)) : Except AsmError Instr :=
  match ops with
  | [] => .ok i
  | _ :: _ => .error .operandCount

/-- Format A: one number 0 to 16777215 (R65). -/
def asmA (f : BitVec 24 → Instr) (ops : List (List Char)) : Except AsmError Instr :=
  match ops with
  | [x] => (operandValue 16777215 x).map fun n => f (BitVec.ofNat 24 n)
  | _ => .error .operandCount

/-- Format B: two numbers 0 to 255 in the order `a, b` (R65). -/
def asmB (f : Byte → Byte → Instr) (ops : List (List Char)) : Except AsmError Instr :=
  match ops with
  | [x, y] => do
    let a ← operandValue 255 x
    let b ← operandValue 255 y
    return f (BitVec.ofNat 8 a) (BitVec.ofNat 8 b)
  | _ => .error .operandCount

/-- Format X: one number 0 to 255 (R65). -/
def asmX (f : Byte → Instr) (ops : List (List Char)) : Except AsmError Instr :=
  match ops with
  | [x] => (operandValue 255 x).map fun n => f (BitVec.ofNat 8 n)
  | _ => .error .operandCount

/-- Format I: one number 0 to 10 (R65). -/
def asmI (f : BitVec 4 → Instr) (ops : List (List Char)) : Except AsmError Instr :=
  match ops with
  | [x] => (operandValue 10 x).map fun n => f (BitVec.ofNat 4 n)
  | _ => .error .operandCount

/-- Format M: a mode name or a number 0 to 255 (R65). -/
def asmM (f : Byte → Instr) (ops : List (List Char)) : Except AsmError Instr :=
  match ops with
  | [x] => (modeValue x).map fun n => f (BitVec.ofNat 8 n)
  | _ => .error .operandCount

/-- A mnemonic of R60, in upper case, with its operands.  Any other first word is refused, `.WORD` among them: program P5 of
95_test_vectors.md writes `.WORD 0x00000000` for a raw word, a directive R65 does not define (DESIGN CHOICE,
notes/assumptions/11.md). -/
def assembleCommand (m : List Char) (ops : List (List Char)) : Except AsmError Instr :=
  match m with
  | ['C', 'L', 'R', 'E'] => asmZ .clre ops
  | ['G', 'M', 'U', 'L'] => asmB .gmul ops
  | ['X', 'T', 'I', 'M', 'E'] => asmX .xtime ops
  | ['S', 'B', 'O', 'X'] => asmX .sbox ops
  | ['I', 'S', 'B', 'O', 'X'] => asmX .isbox ops
  | ['L', 'D', 'S'] => asmA .lds ops
  | ['S', 'T', 'S'] => asmA .sts ops
  | ['S', 'U', 'B', 'B'] => asmZ .subb ops
  | ['I', 'S', 'U', 'B', 'B'] => asmZ .isubb ops
  | ['S', 'H', 'R', 'O', 'W', 'S'] => asmZ .shrows ops
  | ['I', 'S', 'H', 'R', 'O', 'W', 'S'] => asmZ .ishrows ops
  | ['M', 'I', 'X', 'C'] => asmZ .mixc ops
  | ['I', 'M', 'I', 'X', 'C'] => asmZ .imixc ops
  | ['A', 'R', 'K'] => asmI .ark ops
  | ['K', 'E', 'X', 'P'] => asmZ .kexp ops
  | ['L', 'D', 'I', 'V'] => asmZ .ldiv ops
  | ['L', 'D', 'N', 'C'] => asmZ .ldnc ops
  | ['E', 'N', 'C'] => asmZ .enc ops
  | ['D', 'E', 'C'] => asmZ .dec ops
  | ['S', 'E', 'T', 'S', 'R', 'C'] => asmA .setsrc ops
  | ['S', 'E', 'T', 'L', 'E', 'N'] => asmA .setlen ops
  | ['S', 'E', 'T', 'D', 'S', 'T'] => asmA .setdst ops
  | ['P', 'A', 'D'] => asmZ .pad ops
  | ['U', 'N', 'P', 'A', 'D'] => asmZ .unpad ops
  | ['M', 'E', 'N', 'C'] => asmM .menc ops
  | ['M', 'D', 'E', 'C'] => asmM .mdec ops
  | _ => .error .unknownMnemonic

/-- The operand texts after a mnemonic: none if nothing is there. -/
def operandTexts (l : List Char) : List (List Char) :=
  match trim l with
  | [] => []
  | x :: xs => (splitCommas (x :: xs)).map trim

/-- One line of assembly: its command word, or nothing for a line that holds none (R65). -/
def assembleLine (line : List Char) : Except AsmError (Option Word) :=
  match trim (stripComment line) with
  | [] => .ok none
  | c :: cs =>
    let m := (c :: cs).takeWhile fun d => !isSpace d
    let rest := (c :: cs).dropWhile fun d => !isSpace d
    (assembleCommand m (operandTexts rest)).map fun i => some (encode i)

end Sys2Proof.Machine
end

