-- ==== Sys2Proof/Machine/Attack.lean ====
section
/-! DEFINITION. The oracle contract and the padding-oracle attack, a procedure of the host over a yes/no oracle
(spec/46_oracle_attack.md R170 to R177).  The procedure is the tree of its queries (notes/assumptions/12.md): what it asks
next depends on the answers alone, so that it can be run against any oracle, and one query at a time. -/

namespace Sys2Proof.Machine

/-! ## Oracles and procedures that ask them -/

/-- An oracle: "exactly one operation returning a binary result" (R171), `true` for ok.  `σ` is whatever it keeps between two
queries, so an oracle that "answers inconsistently" (R177) is one too. -/
abbrev Oracle (σ : Type) := σ → Bytes → Bool × σ

/-- A procedure that asks an oracle: its result, or a query and what follows on each answer. -/
inductive Proc (α : Type) where
  | done (a : α)
  | ask (query : Bytes) (next : Bool → Proc α)

/-- One procedure after another. -/
def Proc.bind {α β : Type} (f : α → Proc β) : Proc α → Proc β
  | .done a => f a
  | .ask q next => .ask q fun ok => (next ok).bind f

/-- The procedure run to its end against an oracle: "the attack runs to completion" (R171). -/
def Proc.run {α σ : Type} (o : Oracle σ) : Proc α → σ → α × σ
  | .done a, s => (a, s)
  | .ask q next, s => (next (o s q).1).run o (o s q).2

/-- The oracle that answers each query as a function does and keeps nothing: one with "no side effects beyond its yes/no
answer" (R171). -/
def answering (f : Bytes → Bool) : Oracle Unit := fun s ct => (f ct, s)

/-- The procedure's result against such an oracle. -/
def Proc.eval {α : Type} (f : Bytes → Bool) (p : Proc α) : α := (p.run (answering f) ()).1

/-- How many queries the procedure makes of such an oracle (R179). -/
def Proc.cost {α : Type} (f : Bytes → Bool) : Proc α → Nat
  | .done _ => 0
  | .ask q next => (next (f q)).cost f + 1

/-- A byte sequence that `CbcDecrypt` takes: `16(n+1)` bytes, `n >= 1` (R155). -/
def isCbcLength (n : Nat) : Bool := decide (32 ≤ n) && n % 16 == 0

/-- The oracle of a schedule: `true` (ok) if `CbcDecrypt(RK, ct)` succeeds, `false` (InvalidPadding) "otherwise", a length that
`CbcDecrypt` does not take included (R155, R171). -/
def oracleOf (rk : RoundKeys) (ct : Bytes) : Bool := isCbcLength ct.length && (CbcDecrypt rk ct).isSome

/-! ## The procedure -/

/-- The forged block at position `z`: the real bytes below `z`, the candidate at `z`, and at `x > z` the solved intermediate
bytes exclusive-ORed with the target padding length `16 - z` (R173 steps 1 to 3).  `solved` holds positions `z+1` to 15. -/
def forge (cprev : Block) (z : Nat) (v : Byte) (solved : Bytes) : Bytes :=
  (bytesOfBlock cprev).take z ++ v :: solved.map (· ^^^ BitVec.ofNat 8 (16 - z))

/-- The probe of `Confirm`: a copy with byte 14 exclusive-ORed with 0x01 (R174). -/
def probe (forged : Bytes) : Bytes := forged.set 14 (forged.getD 14 0 ^^^ 0x01)

/-- Whether a candidate is accepted: the oracle says ok and, at position 15, the confirming query does too (R173, R174). -/
def accepts (cprev : Block) (clast : Bytes) (z : Nat) (solved : Bytes) (v : Byte) : Proc Bool :=
  .ask (forge cprev z v solved ++ clast) fun ok =>
    if ok then
      if z = 15 then .ask (probe (forge cprev z v solved) ++ clast) .done else .done true
    else .done false

/-- The candidate values `0..255` in ascending order (R173). -/
def candidates : List Byte := (List.range 256).map (BitVec.ofNat 8)

/-- `intermediate[z]`: the first accepted candidate exclusive-ORed with `16 - z` (R173, R175); `none` if none is (R177). -/
def solveByte (cprev : Block) (clast : Bytes) (z : Nat) (solved : Bytes) : List Byte → Proc (Option Byte)
  | [] => .done none
  | v :: vs => (accepts cprev clast z solved v).bind fun ok =>
      if ok then .done (some (v ^^^ BitVec.ofNat 8 (16 - z))) else solveByte cprev clast z solved vs

/-- Positions `n-1` down to 0, the bytes solved so far given (R173). -/
def solveFrom (cprev : Block) (clast : Bytes) : Nat → Bytes → Proc (Option Bytes)
  | 0, solved => .done (some solved)
  | z + 1, solved => (solveByte cprev clast z solved candidates).bind fun r =>
      match r with
      | some b => solveFrom cprev clast z (b :: solved)
      | none => .done none

/-- `AttackBlock(oracle, Cprev, Clast)`: "attack byte position `z` from 15 down to 0", then exclusive OR with the real
preceding block (R173, R175). -/
def attackBlock (cprev clast : Block) : Proc (Option Block) :=
  (solveFrom cprev (bytesOfBlock clast) 16 []).bind fun r =>
    .done (r.map fun inter => xorBlock (blockOfBytes inter) cprev)

/-- The blocks of a list of pairs `(Cprev, Clast)`, the last pair attacked first (R172). -/
def attackPairs : List (Block × Block) → Proc (Option (List Block))
  | [] => .done (some [])
  | (cprev, clast) :: rest => (attackPairs rest).bind fun r =>
      match r with
      | some ps => (attackBlock cprev clast).bind fun b => .done (b.map (· :: ps))
      | none => .done none

/-- How the procedure ends (R176, R177). -/
inductive AttackResult where
  /-- The recovered plaintext (R176). -/
  | recovered (pt : Bytes)
  /-- The final RemovePadding failed (R177). -/
  | invalidPadding
  /-- No candidate was accepted at some position: "the spec's procedure stops and reports failure" (R177). -/
  | noCandidate
  deriving DecidableEq, Repr

/-- The plaintext of the recovered blocks, their padding removed (R176, R177). -/
def assemble (r : Option (List Block)) : AttackResult :=
  match r with
  | none => .noCandidate
  | some ps =>
    match RemovePadding (concatBlocks ps) with
    | some pt => .recovered pt
    | none => .invalidPadding

/-- `Attack(oracle, ct)` on `ct = B[0] ‖ ... ‖ B[n]`, `n >= 1` (R172, R176, R177). -/
def attack (ct : Bytes) : Proc AttackResult :=
  (attackPairs (List.zip (wholeBlocks ct) (wholeBlocks ct).tail)).bind fun r => .done (assemble r)

end Sys2Proof.Machine
end

