-- ==== Sys2Proof/Machine/Interleave.lean ====
section
/-! DEFINITION. The oracle built on this hardware, which carries the machine from each query to the next, and several block
attacks that take turns on one core (spec/46_oracle_attack.md R171, R178; notes/assumptions/12.md, 15.md). -/

namespace Sys2Proof.Machine

/-! ## The oracle built on this hardware -/

/-- Whether a query of `n` bytes can be put at `src`: its length is one SETLEN can name, and its bytes exist. -/
def queryFits (s : State) (src : BitVec 24) (n : Nat) : Bool := decide (n < 2 ^ 24) && inRange s src.toNat n

/-- The host puts a query at `src` (R45, R178 "write").  One that does not fit is not written, as no host can (R22, R43):
DESIGN CHOICE, notes/assumptions/15.md. -/
def putQuery (src : BitVec 24) (ct : Bytes) (s : State) : State :=
  if queryFits s src ct.length then writeBytes s src.toNat ct else s

/-- The host runs TRYDEC on the query of `n` bytes at `src` and passes on its answer (R171, R178 "TRYDEC, read `ERR`").  Of one
that does not fit it reports InvalidPadding, its one answer for every failure, and issues nothing: DESIGN CHOICE,
notes/assumptions/15.md. -/
def askQuery (src scratch : BitVec 24) (n : Nat) (s : State) : Bool × State :=
  if queryFits s src n then tryDec src (BitVec.ofNat 24 n) scratch s else (false, s)

/-- The oracle built on this hardware, the machine being what it keeps: each query starts from the machine that the one before
left (R171, R178 "the queries are commands and are serialised by the core"). -/
def machineOracle (src scratch : BitVec 24) : Oracle State := fun s ct =>
  askQuery src scratch ct.length (putQuery src ct s)

/-! ## Several procedures on one core -/

/-- A procedure under way on the core, with the buffers of its queries, and whether its query stands at `src`. -/
structure Thread (α : Type) where
  proc : Proc α
  src : BitVec 24
  scratch : BitVec 24
  placed : Bool

/-- What a thread does in one turn (R178 "write, TRYDEC, read `ERR`"). -/
inductive Turn where
  /-- Thread `j` puts its query at its `src`. -/
  | put (j : Nat)
  /-- Thread `j` runs TRYDEC on the query it has put, and goes on with the answer. -/
  | ask (j : Nat)
  deriving DecidableEq, Repr

/-- A thread puts its query; one that has ended does nothing. -/
def Thread.put {α : Type} (th : Thread α) (s : State) : Thread α × State :=
  match th.proc with
  | .done _ => (th, s)
  | .ask q _ => ({ th with placed := true }, putQuery th.src q s)

/-- A thread asks; one that has ended, or has put no query since its last answer, does nothing. -/
def Thread.ask {α : Type} (th : Thread α) (s : State) : Thread α × State :=
  match th.proc, th.placed with
  | .done _, _ => (th, s)
  | .ask _ _, false => (th, s)
  | .ask q next, true =>
    let r := askQuery th.src th.scratch q.length s
    ({ th with proc := next r.1, placed := false }, r.2)

/-- A turn of thread `j`, if there is one. -/
def onThread {α : Type} (act : Thread α → State → Thread α × State) (j : Nat) (ths : List (Thread α)) (s : State) :
    List (Thread α) × State :=
  match ths[j]? with
  | none => (ths, s)
  | some th => (ths.set j (act th s).1, (act th s).2)

/-- One turn. -/
def takeTurn {α : Type} (turn : Turn) (ths : List (Thread α)) (s : State) : List (Thread α) × State :=
  match turn with
  | .put j => onThread Thread.put j ths s
  | .ask j => onThread Thread.ask j ths s

/-- Threads that take the given turns, in order, on one core: "several block attacks may interleave their queries in any
order" (R178). -/
def takeTurns {α : Type} : List Turn → List (Thread α) → State → List (Thread α) × State
  | [], ths, s => (ths, s)
  | turn :: turns, ths, s => takeTurns turns (takeTurn turn ths s).1 (takeTurn turn ths s).2

/-- Turns that make whole queries: a thread's query "completes (write, TRYDEC, read `ERR`) before the next one starts"
(R178). -/
def wholeTurns (js : List Nat) : List Turn := (js.map fun j => [Turn.put j, Turn.ask j]).flatten

end Sys2Proof.Machine
end

