-- ==== Sys2Proof/Safety.lean ====
section
/-! DEFINITION. What claims mean by a good state and a safe run: the invariant every step keeps, host steps that name bytes
that exist, and runs that never stop (spec/10_state.md R15 to R17, R19; 60_exceptions.md R186). -/

namespace Sys2Proof.Machine

/-- The states the spec allows: `MEMSIZE` in its range (R5); MEM canonical and inside `MEMSIZE` (R22); bits 31:24 of `SRC`,
`LEN`, `DST` zero (R15); `OLEN` at most `MEMSIZE` (R16); `ERR` one of the codes 0 to 11 (R17); a failed latest command has
`ESTICKY` set (R187); and with `KV = 1` the round-key file is the expansion of its round 0 (R19). -/
abbrev State.Inv (s : State) : Prop :=
  (Config.memSizeMin ≤ s.memSize ∧ s.memSize ≤ Config.memSizeMax) ∧
  (Memory.wf s.MEM = true ∧ ∀ c ∈ s.MEM, c.1 < s.memSize) ∧
  (s.SRC.toNat < 2 ^ 24 ∧ s.LEN.toNat < 2 ^ 24 ∧ s.DST.toNat < 2 ^ 24) ∧
  s.OLEN.toNat ≤ s.memSize ∧
  s.ERR.toNat ≤ 11 ∧
  (s.ERR ≠ 0 → s.ESTICKY = true) ∧
  (s.KV = true → s.RK = KeyExpand s.RK[0])

/-- A host step names no byte outside MEM (R22: the host reads and writes any byte of it). -/
abbrev HostStep.inMem (n : Nat) : HostStep → Prop
  | .writeMem addr _ => addr < n
  | .readMem addr => addr < n
  | .writePort _ _ => True
  | .readPort _ => True
  | .reset => True

/-- A run that never stops: after every number of steps there is a next state. -/
abbrev SafeRun (s : State) : Prop := ∀ n, ∃ t, Host.Core.run Sys2Proof.core n s = .next t

end Sys2Proof.Machine
end

