-- ==== Sys2Proof/Certificates/Slice0/Obligations.lean ====
section
/-! DEFINITION. The statements for the provers, each a `def Obligations.<Name> : Prop`, and the few terms they share
(namespace Sys2Proof.Claims).  Statements quantify over every state, every `MEMSIZE` and every content of MEM. -/

namespace Sys2Proof.Claims

open Sys2Proof.Machine

/-! ## Terms of the statements -/

/-- An opcode of format Z: one word is the command, the others with that opcode have a reserved bit set (R56, R59). -/
def formatZ (op : BitVec 8) (i : Instr) : Prop :=
  ∀ x : BitVec 24, decode (word op x) = if x = 0 then .ok i else .error .reservedBits

/-- An opcode of format A: every word with it is the command, the immediate in `bits[23:0]` (R56, R59). -/
def formatA (op : BitVec 8) (f : BitVec 24 → Instr) : Prop := ∀ x : BitVec 24, decode (word op x) = .ok (f x)

/-- An opcode of format B: `bits[23:16]` zero, `a` in `bits[15:8]`, `b` in `bits[7:0]` (R56, R59). -/
def formatB (op : BitVec 8) (f : Byte → Byte → Instr) : Prop :=
  ∀ (z a b : Byte), decode (word op (z ++ a ++ b)) = if z = 0 then .ok (f a b) else .error .reservedBits

/-- An opcode of format X or M: `bits[23:8]` zero, the byte in `bits[7:0]` (R56, R59). -/
def formatX (op : BitVec 8) (f : Byte → Instr) : Prop :=
  ∀ (z : BitVec 16) (x : Byte), decode (word op (z ++ x)) = if z = 0 then .ok (f x) else .error .reservedBits

/-- An opcode of format I: `bits[23:4]` zero, the index in `bits[3:0]`, at most 10 (R56, R59). -/
def formatI (op : BitVec 8) (f : BitVec 4 → Instr) : Prop :=
  ∀ (z : BitVec 20) (i : BitVec 4), decode (word op (z ++ i)) =
    if z = 0 then (if i.toNat ≤ 10 then .ok (f i) else .error .roundIndex) else .error .reservedBits

/-- `raise` of an error code with no further write: only `ERR` and `ESTICKY` change (R187). -/
def failed (s : State) (code : Byte) : State := { s with ERR := code, ESTICKY := true }

/-- `raise` of an error code by a buffer command: `OLEN` is cleared too (R187). -/
def failedOutput (s : State) (code : Byte) : State := { s with OLEN := 0, ERR := code, ESTICKY := true }

/-- The range rule of R38: no byte at all, or all of them below `MEMSIZE`. -/
def fits (s : State) (a n : Nat) : Prop := n = 0 ∨ a + n ≤ s.memSize

/-- Every byte of MEM outside `a .. a+n-1` reads in `t` as in `s`. -/
def sameOutside (s t : State) (a n : Nat) : Prop := ∀ x, x < a ∨ a + n ≤ x → readByte t x = readByte s x

/-- The 16 bytes of MEM from `a` on. -/
def memBlock (s : State) (a : Nat) : Block := Vector.ofFn fun i : Fin 16 => readByte s (a + i.val)

/-- The product of two bytes as polynomials over GF(2), before reduction. -/
def polyProduct (a b : Byte) : BitVec 16 :=
  (List.range 8).foldl (fun acc i => if b.getLsbD i then acc ^^^ (a.setWidth 16 <<< i) else acc) 0

/-- A polynomial reduced modulo x^8+x^4+x^3+x+1, 0x11B (R5, R75). -/
def polyReduce (p : BitVec 16) : Byte :=
  (([14, 13, 12, 11, 10, 9, 8] : List Nat).foldl
    (fun q k => if q.getLsbD k then q ^^^ ((0x11B : BitVec 16) <<< (k - 8)) else q) p).setWidth 8

/-- The affine map of R80: `b_i' = b_i ^ b_(i+4) ^ b_(i+5) ^ b_(i+6) ^ b_(i+7) ^ c_i`, indices mod 8, `c` = 0x63. -/
def affine (b : Byte) : Byte :=
  b ^^^ b.rotateLeft 4 ^^^ b.rotateLeft 3 ^^^ b.rotateLeft 2 ^^^ b.rotateLeft 1 ^^^ 0x63

/-- The number a byte sequence is, big-endian (R36 "CTR counter"). -/
def bigEndian (l : Bytes) : Nat := l.foldl (fun n b => n * 256 + b.toNat) 0

/-- The 16-byte big-endian form of a number below 2^128. -/
def counterBlock (n : Nat) : Block := Vector.ofFn fun i : Fin 16 => BitVec.ofNat 8 (n / 256 ^ (15 - i.val))

/-- `ceil(n / 16)`: the keystream blocks `n` bytes need (R152). -/
def blocksFor (n : Nat) : Nat := (n + 15) / 16

/-- The padding length of a message of `n` bytes: `16 - (n mod 16)` (R134). -/
def padLength (n : Nat) : Nat := 16 - n % 16

/-- Block `j` of the padded source message of MENC (R134): source bytes as they are in `s`, then padding. -/
def paddedBlock (s : State) (j : Nat) : Block :=
  Vector.ofFn fun i : Fin 16 =>
    if 16 * j + i.val < s.LEN.toNat then readByte s (s.SRC.toNat + (16 * j + i.val))
    else BitVec.ofNat 8 (padLength s.LEN.toNat)

/-- The `n` bytes `f 0 .. f (n-1)` end in a valid padding of length `p` (R135). -/
def validPadding (f : Nat → Byte) (n p : Nat) : Prop :=
  1 ≤ p ∧ p ≤ 16 ∧ p ≤ n ∧ ∀ k, n - p ≤ k → k < n → f k = BitVec.ofNat 8 p

/-- Byte `k` of what the source buffer of `s` decrypts to in ECB (R150). -/
def ecbByte (s : State) (k : Nat) : Byte :=
  (DecryptBlock s.RK (memBlock s (s.SRC.toNat + 16 * (k / 16)))).toList.getD (k % 16) 0

/-- Byte `k` of what the source buffer of `s` decrypts to in CBC, its first block being the IV (R155). -/
def cbcByte (s : State) (k : Nat) : Byte :=
  (DecryptBlock s.RK (memBlock s (s.SRC.toNat + 16 * (k / 16 + 1)))).toList.getD (k % 16) 0
    ^^^ readByte s (s.SRC.toNat + k)

/-- Byte `k` of the keystream from a counter on: "Block `j` uses the counter value `ctr + j`" (R152). -/
def streamByte (rk : RoundKeys) (ctr k : Nat) : Byte :=
  (EncryptBlock rk (counterBlock (ctr + k / 16))).toList.getD (k % 16) 0

/-- The codes each command can leave in `ERR` beside 0 (R188). -/
def errorsOf : Instr → List Byte
  | .clre | .gmul _ _ | .xtime _ | .sbox _ | .isbox _ | .subb | .isubb | .shrows | .ishrows | .mixc | .imixc
  | .setsrc _ | .setlen _ | .setdst _ => []
  | .lds _ | .sts _ => [9]
  | .ark _ | .enc | .dec => [7]
  | .kexp => [1, 9]
  | .ldiv => [2, 9]
  | .ldnc => [3, 9]
  | .pad => [10, 9]
  | .unpad => [10, 9, 5]
  | .menc m => [6, 7, 9] ++ (if m = 1 then [2] else []) ++ (if m = 2 then [3, 11] else [])
  | .mdec m => [6, 7, 4, 9] ++ (if m = 2 then [11] else [10, 5])

/-- The buffer commands, whose failure clears `OLEN` (R187). -/
def isBuffer : Instr → Bool
  | .pad | .unpad | .menc _ | .mdec _ => true
  | _ => false

/-- The commands that write `S` (10_state.md, "Summary of all state"). -/
def writesS : Instr → Bool
  | .lds _ | .subb | .isubb | .shrows | .ishrows | .mixc | .imixc | .ark _ | .enc | .dec => true
  | _ => false

/-- The commands that write `R` (R11). -/
def writesR : Instr → Bool
  | .gmul _ _ | .xtime _ | .sbox _ | .isbox _ => true
  | _ => false

/-- The commands that load `IV` (R21). -/
def writesIV : Instr → Bool
  | .ldiv | .ldnc => true
  | _ => false

/-- Where a command that ended in `t` stored, and how many bytes: the immediate address and 16 for STS, `DST` and `OLEN`
for PAD, MENC and MDEC, nothing for the rest (R40). -/
def stored (i : Instr) (s t : State) : Nat × Nat :=
  match i with
  | .sts a => (a.toNat, 16)
  | .pad | .menc _ | .mdec _ => (s.DST.toNat, t.OLEN.toNat)
  | _ => (0, 0)

/-- Two states a host cannot tell apart: equal but for `RK` while `KV = 0` and `IV` while `IVOK = 0` (R19, R24). -/
def alike (s t : State) : Prop :=
  t = { s with RK := t.RK, IV := t.IV } ∧ (s.KV = true → t.RK = s.RK) ∧ (s.IVOK = true → t.IV = s.IV)

/-- `m` bytes from `a` and `n` bytes from `b` have no byte in common. -/
def apart (a m b n : Nat) : Prop := a + m ≤ b ∨ b + n ≤ a

/-- "each query uses its own buffers in MEM" (R178): no thread writes, with a query or a result, where another's query
stands. -/
def ownBuffers (ths : List (Thread (Option Block))) : Prop :=
  ∀ (i j : Nat) (a b : Thread (Option Block)), ths[i]? = some a → ths[j]? = some b → i ≠ j →
    apart a.src.toNat 32 b.src.toNat 32 ∧ apart a.scratch.toNat 16 b.src.toNat 32

end Sys2Proof.Claims

open Sys2Proof Sys2Proof.Machine Sys2Proof.Claims

/-! ## Encoding (30_encoding.md) -/

/-- Decoding an encoded command gives it back, for every command with every operand value its field admits. -/
def Obligations.DecodeOfEncode : Prop := ∀ i : Instr, i.wf = true → decode (encode i) = .ok i

/-- Each word has one meaning: a word that decodes is the encoding of what it decodes to, which is well-formed. -/
def Obligations.EncodeOfDecode : Prop := ∀ (w : Word) (i : Instr), decode w = .ok i → encode i = w ∧ i.wf = true

/-- R59: the decoder and the table's masks say the same, and at most one row matches a word. -/
def Obligations.DecodeAgreesWithTable : Prop :=
  (∀ row ∈ opTable, ∀ w : Word,
    (∃ i, decode w = .ok i ∧ i.mnemonic = row.mnemonic) ↔
      (w &&& row.mask = row.bits ∧ (row.mnemonic = "ARK" → (w.extractLsb' 0 4).toNat ≤ 10))) ∧
  ∀ w : Word, ∀ r₁ ∈ opTable, ∀ r₂ ∈ opTable,
    w &&& r₁.mask = r₁.bits → w &&& r₂.mask = r₂.bits → r₁ = r₂

/-- R61: an illegal word, of whichever of the three classes, executes as IllegalCommand: only `ERR` and `ESTICKY` change. -/
def Obligations.IllegalWordOnlyReports : Prop :=
  (∀ (s : State) (w : Word) (rest : List HostStep), s.pending = .writePort 0 w :: rest →
    (∀ i, decode w ≠ .ok i) → step s = .next { s with pending := rest, ERR := 8, ESTICKY := true }) ∧
  (∀ w : Word, (∀ row ∈ opTable, opcodeOf w ≠ opcodeOf row.bits) → decode w = .error .reservedOpcode) ∧
  (∀ w : Word, (∃ row ∈ opTable, opcodeOf w = opcodeOf row.bits ∧ w &&& row.mask ≠ row.bits) →
    decode w = .error .reservedBits) ∧
  (∀ i : BitVec 4, 10 < i.toNat → decode (0x3600000#28 ++ i) = .error .roundIndex) ∧
  (((List.range 256).filter fun op => opTable.all fun row => opcodeOf row.bits != BitVec.ofNat 8 op).length = 230)

/-- Words written out from the spec's encodings and examples decode to the commands they stand for. -/
def Obligations.WrittenWordsDecode : Prop :=
  decode 0x01000000 = .ok .clre ∧ decode 0x10005783 = .ok (.gmul 0x57 0x83) ∧
  decode 0x20000040 = .ok (.lds 0x40) ∧ decode 0x32000000 = .ok .shrows ∧ decode 0x3600000A = .ok (.ark 10) ∧
  decode 0x42000000 = .ok .ldnc ∧ decode 0x51000000 = .ok .dec ∧ decode 0x6100001E = .ok (.setlen 30) ∧
  decode 0x71000000 = .ok .unpad ∧ decode 0x810000FF = .ok (.mdec 255)

/-- When the word the host writes to port 0 next decodes to a command, the step is that command's execution on the state
with that host step taken off; a table word placed with `withFetchWord` is that next step. -/
def Obligations.StepRunsDecoded : Prop :=
  (∀ (s : State) (w : Word) (i : Instr) (rest : List HostStep), s.pending = .writePort 0 w :: rest →
    decode w = .ok i → step s = exec i { s with pending := rest }) ∧
  (∀ (s : State) (i : Instr), i.wf = true → step (s.withFetchWord 32 (encode i).toNat) = exec i s)

/-- The assembler (R65, notes/assumptions/11.md) only makes words of commands: a line's word decodes, and to a command whose
word it is. -/
def Obligations.AssembledLineDecodes : Prop :=
  ∀ (line : List Char) (w : Word), assembleLine line = .ok (some w) → ∃ i, decode w = .ok i ∧ encode i = w

/-! ## GF(2^8) and the S-box (40_gf_sbox.md) -/

/-- R81 with R76: GMUL leaves in `R` the `gmul` of its bytes, which is their product as polynomials modulo 0x11B, and changes
nothing else. -/
def Obligations.GmulIsPolynomialProduct : Prop :=
  formatB 0x10 .gmul ∧
  ∀ (a b : Byte) (s : State), exec (.gmul a b) s = .next { s with R := gmul a b, ERR := 0 } ∧
    gmul a b = polyReduce (polyProduct a b)

/-- R82 with R75: XTIME leaves in `R` the byte doubled modulo 256, reduced by 0x1B if bit 7 was set. -/
def Obligations.XtimeDoubles : Prop :=
  formatX 0x11 .xtime ∧
  ∀ (x : Byte) (s : State), exec (.xtime x) s =
    .next { s with R := BitVec.ofNat 8 (2 * x.toNat) ^^^ (if 128 ≤ x.toNat then 0x1B else 0), ERR := 0 }

/-- R77: the laws of `gmul`. -/
def Obligations.GmulFieldLaws : Prop :=
  (∀ a, gmul a 0 = 0 ∧ gmul 0 a = 0 ∧ gmul a 1 = a ∧ gmul 1 a = a ∧ gmul a 2 = xtime a ∧ gmul a 3 = xtime a ^^^ a) ∧
  (∀ a b, gmul a b = gmul b a) ∧
  (∀ a b c, gmul a (b ^^^ c) = gmul a b ^^^ gmul a c) ∧
  (∀ a b c, gmul (gmul a b) c = gmul a (gmul b c)) ∧
  (∀ a : Byte, a ≠ 0 → ∃! y, gmul a y = 1) ∧
  (rc 1 = 0x01 ∧ ∀ i, 1 ≤ i → i < 10 → rc (i + 1) = xtime (rc i))

/-- R83, R84 with R80: SBOX and ISBOX leave in `R` the table's byte and change nothing else; each undoes the other, and the
S-box has no fixed point and no opposite fixed point. -/
def Obligations.SboxAndIsboxCommands : Prop :=
  formatX 0x12 .sbox ∧ formatX 0x13 .isbox ∧
  ∀ (x : Byte) (s : State),
    exec (.sbox x) s = .next { s with R := sBox x, ERR := 0 } ∧
    exec (.isbox x) s = .next { s with R := invSBox x, ERR := 0 } ∧
    exec (.isbox (sBox x)) s = .next { s with R := x, ERR := 0 } ∧
    exec (.sbox (invSBox x)) s = .next { s with R := x, ERR := 0 } ∧
    sBox x ≠ x ∧ sBox x ≠ x ^^^ 0xFF

/-- The S-box of R78 is the affine map of R80 on the multiplicative inverse, 0 mapped as 0 (a definition that R80 takes from
general knowledge). -/
def Obligations.SboxIsAffineInverse : Prop :=
  ∀ x y : Byte, (gmul x y = 1 ∨ (x = 0 ∧ y = 0)) → sBox x = affine y

/-! ## State transforms (41_state_transforms.md) -/

/-- R101, R102: SUBB and ISUBB replace each byte of `S` in place and change nothing else. -/
def Obligations.SubBytesCommands : Prop :=
  formatZ 0x30 .subb ∧ formatZ 0x31 .isubb ∧
  ∀ s : State,
    (∃ b : Block, exec .subb s = .next { s with S := b, ERR := 0 } ∧ ∀ i : Fin 16, b[i] = sBox s.S[i]) ∧
    (∃ b : Block, exec .isubb s = .next { s with S := b, ERR := 0 } ∧ ∀ i : Fin 16, b[i] = invSBox s.S[i])

/-- R103, R104: SHROWS and ISHROWS move the bytes of `S` by the flat index tables of R92 and R93. -/
def Obligations.ShiftRowsCommands : Prop :=
  formatZ 0x32 .shrows ∧ formatZ 0x33 .ishrows ∧
  ∀ s : State,
    (∃ b : Block, exec .shrows s = .next { s with S := b, ERR := 0 } ∧
      b.toList = ([0, 5, 10, 15, 4, 9, 14, 3, 8, 13, 2, 7, 12, 1, 6, 11] : List (Fin 16)).map fun i => s.S[i]) ∧
    (∃ b : Block, exec .ishrows s = .next { s with S := b, ERR := 0 } ∧
      b.toList = ([0, 13, 10, 7, 4, 1, 14, 11, 8, 5, 2, 15, 12, 9, 6, 3] : List (Fin 16)).map fun i => s.S[i])

/-- R105 with R94: MIXC, column by column, with `2*a = xtime(a)` and `3*a = xtime(a) ^ a`. -/
def Obligations.MixColumnsCommand : Prop :=
  formatZ 0x34 .mixc ∧
  ∀ s : State, ∃ b : Block, exec .mixc s = .next { s with S := b, ERR := 0 } ∧
    ∀ c : Fin 4,
      b[4 * c.val] = xtime s.S[4 * c.val] ^^^ (xtime s.S[4 * c.val + 1] ^^^ s.S[4 * c.val + 1])
        ^^^ s.S[4 * c.val + 2] ^^^ s.S[4 * c.val + 3] ∧
      b[4 * c.val + 1] = s.S[4 * c.val] ^^^ xtime s.S[4 * c.val + 1]
        ^^^ (xtime s.S[4 * c.val + 2] ^^^ s.S[4 * c.val + 2]) ^^^ s.S[4 * c.val + 3] ∧
      b[4 * c.val + 2] = s.S[4 * c.val] ^^^ s.S[4 * c.val + 1] ^^^ xtime s.S[4 * c.val + 2]
        ^^^ (xtime s.S[4 * c.val + 3] ^^^ s.S[4 * c.val + 3]) ∧
      b[4 * c.val + 3] = (xtime s.S[4 * c.val] ^^^ s.S[4 * c.val]) ^^^ s.S[4 * c.val + 1]
        ^^^ s.S[4 * c.val + 2] ^^^ xtime s.S[4 * c.val + 3]

/-- R106 with R95: IMIXC, column by column, with the constants 14, 11, 13, 9. -/
def Obligations.InvMixColumnsCommand : Prop :=
  formatZ 0x35 .imixc ∧
  ∀ s : State, ∃ b : Block, exec .imixc s = .next { s with S := b, ERR := 0 } ∧
    ∀ c : Fin 4,
      b[4 * c.val] = gmul 14 s.S[4 * c.val] ^^^ gmul 11 s.S[4 * c.val + 1]
        ^^^ gmul 13 s.S[4 * c.val + 2] ^^^ gmul 9 s.S[4 * c.val + 3] ∧
      b[4 * c.val + 1] = gmul 9 s.S[4 * c.val] ^^^ gmul 14 s.S[4 * c.val + 1]
        ^^^ gmul 11 s.S[4 * c.val + 2] ^^^ gmul 13 s.S[4 * c.val + 3] ∧
      b[4 * c.val + 2] = gmul 13 s.S[4 * c.val] ^^^ gmul 9 s.S[4 * c.val + 1]
        ^^^ gmul 14 s.S[4 * c.val + 2] ^^^ gmul 11 s.S[4 * c.val + 3] ∧
      b[4 * c.val + 3] = gmul 11 s.S[4 * c.val] ^^^ gmul 13 s.S[4 * c.val + 1]
        ^^^ gmul 9 s.S[4 * c.val + 2] ^^^ gmul 14 s.S[4 * c.val + 3]

/-- R97: every transform command undoes its inverse in both orders, ARK undoes itself, and SHROWS and SUBB commute. -/
def Obligations.TransformsInvertible : Prop :=
  (∀ p ∈ [(Instr.subb, Instr.isubb), (.isubb, .subb), (.shrows, .ishrows), (.ishrows, .shrows), (.mixc, .imixc),
      (.imixc, .mixc)], ∀ s : State, ∃ t, exec p.1 s = .next t ∧ exec p.2 t = .next { s with ERR := 0 }) ∧
  (∀ (i : BitVec 4) (s : State), i.toNat ≤ 10 → s.KV = true →
    ∃ t, exec (.ark i) s = .next t ∧ exec (.ark i) t = .next { s with ERR := 0 }) ∧
  (∀ b : Block, ShiftRows (SubBytes b) = SubBytes (ShiftRows b)
    ∧ InvShiftRows (InvSubBytes b) = InvSubBytes (InvShiftRows b))

/-- R98: ARK exclusive-ORs round key `i` into `S`, for an index of 0 to 10 and a loaded key; without a key it raises
NoKey and leaves `S`. -/
def Obligations.ArkCommand : Prop :=
  formatI 0x36 .ark ∧
  ∀ (i : Fin 11) (s : State),
    (s.KV = true → ∃ b : Block, exec (.ark (BitVec.ofNat 4 i.val)) s = .next { s with S := b, ERR := 0 } ∧
      ∀ k : Fin 16, b[k] = s.S[k] ^^^ (s.RK[i])[k]) ∧
    (s.KV = false → exec (.ark (BitVec.ofNat 4 i.val)) s = .next (failed s 7))

/-- R99: LDS loads the 16 bytes at its address into `S`, at any address whose 16 bytes exist; else MemRange. -/
def Obligations.LdsCommand : Prop :=
  formatA 0x20 .lds ∧
  ∀ (a : BitVec 24) (s : State),
    (a.toNat + 16 ≤ s.memSize → ∃ b : Block, exec (.lds a) s = .next { s with S := b, ERR := 0 } ∧
      ∀ k : Fin 16, b[k] = readByte s (a.toNat + k.val)) ∧
    (s.memSize < a.toNat + 16 → exec (.lds a) s = .next (failed s 9))

/-- R100: STS stores `S` at its address and changes no other byte of MEM; where its 16 bytes do not all exist it raises
MemRange and stores nothing. -/
def Obligations.StsCommand : Prop :=
  formatA 0x21 .sts ∧
  ∀ (a : BitVec 24) (s : State),
    (a.toNat + 16 ≤ s.memSize → ∃ m, exec (.sts a) s = .next { s with MEM := m, ERR := 0 } ∧
      (∀ k : Fin 16, readByte { s with MEM := m } (a.toNat + k.val) = s.S[k]) ∧
      sameOutside s { s with MEM := m } a.toNat 16) ∧
    (s.memSize < a.toNat + 16 → exec (.sts a) s = .next (failed s 9))

/-! ## Key expansion (42_key_schedule.md) -/

/-- R112 with R111: KEXP with `LEN = 16` and its key in MEM loads `RK` with the key and its ten successors, byte by byte as
R111 computes them, and sets `KV`.  Another length raises UnsupportedKeySize, then a key not in MEM raises MemRange; both
leave no key. -/
def Obligations.KexpCommand : Prop :=
  formatZ 0x40 .kexp ∧
  ∀ s : State,
    (s.LEN = 16 → s.SRC.toNat + 16 ≤ s.memSize →
      ∃ rk : RoundKeys, exec .kexp s = .next { s with RK := rk, KV := true, ERR := 0 } ∧
        (∀ k : Fin 16, (rk[0])[k] = readByte s (s.SRC.toNat + k.val)) ∧
        ∀ (i : Fin 10) (k : Fin 4),
          (rk[i.val + 1])[k.val] = (rk[i.val])[k.val] ^^^ sBox ((rk[i.val])[12 + (k.val + 1) % 4])
            ^^^ (if k = 0 then ([0x01, 0x02, 0x04, 0x08, 0x10, 0x20, 0x40, 0x80, 0x1B, 0x36] : List Byte)[i] else 0) ∧
          (rk[i.val + 1])[4 + k.val] = (rk[i.val + 1])[k.val] ^^^ (rk[i.val])[4 + k.val] ∧
          (rk[i.val + 1])[8 + k.val] = (rk[i.val + 1])[4 + k.val] ^^^ (rk[i.val])[8 + k.val] ∧
          (rk[i.val + 1])[12 + k.val] = (rk[i.val + 1])[8 + k.val] ^^^ (rk[i.val])[12 + k.val]) ∧
    (s.LEN ≠ 16 → exec .kexp s = .next { s with KV := false, ERR := 1, ESTICKY := true }) ∧
    (s.LEN = 16 → s.memSize < s.SRC.toNat + 16 →
      exec .kexp s = .next { s with KV := false, ERR := 9, ESTICKY := true })

/-- R20: `RK` and `KV` change only by KEXP (or a reset): no other step of the machine writes either. -/
def Obligations.ScheduleImmutable : Prop :=
  (∀ (i : Instr) (s t : State), i ≠ .kexp → exec i s = .next t → t.RK = s.RK ∧ t.KV = s.KV) ∧
  ∀ (s t : State) (h : HostStep) (rest : List HostStep), s.pending = h :: rest → h ≠ .reset →
    (∀ w, h = .writePort 0 w → decode w ≠ .ok .kexp) → step s = .next t → t.RK = s.RK ∧ t.KV = s.KV

/-! ## Block engine (43_block_engine.md) -/

/-- R124 at the machine: with a key loaded, ENC then DEC and DEC then ENC restore `S`, for every `S` and every `RK`, and
each changes only `S` and `ERR`. -/
def Obligations.EncAndDecInvert : Prop :=
  ∀ s : State, s.KV = true →
    (∃ b : Block, exec .enc s = .next { s with S := b, ERR := 0 } ∧
      exec .dec { s with S := b, ERR := 0 } = .next { s with ERR := 0 }) ∧
    (∃ b : Block, exec .dec s = .next { s with S := b, ERR := 0 } ∧
      exec .enc { s with S := b, ERR := 0 } = .next { s with ERR := 0 })

/-- R122, R123: ENC and DEC replace `S` by its encryption and decryption, which is what the primitive commands leave one
transform at a time (R67), and change nothing else; without a key they raise NoKey and leave `S`. -/
def Obligations.EncAndDecCommands : Prop :=
  formatZ 0x50 .enc ∧ formatZ 0x51 .dec ∧
  ∀ s : State,
    (s.KV = true →
      exec .enc s = .next { s with S := EncryptBlock s.RK s.S, ERR := 0 } ∧
      runCommands encByRounds s = .next { s with S := EncryptBlock s.RK s.S, ERR := 0 } ∧
      exec .dec s = .next { s with S := DecryptBlock s.RK s.S, ERR := 0 } ∧
      runCommands decByRounds s = .next { s with S := DecryptBlock s.RK s.S, ERR := 0 }) ∧
    (s.KV = false → exec .enc s = .next (failed s 7) ∧ exec .dec s = .next (failed s 7))

/-! ## Descriptor and padding (44_padding.md) -/

/-- R130, R131, R132: SETSRC, SETLEN, SETDST store the zero-extended immediate, whatever its value, and nothing else. -/
def Obligations.DescriptorCommands : Prop :=
  formatA 0x60 .setsrc ∧ formatA 0x61 .setlen ∧ formatA 0x62 .setdst ∧
  ∀ (x : BitVec 24) (s : State),
    exec (.setsrc x) s = .next { s with SRC := (0 : BitVec 8) ++ x, ERR := 0 } ∧
    exec (.setlen x) s = .next { s with LEN := (0 : BitVec 8) ++ x, ERR := 0 } ∧
    exec (.setdst x) s = .next { s with DST := (0 : BitVec 8) ++ x, ERR := 0 }

/-- R136 with R133: PAD of 0 to 16 bytes writes them at `DST` followed by padding bytes, 16 bytes in all, 32 for a full
block; every padding byte is the number of padding bytes; no other byte of MEM changes.  Its errors, in order: BadLength,
MemRange for the source, MemRange for the destination. -/
def Obligations.PadCommand : Prop :=
  formatZ 0x70 .pad ∧
  ∀ s : State,
    (∀ n : Nat, s.LEN.toNat ≤ 16 → fits s s.SRC.toNat s.LEN.toNat →
      n = (if s.LEN.toNat = 16 then 32 else 16) → s.DST.toNat + n ≤ s.memSize →
      ∃ m, exec .pad s = .next { s with MEM := m, OLEN := BitVec.ofNat 32 n, ERR := 0 } ∧
        (∀ k < s.LEN.toNat, readByte { s with MEM := m } (s.DST.toNat + k) = readByte s (s.SRC.toNat + k)) ∧
        (∀ k, s.LEN.toNat ≤ k → k < n →
          readByte { s with MEM := m } (s.DST.toNat + k) = BitVec.ofNat 8 (n - s.LEN.toNat)) ∧
        sameOutside s { s with MEM := m } s.DST.toNat n) ∧
    (16 < s.LEN.toNat → exec .pad s = .next (failedOutput s 10)) ∧
    (s.LEN.toNat ≤ 16 → ¬ fits s s.SRC.toNat s.LEN.toNat → exec .pad s = .next (failedOutput s 9)) ∧
    (s.LEN.toNat ≤ 16 → fits s s.SRC.toNat s.LEN.toNat →
      s.memSize < s.DST.toNat + (if s.LEN.toNat = 16 then 32 else 16) → exec .pad s = .next (failedOutput s 9))

/-- R137 with R135: UNPAD leaves `LEN - p` in `OLEN` exactly when the last `p` bytes are all `p`, 1 to 16 and not more than
there are; else InvalidPadding; BadLength for no bytes, then MemRange.  It writes no memory. -/
def Obligations.UnpadCommand : Prop :=
  formatZ 0x71 .unpad ∧
  ∀ s : State,
    (s.LEN.toNat = 0 → exec .unpad s = .next (failedOutput s 10)) ∧
    (0 < s.LEN.toNat → s.memSize < s.SRC.toNat + s.LEN.toNat → exec .unpad s = .next (failedOutput s 9)) ∧
    (0 < s.LEN.toNat → s.SRC.toNat + s.LEN.toNat ≤ s.memSize →
      (∀ p, validPadding (fun k => readByte s (s.SRC.toNat + k)) s.LEN.toNat p →
        exec .unpad s = .next { s with OLEN := BitVec.ofNat 32 (s.LEN.toNat - p), ERR := 0 }) ∧
      ((∀ p, ¬ validPadding (fun k => readByte s (s.SRC.toNat + k)) s.LEN.toNat p) →
        exec .unpad s = .next (failedOutput s 5)))

/-- R138 with R134: padding then unpadding gives the bytes back, and padding a message pads its last block, whichever way a
block-aligned message is read; a buffer that was never padded may validate: one that ends in 0x01 does. -/
def Obligations.PaddingLaws : Prop :=
  (∀ last : Bytes, last.length ≤ 16 → RemovePadding (AddPadding last) = some last) ∧
  (∀ pt : Bytes, RemovePadding (PadMessage pt) = some pt) ∧
  (∀ init last : Bytes, init.length % 16 = 0 → last.length ≤ 16 →
    PadMessage (init ++ last) = init ++ AddPadding last) ∧
  (∀ buf : Bytes, RemovePadding (buf ++ [0x01]) = some buf)

/-! ## Modes (45_modes.md) -/

/-- R147, R148: LDIV and LDNC load `IV` from the 16 bytes at `SRC` and set `IVOK`; a wrong length raises each one's own
error, then MemRange; both errors clear `IVOK`. -/
def Obligations.IvCommands : Prop :=
  formatZ 0x41 .ldiv ∧ formatZ 0x42 .ldnc ∧
  ∀ (s : State) (i : Instr) (e : Byte), (i = .ldiv ∧ e = 2) ∨ (i = .ldnc ∧ e = 3) →
    (s.LEN = 16 → s.SRC.toNat + 16 ≤ s.memSize →
      exec i s = .next { s with IV := memBlock s s.SRC.toNat, IVOK := true, ERR := 0 }) ∧
    (s.LEN ≠ 16 → exec i s = .next { s with IVOK := false, ERR := e, ESTICKY := true }) ∧
    (s.LEN = 16 → s.memSize < s.SRC.toNat + 16 →
      exec i s = .next { s with IVOK := false, ERR := 9, ESTICKY := true })

/-- R146: CtrInc adds one to the big-endian number; only sixteen 0xFF give 17 bytes, 0x01 and sixteen 0x00. -/
def Obligations.CtrIncAddsOne : Prop :=
  ∀ c : Bytes, c.length = 16 →
    bigEndian (CtrInc c) = bigEndian c + 1 ∧
    (c ≠ List.replicate 16 0xFF → (CtrInc c).length = 16) ∧
    (c = List.replicate 16 0xFF → CtrInc c = 0x01 :: List.replicate 16 0x00)

/-- R156 with R149: MENC ECB with a key and both ranges in MEM completes: each block at `DST` is the encryption of the
block of the padded message; `OLEN` is `L + p`; no other byte of MEM changes. -/
def Obligations.MencEcbCompletes : Prop :=
  formatX 0x80 .menc ∧
  ∀ s : State, s.KV = true → fits s s.SRC.toNat s.LEN.toNat →
    s.DST.toNat + (s.LEN.toNat + padLength s.LEN.toNat) ≤ s.memSize →
    ∃ m, exec (.menc 0) s = .next
        { s with MEM := m, OLEN := BitVec.ofNat 32 (s.LEN.toNat + padLength s.LEN.toNat), ERR := 0 } ∧
      (∀ j < s.LEN.toNat / 16 + 1,
        memBlock { s with MEM := m } (s.DST.toNat + 16 * j) = EncryptBlock s.RK (paddedBlock s j)) ∧
      sameOutside s { s with MEM := m } s.DST.toNat (s.LEN.toNat + padLength s.LEN.toNat)

/-- R156 with R151: MENC CBC with a key, an IV and both ranges in MEM completes: the IV at `DST`, then each block the
encryption of the padded message's block exclusive-ORed with the block before it; `OLEN` is `16 + L + p`. -/
def Obligations.MencCbcCompletes : Prop :=
  ∀ s : State, s.KV = true → s.IVOK = true → fits s s.SRC.toNat s.LEN.toNat →
    s.DST.toNat + (16 + s.LEN.toNat + padLength s.LEN.toNat) ≤ s.memSize →
    ∃ m, exec (.menc 1) s = .next
        { s with MEM := m, OLEN := BitVec.ofNat 32 (16 + s.LEN.toNat + padLength s.LEN.toNat), ERR := 0 } ∧
      memBlock { s with MEM := m } s.DST.toNat = s.IV ∧
      (∀ j < s.LEN.toNat / 16 + 1,
        memBlock { s with MEM := m } (s.DST.toNat + 16 * (j + 1)) =
          EncryptBlock s.RK (xorBlock (paddedBlock s j) (memBlock { s with MEM := m } (s.DST.toNat + 16 * j)))) ∧
      sameOutside s { s with MEM := m } s.DST.toNat (16 + s.LEN.toNat + padLength s.LEN.toNat)

/-- R156 with R152, R153: MENC CTR with a key, a nonce and both ranges in MEM completes when the counter does not pass
2^128 before the last block: the nonce at `DST`, then the message exclusive-ORed with the keystream of the counters
`nonce + j`; `OLEN` is `16 + L`. -/
def Obligations.MencCtrCompletes : Prop :=
  ∀ s : State, s.KV = true → s.IVOK = true → fits s s.SRC.toNat s.LEN.toNat →
    bigEndian (bytesOfBlock s.IV) + blocksFor s.LEN.toNat ≤ 2 ^ 128 →
    s.DST.toNat + (16 + s.LEN.toNat) ≤ s.memSize →
    ∃ m, exec (.menc 2) s = .next { s with MEM := m, OLEN := BitVec.ofNat 32 (16 + s.LEN.toNat), ERR := 0 } ∧
      memBlock { s with MEM := m } s.DST.toNat = s.IV ∧
      (∀ k < s.LEN.toNat, readByte { s with MEM := m } (s.DST.toNat + 16 + k) =
        readByte s (s.SRC.toNat + k) ^^^ streamByte s.RK (bigEndian (bytesOfBlock s.IV)) k) ∧
      sameOutside s { s with MEM := m } s.DST.toNat (16 + s.LEN.toNat)

/-- R156, R189: MENC's errors in their order, each clearing `OLEN` and writing no memory. -/
def Obligations.MencErrors : Prop :=
  ∀ s : State,
    (∀ m : Byte, 2 < m.toNat → exec (.menc m) s = .next (failedOutput s 6)) ∧
    (∀ m : Byte, m.toNat ≤ 2 → s.KV = false → exec (.menc m) s = .next (failedOutput s 7)) ∧
    (s.KV = true → s.IVOK = false →
      exec (.menc 1) s = .next (failedOutput s 2) ∧ exec (.menc 2) s = .next (failedOutput s 3)) ∧
    (∀ m : Byte, m.toNat ≤ 2 → s.KV = true → (m = 0 ∨ s.IVOK = true) → ¬ fits s s.SRC.toNat s.LEN.toNat →
      exec (.menc m) s = .next (failedOutput s 9)) ∧
    (s.KV = true → s.IVOK = true → fits s s.SRC.toNat s.LEN.toNat →
      2 ^ 128 < bigEndian (bytesOfBlock s.IV) + blocksFor s.LEN.toNat →
      exec (.menc 2) s = .next (failedOutput s 11)) ∧
    (s.KV = true → fits s s.SRC.toNat s.LEN.toNat →
      s.memSize < s.DST.toNat + (s.LEN.toNat + padLength s.LEN.toNat) →
      exec (.menc 0) s = .next (failedOutput s 9)) ∧
    (s.KV = true → s.IVOK = true → fits s s.SRC.toNat s.LEN.toNat →
      s.memSize < s.DST.toNat + (16 + s.LEN.toNat + padLength s.LEN.toNat) →
      exec (.menc 1) s = .next (failedOutput s 9)) ∧
    (s.KV = true → s.IVOK = true → fits s s.SRC.toNat s.LEN.toNat →
      bigEndian (bytesOfBlock s.IV) + blocksFor s.LEN.toNat ≤ 2 ^ 128 →
      s.memSize < s.DST.toNat + (16 + s.LEN.toNat) → exec (.menc 2) s = .next (failedOutput s 9))

/-- R157 with R150: MDEC ECB of whole blocks whose decryption ends in a valid padding `p`, with a key and room for the
result, completes: the `L - p` decrypted bytes at `DST`; `OLEN` is `L - p`; no other byte of MEM changes. -/
def Obligations.MdecEcbCompletes : Prop :=
  formatX 0x81 .mdec ∧
  ∀ (s : State) (p : Nat), s.KV = true → 0 < s.LEN.toNat → s.LEN.toNat % 16 = 0 →
    s.SRC.toNat + s.LEN.toNat ≤ s.memSize → validPadding (ecbByte s) s.LEN.toNat p →
    fits s s.DST.toNat (s.LEN.toNat - p) →
    ∃ m, exec (.mdec 0) s = .next { s with MEM := m, OLEN := BitVec.ofNat 32 (s.LEN.toNat - p), ERR := 0 } ∧
      (∀ k < s.LEN.toNat - p, readByte { s with MEM := m } (s.DST.toNat + k) = ecbByte s k) ∧
      sameOutside s { s with MEM := m } s.DST.toNat (s.LEN.toNat - p)

/-- R157 with R155: MDEC CBC, the IV being the first 16 bytes of the ciphertext, likewise; `OLEN` is `L - 16 - p`. -/
def Obligations.MdecCbcCompletes : Prop :=
  ∀ (s : State) (p : Nat), s.KV = true → 32 ≤ s.LEN.toNat → s.LEN.toNat % 16 = 0 →
    s.SRC.toNat + s.LEN.toNat ≤ s.memSize → validPadding (cbcByte s) (s.LEN.toNat - 16) p →
    fits s s.DST.toNat (s.LEN.toNat - 16 - p) →
    ∃ m, exec (.mdec 1) s = .next { s with MEM := m, OLEN := BitVec.ofNat 32 (s.LEN.toNat - 16 - p), ERR := 0 } ∧
      (∀ k < s.LEN.toNat - 16 - p, readByte { s with MEM := m } (s.DST.toNat + k) = cbcByte s k) ∧
      sameOutside s { s with MEM := m } s.DST.toNat (s.LEN.toNat - 16 - p)

/-- R157 with R154: MDEC CTR of more than 16 bytes, the counter being the first 16, completes when the counter does not
pass 2^128 before the last block; `OLEN` is `L - 16`. -/
def Obligations.MdecCtrCompletes : Prop :=
  ∀ s : State, s.KV = true → 16 < s.LEN.toNat → s.SRC.toNat + s.LEN.toNat ≤ s.memSize →
    bigEndian (bytesOfBlock (memBlock s s.SRC.toNat)) + blocksFor (s.LEN.toNat - 16) ≤ 2 ^ 128 →
    s.DST.toNat + (s.LEN.toNat - 16) ≤ s.memSize →
    ∃ m, exec (.mdec 2) s = .next { s with MEM := m, OLEN := BitVec.ofNat 32 (s.LEN.toNat - 16), ERR := 0 } ∧
      (∀ k < s.LEN.toNat - 16, readByte { s with MEM := m } (s.DST.toNat + k) =
        readByte s (s.SRC.toNat + 16 + k)
          ^^^ streamByte s.RK (bigEndian (bytesOfBlock (memBlock s s.SRC.toNat))) k) ∧
      sameOutside s { s with MEM := m } s.DST.toNat (s.LEN.toNat - 16)

/-- R157, R189: MDEC's errors in their order, each clearing `OLEN` and writing no memory. -/
def Obligations.MdecErrors : Prop :=
  ∀ s : State,
    (∀ m : Byte, 2 < m.toNat → exec (.mdec m) s = .next (failedOutput s 6)) ∧
    (∀ m : Byte, m.toNat ≤ 2 → s.KV = false → exec (.mdec m) s = .next (failedOutput s 7)) ∧
    (s.KV = true → s.LEN.toNat = 0 → exec (.mdec 0) s = .next (failedOutput s 4)) ∧
    (s.KV = true → s.LEN.toNat < 32 → exec (.mdec 1) s = .next (failedOutput s 4)) ∧
    (s.KV = true → s.LEN.toNat ≤ 16 → exec (.mdec 2) s = .next (failedOutput s 4)) ∧
    (s.KV = true → s.LEN.toNat % 16 ≠ 0 → exec (.mdec 0) s = .next (failedOutput s 10)) ∧
    (s.KV = true → 32 ≤ s.LEN.toNat → s.LEN.toNat % 16 ≠ 0 → exec (.mdec 1) s = .next (failedOutput s 10)) ∧
    (s.KV = true → s.memSize < s.SRC.toNat + s.LEN.toNat →
      (0 < s.LEN.toNat → s.LEN.toNat % 16 = 0 → exec (.mdec 0) s = .next (failedOutput s 9)) ∧
      (32 ≤ s.LEN.toNat → s.LEN.toNat % 16 = 0 → exec (.mdec 1) s = .next (failedOutput s 9)) ∧
      (16 < s.LEN.toNat → exec (.mdec 2) s = .next (failedOutput s 9))) ∧
    (s.KV = true → s.SRC.toNat + s.LEN.toNat ≤ s.memSize →
      (0 < s.LEN.toNat → s.LEN.toNat % 16 = 0 → (∀ p, ¬ validPadding (ecbByte s) s.LEN.toNat p) →
        exec (.mdec 0) s = .next (failedOutput s 5)) ∧
      (32 ≤ s.LEN.toNat → s.LEN.toNat % 16 = 0 → (∀ p, ¬ validPadding (cbcByte s) (s.LEN.toNat - 16) p) →
        exec (.mdec 1) s = .next (failedOutput s 5)) ∧
      (16 < s.LEN.toNat →
        2 ^ 128 < bigEndian (bytesOfBlock (memBlock s s.SRC.toNat)) + blocksFor (s.LEN.toNat - 16) →
        exec (.mdec 2) s = .next (failedOutput s 11))) ∧
    (s.KV = true → s.SRC.toNat + s.LEN.toNat ≤ s.memSize →
      (∀ p, 0 < s.LEN.toNat → s.LEN.toNat % 16 = 0 → validPadding (ecbByte s) s.LEN.toNat p →
        ¬ fits s s.DST.toNat (s.LEN.toNat - p) → exec (.mdec 0) s = .next (failedOutput s 9)) ∧
      (∀ p, 32 ≤ s.LEN.toNat → s.LEN.toNat % 16 = 0 → validPadding (cbcByte s) (s.LEN.toNat - 16) p →
        ¬ fits s s.DST.toNat (s.LEN.toNat - 16 - p) → exec (.mdec 1) s = .next (failedOutput s 9)) ∧
      (16 < s.LEN.toNat →
        bigEndian (bytesOfBlock (memBlock s s.SRC.toNat)) + blocksFor (s.LEN.toNat - 16) ≤ 2 ^ 128 →
        s.memSize < s.DST.toNat + (s.LEN.toNat - 16) → exec (.mdec 2) s = .next (failedOutput s 9)))

/-- R158: each mode's decryption function undoes its encryption, for every schedule, IV and plaintext; in CTR for every
plaintext of at least 1 byte whose encryption does not hit CounterOverflow.  The empty one encrypts in CTR to the nonce alone,
which MDEC's length check refuses as too short. -/
def Obligations.ModeRoundTrips : Prop :=
  ∀ (rk : RoundKeys) (iv : Block) (pt : Bytes),
    EcbDecrypt rk (EcbEncrypt rk pt) = some pt ∧
    CbcDecrypt rk (CbcEncrypt rk iv pt) = some pt ∧
    (pt ≠ [] → ∀ ct, CtrEncrypt rk iv pt = .ok ct → CtrDecrypt rk ct = .ok pt) ∧
    CtrEncrypt rk iv [] = .ok (bytesOfBlock iv) ∧
    checkCipherLength .ctr (bytesOfBlock iv).length = .error .ciphertextTooShort

/-- The same through commands and memory: ENCRYPT then DECRYPT of its output, with room for the result, brings back every
byte of the message, in all three modes; the one exception is CTR's empty message, which fails CiphertextTooShort. -/
def Obligations.MessageRoundTrip : Prop :=
  ∀ (s t : State) (mode : Byte) (src len dst out : BitVec 24),
    runPseudo (.encrypt mode src len dst) s = .next t → t.ERR = 0 → t.OLEN.toNat < 2 ^ 24 →
    fits s out.toNat len.toNat →
    ∃ u, runPseudo (.decrypt mode dst (t.OLEN.setWidth 24) out) t = .next u ∧
      ((mode = 2 ∧ len = 0) → u.ERR = 4) ∧
      (¬ (mode = 2 ∧ len = 0) → u.ERR = 0 ∧ u.OLEN.toNat = len.toNat ∧
        ∀ k < len.toNat, readByte u (out.toNat + k) = readByte s (src.toNat + k))

/-! ## The oracle and the attack (46_oracle_attack.md) -/

/-- R171: the oracle built on this hardware, a key loaded, answers exactly whether `CbcDecrypt` succeeds, for every query of
whatever length, at any place where it and its result have room.  TRYDEC leaves `RK`, `KV`, `IV`, `IVOK`, `S`, `R` alone, and
a failure writes no memory. -/
def Obligations.TryDecIsTheOracle : Prop :=
  (∀ (s : State) (src scratch : BitVec 24) (ct : Bytes), s.KV = true → ct.length < 2 ^ 24 →
    src.toNat + ct.length ≤ s.memSize → scratch.toNat + (ct.length - 16) ≤ s.memSize →
    (machineOracle src scratch s ct).1 = oracleOf s.RK ct) ∧
  ∀ (s t : State) (src len scratch : BitVec 24), runPseudo (.trydec src len scratch) s = .next t →
    (t.RK = s.RK ∧ t.KV = s.KV ∧ t.IV = s.IV ∧ t.IVOK = s.IVOK ∧ t.S = s.S ∧ t.R = s.R) ∧
    (t.ERR ≠ 0 → t.MEM = s.MEM ∧ t.OLEN = 0)

/-- R174, R175: with the bytes above position `z` solved, exactly one candidate is accepted there, the intermediate byte
exclusive-ORed with the target padding length. -/
def Obligations.OneCandidateAccepted : Prop :=
  ∀ (rk : RoundKeys) (cprev clast : Block) (z : Fin 16) (v : Byte),
    (accepts cprev (bytesOfBlock clast) z.val ((bytesOfBlock (DecryptBlock rk clast)).drop (z.val + 1)) v).eval
        (oracleOf rk) = true
      ↔ v = (DecryptBlock rk clast)[z] ^^^ BitVec.ofNat 8 (16 - z.val)

/-- R176: the attack recovers every message exactly, for every schedule and IV, from the yes/no oracle alone. -/
def Obligations.AttackRecoversPlaintext : Prop :=
  ∀ (rk : RoundKeys) (iv : Block) (pt : Bytes), (attack (CbcEncrypt rk iv pt)).eval (oracleOf rk) = .recovered pt

/-- R176 on this hardware: the attack over TRYDEC, every query starting from the machine that the one before left, recovers
every message encrypted under the loaded key, with room for a query and its result (the procedure as the tree of its queries:
notes/assumptions/12.md). -/
def Obligations.AttackOnTheMachine : Prop :=
  ∀ (s : State) (src scratch : BitVec 24) (iv : Block) (pt : Bytes), s.KV = true →
    src.toNat + 32 ≤ s.memSize → scratch.toNat + 16 ≤ s.memSize →
    ((attack (CbcEncrypt s.RK iv pt)).run (machineOracle src scratch) s).1 = .recovered pt

/-- R177: against every oracle that always fails, whatever it keeps between queries, the procedure stops without a result, on
every ciphertext of `16(n+1)` bytes, `n >= 1`. -/
def Obligations.AttackStopsOnDeafOracle : Prop :=
  ∀ (σ : Type) (o : Oracle σ) (s : σ) (ct : Bytes), (∀ u q, (o u q).1 = false) → 32 ≤ ct.length →
    ct.length % 16 = 0 → ((attack ct).run o s).1 = .noCandidate

/-! ## Errors, flags and registers (60_exceptions.md, 10_state.md) -/

/-- R193: CLRE clears `ESTICKY` and `ERR` and touches nothing else. -/
def Obligations.ClreCommand : Prop :=
  formatZ 0x01 .clre ∧ ∀ s : State, exec .clre s = .next { s with ESTICKY := false, ERR := 0 }

/-- R187: a failing command writes `ERR`, `ESTICKY` and only what R187 lists for it, an illegal word whatever its opcode
nothing more; a succeeding command leaves `ESTICKY` (CLRE apart). -/
def Obligations.FailureWritesOnlyWhatIsListed : Prop :=
  (∀ (i : Instr) (s t : State), exec i s = .next t →
    (t.ERR ≠ 0 → t = { s with ERR := t.ERR, ESTICKY := true,
                              KV := (if i = .kexp then false else s.KV),
                              IVOK := (if writesIV i then false else s.IVOK),
                              OLEN := (if isBuffer i then 0 else s.OLEN) }) ∧
    (t.ERR = 0 → i ≠ .clre → t.ESTICKY = s.ESTICKY)) ∧
  ∀ (w : Word) (s : State), (∀ i, decode w ≠ .ok i) → command w s = .next (failed s 8)

/-- R188: each command leaves in `ERR` 0 or one of the codes listed for it. -/
def Obligations.CommandsRaiseOnlyTheirErrors : Prop :=
  ∀ (i : Instr) (s t : State), i.wf = true → exec i s = .next t → t.ERR = 0 ∨ t.ERR ∈ errorsOf i

/-- R186, R187: no command stops the machine, and a run whose host steps name only bytes that exist never stops (a host step
that names another byte faults, the model's choice: notes/assumptions/6.md). -/
def Obligations.NothingStopsTheCore : Prop :=
  (∀ (i : Instr) (s : State), ∃ t, exec i s = .next t) ∧
  ∀ s : State, (∀ h ∈ s.pending, HostStep.inMem s.memSize h) → SafeRun s

/-- 10_state.md "Written by": what each command leaves unchanged among the registers, for every command and outcome. -/
def Obligations.RegistersWrittenOnlyByTheirCommands : Prop :=
  ∀ (i : Instr) (s t : State), exec i s = .next t →
    (writesS i = false → t.S = s.S) ∧ (writesR i = false → t.R = s.R) ∧
    (writesIV i = false → t.IV = s.IV ∧ t.IVOK = s.IVOK) ∧
    ((∀ a, i ≠ .setsrc a) → t.SRC = s.SRC) ∧ ((∀ a, i ≠ .setlen a) → t.LEN = s.LEN) ∧
    ((∀ a, i ≠ .setdst a) → t.DST = s.DST) ∧ (isBuffer i = false → t.OLEN = s.OLEN) ∧
    t.memSize = s.memSize ∧ t.powerOns = s.powerOns ∧ t.pending = s.pending ∧ t.received = s.received

/-- R40, R41: a command changes no byte of MEM outside the bytes it stores, and none at all when it fails. -/
def Obligations.MemoryWrittenOnlyAtDestination : Prop :=
  ∀ (i : Instr) (s t : State), s.memSize ≤ 2 ^ 24 → exec i s = .next t →
    (t.ERR ≠ 0 → ∀ a, readByte t a = readByte s a) ∧
    sameOutside s t (stored i s t).1 (stored i s t).2

/-! ## The host's side: ports, memory, reset (10_state.md, 20_memory.md, 70_reset_and_hazards.md) -/

/-- R18: what the host reads at each port (the value `received` takes on, notes/assumptions/3.md), with no side effect; a write to port 0 executes the word, a write to any other
port is ignored. -/
def Obligations.PortsReadAsListed : Prop :=
  ∀ (s : State) (p : Nat) (rest : List HostStep),
    (s.pending = .readPort p :: rest → ∃ v : Word,
      step s = .next { s with pending := rest, received := v :: s.received } ∧
      (p = 0 → v = 0) ∧
      (p = 1 → v.getLsbD 0 = s.KV ∧ v.getLsbD 1 = s.IVOK ∧ v.getLsbD 2 = s.ESTICKY ∧ v.extractLsb' 3 5 = 0 ∧
        v.extractLsb' 8 8 = s.ERR ∧ v.extractLsb' 16 16 = 0) ∧
      (p = 2 → v.extractLsb' 0 8 = s.R ∧ v.extractLsb' 8 24 = 0) ∧
      (p = 3 → v = s.OLEN) ∧ (p = 4 → v = s.SRC) ∧ (p = 5 → v = s.LEN) ∧ (p = 6 → v = s.DST) ∧
      (7 ≤ p → v = 0)) ∧
    (∀ v : Word, s.pending = .writePort p v :: rest →
      (p = 0 → step s = command v { s with pending := rest }) ∧
      (p ≠ 0 → step s = .next { s with pending := rest }))

/-- R42, R45, R49: the host's access to MEM.  A write changes the one byte it names, every other byte, register and flag
being left; a read delivers the byte that MEM holds there, whoever wrote it, and changes nothing.  So the host reads back what
it wrote, the next LDS loads what the host wrote, and the host reads what STS stored.  (What it reads is the value `received`
takes on, notes/assumptions/3.md.) -/
def Obligations.HostReadsWhatItWrote : Prop :=
  (∀ (s : State) (a : Nat) (v : Byte) (rest : List HostStep), a < s.memSize → s.pending = .writeMem a v :: rest →
    ∃ m, step s = .next { s with MEM := m, pending := rest } ∧
      readByte { s with MEM := m, pending := rest } a = v ∧
      sameOutside s { s with MEM := m, pending := rest } a 1) ∧
  (∀ (s : State) (a : Nat) (rest : List HostStep), a < s.memSize → s.pending = .readMem a :: rest →
    step s = .next { s with pending := rest, received := (readByte s a).setWidth 32 :: s.received }) ∧
  (∀ (s : State) (a : Nat) (v : Byte) (rest : List HostStep), a < s.memSize →
    s.pending = .writeMem a v :: .readMem a :: rest →
    ∃ t, step s = .next t ∧ sameOutside s t a 1 ∧
      step t = .next { t with pending := rest, received := v.setWidth 32 :: s.received }) ∧
  ∀ (s : State) (x : BitVec 24) (k : Fin 16) (rest : List HostStep), x.toNat + 16 ≤ s.memSize →
    (∀ v : Byte, s.pending = .writeMem (x.toNat + k.val) v :: .writePort 0 (encode (.lds x)) :: rest →
      ∃ t u, step s = .next t ∧ step t = .next u ∧ u.S[k] = v) ∧
    (s.pending = .writePort 0 (encode (.sts x)) :: .readMem (x.toNat + k.val) :: rest →
      ∃ t, step s = .next t ∧ step t = .next { t with pending := rest, received := (s.S[k]).setWidth 32 :: s.received })

/-- R210: a reset puts the core in the state of its table, whatever the state before.  (`RK`, `IV` and MEM are
unspecified there, and nothing is said of them.)  `MEMSIZE` and the host's own fields stay (notes/assumptions/7.md). -/
def Obligations.ResetStep : Prop :=
  ∀ (s : State) (rest : List HostStep), s.pending = .reset :: rest →
    ∃ t, step s = .next t ∧ (t.S = Vector.replicate 16 0 ∧ t.R = 0 ∧ t.KV = false ∧ t.IVOK = false ∧
      t.ESTICKY = false ∧ t.ERR = 0 ∧ t.SRC = 0 ∧ t.LEN = 0 ∧ t.DST = 0 ∧ t.OLEN = 0) ∧
      t.memSize = s.memSize ∧ t.pending = rest ∧ t.received = s.received

/-- The invariant holds after a reset, for every legal `MEMSIZE`, and at `State.reset`. -/
def Obligations.ResetMeetsInv : Prop :=
  (∀ n k, Config.memSizeMin ≤ n → n ≤ Config.memSizeMax → (State.resetAt n k).Inv) ∧ State.reset.Inv

/-- Every step keeps the invariant: MEM canonical and inside `MEMSIZE`, bits 31:24 of the descriptor zero, `OLEN` at most
`MEMSIZE`, `ERR` a code of R185 with `ESTICKY` set after a failure, and `RK` the expansion of its round 0 while `KV = 1`. -/
def Obligations.StepKeepsInv : Prop := ∀ s t : State, s.Inv → step s = .next t → t.Inv

/-- R24: what `RK` holds while `KV = 0` and what `IV` holds while `IVOK = 0` cannot be observed: two states that differ
only there make steps that again differ only there, the host receiving the same values. -/
def Obligations.UnloadedKeyAndIvUnobservable : Prop :=
  ∀ s₁ s₂ t₁ : State, alike s₁ s₂ → step s₁ = .next t₁ → ∃ t₂, step s₂ = .next t₂ ∧ alike t₁ t₂

/-- R66: LOADKEY is SETSRC, SETLEN 16, KEXP: with the key in MEM it ends with the schedule loaded; LOADKEYN of another
length ends with UnsupportedKeySize and no key. -/
def Obligations.LoadkeyPseudoCommands : Prop :=
  ∀ (a n : BitVec 24) (s : State),
    (a.toNat + 16 ≤ s.memSize → runPseudo (.loadkey a) s = .next
      { s with SRC := (0 : BitVec 8) ++ a, LEN := 16, RK := KeyExpand (memBlock s a.toNat), KV := true, ERR := 0 }) ∧
    (n ≠ 16 → runPseudo (.loadkeyn a n) s = .next
      { s with SRC := (0 : BitVec 8) ++ a, LEN := (0 : BitVec 8) ++ n, KV := false, ERR := 1, ESTICKY := true })

/-! ## The attack: every ciphertext, and several attacks on one core (46_oracle_attack.md R176 to R179) -/

/-- R175 to R177, R179: against the oracle of a schedule, a block attack gives the block's decryption exclusive-ORed with the
block before it, for every pair of blocks, in 17 to `16 * 256 + 256` queries; and the attack on a ciphertext of `16(n+1)`
bytes gives what CbcDecrypt gives, InvalidPadding where that fails. -/
def Obligations.AttackEqualsDecryption : Prop :=
  ∀ rk : RoundKeys,
    (∀ cprev clast : Block,
      (attackBlock cprev clast).eval (oracleOf rk) = some (xorBlock (DecryptBlock rk clast) cprev) ∧
      17 ≤ (attackBlock cprev clast).cost (oracleOf rk) ∧
      (attackBlock cprev clast).cost (oracleOf rk) ≤ 16 * 256 + 256) ∧
    ∀ ct : Bytes, 32 ≤ ct.length → ct.length % 16 = 0 →
      (attack ct).eval (oracleOf rk) =
        match CbcDecrypt rk ct with
        | some pt => .recovered pt
        | none => .invalidPadding

/-- R178: several block attacks on one core with a key give, each, the block's own plaintext, in whatever order they take
their turns, if each query uses its own buffers; and with any buffers if each query completes before the next one starts.
Whatever turns were taken, further ones end every attack. -/
def Obligations.InterleavedAttacksAgree : Prop :=
  ∀ (s : State) (ths : List (Thread (Option Block))) (pairs : List (Block × Block)), s.KV = true →
    ths.map (·.proc) = pairs.map (fun p => attackBlock p.1 p.2) →
    (∀ th ∈ ths, th.placed = false ∧ th.src.toNat + 32 ≤ s.memSize ∧ th.scratch.toNat + 16 ≤ s.memSize) →
    ∀ turns : List Turn, (ownBuffers ths ∨ ∃ js, turns = wholeTurns js) →
      (∀ (j : Nat) (th : Thread (Option Block)) (p : Block × Block) (r : Option Block),
        (takeTurns turns ths s).1[j]? = some th → pairs[j]? = some p → th.proc = .done r →
        r = some (xorBlock (DecryptBlock s.RK p.2) p.1)) ∧
      ∃ more : List Nat, ∀ th ∈ (takeTurns (turns ++ wholeTurns more) ths s).1, ∃ r, th.proc = .done r
end

