-- ==== Sys2Proof/Laws/Blocks.lean ====
section
/-! SUPPORT. The laws of the byte-sequence helpers: elements and lengths, Blocks and sequences, a buffer cut into Blocks and
put together again (spec/00_scope.md R7, R8; 20_memory.md R36). -/

namespace Sys2Proof.Machine

@[simp] theorem xorBlock_getElem (a b : Block) (i : Nat) (h : i < 16) : (xorBlock a b)[i] = a[i] ^^^ b[i] := by
  simp [xorBlock]

@[simp] theorem bytesOfBlock_length (b : Block) : (bytesOfBlock b).length = 16 := by simp [bytesOfBlock]

theorem bytesOfBlock_getElem (b : Block) (i : Nat) (h : i < (bytesOfBlock b).length) :
    (bytesOfBlock b)[i] = b[i]'(by simpa using h) := by simp [bytesOfBlock]

theorem blockOfBytes_getElem (l : Bytes) (i : Nat) (h : i < 16) : (blockOfBytes l)[i] = l.getD i 0 := by
  simp [blockOfBytes]

@[simp] theorem blockOfBytes_bytesOfBlock (b : Block) : blockOfBytes (bytesOfBlock b) = b := by
  ext i h
  rw [blockOfBytes_getElem _ _ h, List.getD_eq_getElem _ _ (by simpa using h), bytesOfBlock_getElem]

theorem bytesOfBlock_blockOfBytes {l : Bytes} (h : l.length = 16) : bytesOfBlock (blockOfBytes l) = l := by
  refine List.ext_getElem (by simp [h]) fun i h₁ h₂ => ?_
  rw [bytesOfBlock_getElem, blockOfBytes_getElem _ _ (by simpa using h₁), List.getD_eq_getElem]

@[simp] theorem xorBlock_xorBlock (a b : Block) : xorBlock (xorBlock a b) b = a := by
  ext i h
  simp

theorem xorBlock_comm (a b : Block) : xorBlock a b = xorBlock b a := by
  ext i h
  simp [BitVec.xor_comm]

@[simp] theorem AddRoundKey_AddRoundKey (s k : Block) : AddRoundKey (AddRoundKey s k) k = s := xorBlock_xorBlock s k

@[simp] theorem xorBytes_length (a b : Bytes) : (xorBytes a b).length = min a.length b.length := by
  simp [xorBytes]

@[simp] theorem concatBlocks_nil : concatBlocks [] = [] := rfl

@[simp] theorem concatBlocks_cons (b : Block) (bs : List Block) :
    concatBlocks (b :: bs) = bytesOfBlock b ++ concatBlocks bs := rfl

@[simp] theorem concatBlocks_length (bs : List Block) : (concatBlocks bs).length = 16 * bs.length := by
  induction bs with
  | nil => rfl
  | cons b bs ih => simp [ih]; omega

@[simp] theorem wholeBlocks_length (l : Bytes) : (wholeBlocks l).length = l.length / 16 := by simp [wholeBlocks]

theorem wholeBlocks_getElem (l : Bytes) (j : Nat) (h : j < (wholeBlocks l).length) :
    (wholeBlocks l)[j] = blockOfBytes (chunkAt l j) := by simp [wholeBlocks]

/-- The first 16 bytes of a buffer are its first Block. -/
theorem wholeBlocks_append (b : Block) (l : Bytes) : wholeBlocks (bytesOfBlock b ++ l) = b :: wholeBlocks l := by
  refine List.ext_getElem (by simp) fun j h₁ h₂ => ?_
  rw [wholeBlocks_getElem]
  cases j with
  | zero => simp [chunkAt]
  | succ j =>
    rw [List.getElem_cons_succ, wholeBlocks_getElem]
    have : 16 * (j + 1) = 16 + 16 * j := by omega
    have hd : (bytesOfBlock b).drop (16 + 16 * j) = [] := List.drop_eq_nil_of_le (by simp)
    simp [chunkAt, List.drop_append, this, hd]

@[simp] theorem wholeBlocks_concatBlocks (bs : List Block) : wholeBlocks (concatBlocks bs) = bs := by
  induction bs with
  | nil => rfl
  | cons b bs ih => rw [concatBlocks_cons, wholeBlocks_append, ih]

/-- A buffer of whole Blocks is the concatenation of them. -/
theorem concatBlocks_wholeBlocks {l : Bytes} (h : l.length % 16 = 0) : concatBlocks (wholeBlocks l) = l := by
  obtain ⟨n, hn⟩ : ∃ n, l.length = 16 * n := ⟨l.length / 16, by omega⟩
  induction n generalizing l with
  | zero =>
    have : l = [] := List.length_eq_zero_iff.1 (by simpa using hn)
    subst this
    rfl
  | succ n ih =>
    have h16 : (l.take 16).length = 16 := by rw [List.length_take]; omega
    have hl : l = bytesOfBlock (blockOfBytes (l.take 16)) ++ l.drop 16 := by
      rw [bytesOfBlock_blockOfBytes h16, List.take_append_drop]
    have hd : (l.drop 16).length = 16 * n := by rw [List.length_drop]; omega
    conv_lhs => rw [hl]
    rw [wholeBlocks_append, concatBlocks_cons, ih (by omega) hd, ← hl]

@[simp] theorem stateByte_eq (s : Block) (r c : Nat) (hr : r < 4) (hc : c < 4) :
    stateByte s r c = s[4 * c + r]'(by omega) := by
  simp [stateByte, stateIndex, Nat.mod_eq_of_lt hr, Nat.mod_eq_of_lt hc]

@[simp] theorem SubBytes_getElem (s : Block) (i : Nat) (h : i < 16) : (SubBytes s)[i] = sBox s[i] := by
  simp [SubBytes]

@[simp] theorem InvSubBytes_getElem (s : Block) (i : Nat) (h : i < 16) : (InvSubBytes s)[i] = invSBox s[i] := by
  simp [InvSubBytes]

theorem ShiftRows_getElem (s : Block) (i : Nat) (h : i < 16) :
    (ShiftRows s)[i] = s[4 * ((i / 4 + i % 4) % 4) + i % 4]'(by omega) := by
  rw [ShiftRows, Vector.getElem_ofFn, stateByte_eq _ _ _ (by omega) (by omega)]

theorem InvShiftRows_getElem (s : Block) (i : Nat) (h : i < 16) :
    (InvShiftRows s)[i] = s[4 * ((i / 4 + 4 - i % 4) % 4) + i % 4]'(by omega) := by
  rw [InvShiftRows, Vector.getElem_ofFn, stateByte_eq _ _ _ (by omega) (by omega)]

@[simp] theorem KeyExpand_getElem (key : Block) (i : Nat) (h : i < 11) : (KeyExpand key)[i] = roundKey key i := by
  simp [KeyExpand]

end Sys2Proof.Machine
end

