-- ==== Sys2Proof/Laws/State.lean ====
section
/-! SUPPORT. One lemma per field per named state update, each true by unfolding the update once. -/

namespace Sys2Proof.Machine

@[simp] theorem keepAll_eq (s : State) : keepAll s = s := rfl

@[simp] theorem succeed_S (s : State) : (succeed s).S = s.S := rfl
@[simp] theorem succeed_R (s : State) : (succeed s).R = s.R := rfl
@[simp] theorem succeed_RK (s : State) : (succeed s).RK = s.RK := rfl
@[simp] theorem succeed_KV (s : State) : (succeed s).KV = s.KV := rfl
@[simp] theorem succeed_IV (s : State) : (succeed s).IV = s.IV := rfl
@[simp] theorem succeed_IVOK (s : State) : (succeed s).IVOK = s.IVOK := rfl
@[simp] theorem succeed_SRC (s : State) : (succeed s).SRC = s.SRC := rfl
@[simp] theorem succeed_LEN (s : State) : (succeed s).LEN = s.LEN := rfl
@[simp] theorem succeed_DST (s : State) : (succeed s).DST = s.DST := rfl
@[simp] theorem succeed_OLEN (s : State) : (succeed s).OLEN = s.OLEN := rfl
@[simp] theorem succeed_ERR (s : State) : (succeed s).ERR = 0 := rfl
@[simp] theorem succeed_ESTICKY (s : State) : (succeed s).ESTICKY = s.ESTICKY := rfl
@[simp] theorem succeed_MEM (s : State) : (succeed s).MEM = s.MEM := rfl
@[simp] theorem succeed_memSize (s : State) : (succeed s).memSize = s.memSize := rfl
@[simp] theorem succeed_powerOns (s : State) : (succeed s).powerOns = s.powerOns := rfl
@[simp] theorem succeed_pending (s : State) : (succeed s).pending = s.pending := rfl
@[simp] theorem succeed_received (s : State) : (succeed s).received = s.received := rfl

@[simp] theorem raise_S (e : ErrKind) (s : State) : (raise e s).S = s.S := rfl
@[simp] theorem raise_R (e : ErrKind) (s : State) : (raise e s).R = s.R := rfl
@[simp] theorem raise_RK (e : ErrKind) (s : State) : (raise e s).RK = s.RK := rfl
@[simp] theorem raise_KV (e : ErrKind) (s : State) : (raise e s).KV = s.KV := rfl
@[simp] theorem raise_IV (e : ErrKind) (s : State) : (raise e s).IV = s.IV := rfl
@[simp] theorem raise_IVOK (e : ErrKind) (s : State) : (raise e s).IVOK = s.IVOK := rfl
@[simp] theorem raise_SRC (e : ErrKind) (s : State) : (raise e s).SRC = s.SRC := rfl
@[simp] theorem raise_LEN (e : ErrKind) (s : State) : (raise e s).LEN = s.LEN := rfl
@[simp] theorem raise_DST (e : ErrKind) (s : State) : (raise e s).DST = s.DST := rfl
@[simp] theorem raise_OLEN (e : ErrKind) (s : State) : (raise e s).OLEN = s.OLEN := rfl
@[simp] theorem raise_ERR (e : ErrKind) (s : State) : (raise e s).ERR = e.code := rfl
@[simp] theorem raise_ESTICKY (e : ErrKind) (s : State) : (raise e s).ESTICKY = true := rfl
@[simp] theorem raise_MEM (e : ErrKind) (s : State) : (raise e s).MEM = s.MEM := rfl
@[simp] theorem raise_memSize (e : ErrKind) (s : State) : (raise e s).memSize = s.memSize := rfl
@[simp] theorem raise_powerOns (e : ErrKind) (s : State) : (raise e s).powerOns = s.powerOns := rfl
@[simp] theorem raise_pending (e : ErrKind) (s : State) : (raise e s).pending = s.pending := rfl
@[simp] theorem raise_received (e : ErrKind) (s : State) : (raise e s).received = s.received := rfl

@[simp] theorem dropKey_S (s : State) : (dropKey s).S = s.S := rfl
@[simp] theorem dropKey_R (s : State) : (dropKey s).R = s.R := rfl
@[simp] theorem dropKey_RK (s : State) : (dropKey s).RK = s.RK := rfl
@[simp] theorem dropKey_KV (s : State) : (dropKey s).KV = false := rfl
@[simp] theorem dropKey_IV (s : State) : (dropKey s).IV = s.IV := rfl
@[simp] theorem dropKey_IVOK (s : State) : (dropKey s).IVOK = s.IVOK := rfl
@[simp] theorem dropKey_SRC (s : State) : (dropKey s).SRC = s.SRC := rfl
@[simp] theorem dropKey_LEN (s : State) : (dropKey s).LEN = s.LEN := rfl
@[simp] theorem dropKey_DST (s : State) : (dropKey s).DST = s.DST := rfl
@[simp] theorem dropKey_OLEN (s : State) : (dropKey s).OLEN = s.OLEN := rfl
@[simp] theorem dropKey_ERR (s : State) : (dropKey s).ERR = s.ERR := rfl
@[simp] theorem dropKey_ESTICKY (s : State) : (dropKey s).ESTICKY = s.ESTICKY := rfl
@[simp] theorem dropKey_MEM (s : State) : (dropKey s).MEM = s.MEM := rfl
@[simp] theorem dropKey_memSize (s : State) : (dropKey s).memSize = s.memSize := rfl
@[simp] theorem dropKey_powerOns (s : State) : (dropKey s).powerOns = s.powerOns := rfl
@[simp] theorem dropKey_pending (s : State) : (dropKey s).pending = s.pending := rfl
@[simp] theorem dropKey_received (s : State) : (dropKey s).received = s.received := rfl

@[simp] theorem dropIV_S (s : State) : (dropIV s).S = s.S := rfl
@[simp] theorem dropIV_R (s : State) : (dropIV s).R = s.R := rfl
@[simp] theorem dropIV_RK (s : State) : (dropIV s).RK = s.RK := rfl
@[simp] theorem dropIV_KV (s : State) : (dropIV s).KV = s.KV := rfl
@[simp] theorem dropIV_IV (s : State) : (dropIV s).IV = s.IV := rfl
@[simp] theorem dropIV_IVOK (s : State) : (dropIV s).IVOK = false := rfl
@[simp] theorem dropIV_SRC (s : State) : (dropIV s).SRC = s.SRC := rfl
@[simp] theorem dropIV_LEN (s : State) : (dropIV s).LEN = s.LEN := rfl
@[simp] theorem dropIV_DST (s : State) : (dropIV s).DST = s.DST := rfl
@[simp] theorem dropIV_OLEN (s : State) : (dropIV s).OLEN = s.OLEN := rfl
@[simp] theorem dropIV_ERR (s : State) : (dropIV s).ERR = s.ERR := rfl
@[simp] theorem dropIV_ESTICKY (s : State) : (dropIV s).ESTICKY = s.ESTICKY := rfl
@[simp] theorem dropIV_MEM (s : State) : (dropIV s).MEM = s.MEM := rfl
@[simp] theorem dropIV_memSize (s : State) : (dropIV s).memSize = s.memSize := rfl
@[simp] theorem dropIV_powerOns (s : State) : (dropIV s).powerOns = s.powerOns := rfl
@[simp] theorem dropIV_pending (s : State) : (dropIV s).pending = s.pending := rfl
@[simp] theorem dropIV_received (s : State) : (dropIV s).received = s.received := rfl

@[simp] theorem clearOlen_S (s : State) : (clearOlen s).S = s.S := rfl
@[simp] theorem clearOlen_R (s : State) : (clearOlen s).R = s.R := rfl
@[simp] theorem clearOlen_RK (s : State) : (clearOlen s).RK = s.RK := rfl
@[simp] theorem clearOlen_KV (s : State) : (clearOlen s).KV = s.KV := rfl
@[simp] theorem clearOlen_IV (s : State) : (clearOlen s).IV = s.IV := rfl
@[simp] theorem clearOlen_IVOK (s : State) : (clearOlen s).IVOK = s.IVOK := rfl
@[simp] theorem clearOlen_SRC (s : State) : (clearOlen s).SRC = s.SRC := rfl
@[simp] theorem clearOlen_LEN (s : State) : (clearOlen s).LEN = s.LEN := rfl
@[simp] theorem clearOlen_DST (s : State) : (clearOlen s).DST = s.DST := rfl
@[simp] theorem clearOlen_OLEN (s : State) : (clearOlen s).OLEN = 0 := rfl
@[simp] theorem clearOlen_ERR (s : State) : (clearOlen s).ERR = s.ERR := rfl
@[simp] theorem clearOlen_ESTICKY (s : State) : (clearOlen s).ESTICKY = s.ESTICKY := rfl
@[simp] theorem clearOlen_MEM (s : State) : (clearOlen s).MEM = s.MEM := rfl
@[simp] theorem clearOlen_memSize (s : State) : (clearOlen s).memSize = s.memSize := rfl
@[simp] theorem clearOlen_powerOns (s : State) : (clearOlen s).powerOns = s.powerOns := rfl
@[simp] theorem clearOlen_pending (s : State) : (clearOlen s).pending = s.pending := rfl
@[simp] theorem clearOlen_received (s : State) : (clearOlen s).received = s.received := rfl

@[simp] theorem writeByte_S (s : State) (a : Nat) (v : Byte) : (writeByte s a v).S = s.S := rfl
@[simp] theorem writeByte_R (s : State) (a : Nat) (v : Byte) : (writeByte s a v).R = s.R := rfl
@[simp] theorem writeByte_RK (s : State) (a : Nat) (v : Byte) : (writeByte s a v).RK = s.RK := rfl
@[simp] theorem writeByte_KV (s : State) (a : Nat) (v : Byte) : (writeByte s a v).KV = s.KV := rfl
@[simp] theorem writeByte_IV (s : State) (a : Nat) (v : Byte) : (writeByte s a v).IV = s.IV := rfl
@[simp] theorem writeByte_IVOK (s : State) (a : Nat) (v : Byte) : (writeByte s a v).IVOK = s.IVOK := rfl
@[simp] theorem writeByte_SRC (s : State) (a : Nat) (v : Byte) : (writeByte s a v).SRC = s.SRC := rfl
@[simp] theorem writeByte_LEN (s : State) (a : Nat) (v : Byte) : (writeByte s a v).LEN = s.LEN := rfl
@[simp] theorem writeByte_DST (s : State) (a : Nat) (v : Byte) : (writeByte s a v).DST = s.DST := rfl
@[simp] theorem writeByte_OLEN (s : State) (a : Nat) (v : Byte) : (writeByte s a v).OLEN = s.OLEN := rfl
@[simp] theorem writeByte_ERR (s : State) (a : Nat) (v : Byte) : (writeByte s a v).ERR = s.ERR := rfl
@[simp] theorem writeByte_ESTICKY (s : State) (a : Nat) (v : Byte) : (writeByte s a v).ESTICKY = s.ESTICKY := rfl
@[simp] theorem writeByte_MEM (s : State) (a : Nat) (v : Byte) : (writeByte s a v).MEM = Memory.insert s.MEM a v := rfl
@[simp] theorem writeByte_memSize (s : State) (a : Nat) (v : Byte) : (writeByte s a v).memSize = s.memSize := rfl
@[simp] theorem writeByte_powerOns (s : State) (a : Nat) (v : Byte) : (writeByte s a v).powerOns = s.powerOns := rfl
@[simp] theorem writeByte_pending (s : State) (a : Nat) (v : Byte) : (writeByte s a v).pending = s.pending := rfl
@[simp] theorem writeByte_received (s : State) (a : Nat) (v : Byte) : (writeByte s a v).received = s.received := rfl

@[simp] theorem receive_S (v : Word) (s : State) : (receive v s).S = s.S := rfl
@[simp] theorem receive_R (v : Word) (s : State) : (receive v s).R = s.R := rfl
@[simp] theorem receive_RK (v : Word) (s : State) : (receive v s).RK = s.RK := rfl
@[simp] theorem receive_KV (v : Word) (s : State) : (receive v s).KV = s.KV := rfl
@[simp] theorem receive_IV (v : Word) (s : State) : (receive v s).IV = s.IV := rfl
@[simp] theorem receive_IVOK (v : Word) (s : State) : (receive v s).IVOK = s.IVOK := rfl
@[simp] theorem receive_SRC (v : Word) (s : State) : (receive v s).SRC = s.SRC := rfl
@[simp] theorem receive_LEN (v : Word) (s : State) : (receive v s).LEN = s.LEN := rfl
@[simp] theorem receive_DST (v : Word) (s : State) : (receive v s).DST = s.DST := rfl
@[simp] theorem receive_OLEN (v : Word) (s : State) : (receive v s).OLEN = s.OLEN := rfl
@[simp] theorem receive_ERR (v : Word) (s : State) : (receive v s).ERR = s.ERR := rfl
@[simp] theorem receive_ESTICKY (v : Word) (s : State) : (receive v s).ESTICKY = s.ESTICKY := rfl
@[simp] theorem receive_MEM (v : Word) (s : State) : (receive v s).MEM = s.MEM := rfl
@[simp] theorem receive_memSize (v : Word) (s : State) : (receive v s).memSize = s.memSize := rfl
@[simp] theorem receive_powerOns (v : Word) (s : State) : (receive v s).powerOns = s.powerOns := rfl
@[simp] theorem receive_pending (v : Word) (s : State) : (receive v s).pending = s.pending := rfl
@[simp] theorem receive_received (v : Word) (s : State) : (receive v s).received = v :: s.received := rfl

/-- Storing a run of bytes changes only `MEM`. -/
theorem writeBytes_eq (s : State) (a : Nat) (vs : Bytes) : writeBytes s a vs = { s with MEM := (writeBytes s a vs).MEM } := by
  induction vs generalizing s a with
  | nil => rfl
  | cons v vs ih => rw [writeBytes, ih]; rfl

@[simp] theorem writeBytes_S (s : State) (a : Nat) (vs : Bytes) : (writeBytes s a vs).S = s.S := by
  rw [writeBytes_eq]
@[simp] theorem writeBytes_R (s : State) (a : Nat) (vs : Bytes) : (writeBytes s a vs).R = s.R := by
  rw [writeBytes_eq]
@[simp] theorem writeBytes_RK (s : State) (a : Nat) (vs : Bytes) : (writeBytes s a vs).RK = s.RK := by
  rw [writeBytes_eq]
@[simp] theorem writeBytes_KV (s : State) (a : Nat) (vs : Bytes) : (writeBytes s a vs).KV = s.KV := by
  rw [writeBytes_eq]
@[simp] theorem writeBytes_IV (s : State) (a : Nat) (vs : Bytes) : (writeBytes s a vs).IV = s.IV := by
  rw [writeBytes_eq]
@[simp] theorem writeBytes_IVOK (s : State) (a : Nat) (vs : Bytes) : (writeBytes s a vs).IVOK = s.IVOK := by
  rw [writeBytes_eq]
@[simp] theorem writeBytes_SRC (s : State) (a : Nat) (vs : Bytes) : (writeBytes s a vs).SRC = s.SRC := by
  rw [writeBytes_eq]
@[simp] theorem writeBytes_LEN (s : State) (a : Nat) (vs : Bytes) : (writeBytes s a vs).LEN = s.LEN := by
  rw [writeBytes_eq]
@[simp] theorem writeBytes_DST (s : State) (a : Nat) (vs : Bytes) : (writeBytes s a vs).DST = s.DST := by
  rw [writeBytes_eq]
@[simp] theorem writeBytes_OLEN (s : State) (a : Nat) (vs : Bytes) : (writeBytes s a vs).OLEN = s.OLEN := by
  rw [writeBytes_eq]
@[simp] theorem writeBytes_ERR (s : State) (a : Nat) (vs : Bytes) : (writeBytes s a vs).ERR = s.ERR := by
  rw [writeBytes_eq]
@[simp] theorem writeBytes_ESTICKY (s : State) (a : Nat) (vs : Bytes) : (writeBytes s a vs).ESTICKY = s.ESTICKY := by
  rw [writeBytes_eq]
@[simp] theorem writeBytes_memSize (s : State) (a : Nat) (vs : Bytes) : (writeBytes s a vs).memSize = s.memSize := by
  rw [writeBytes_eq]
@[simp] theorem writeBytes_powerOns (s : State) (a : Nat) (vs : Bytes) : (writeBytes s a vs).powerOns = s.powerOns := by
  rw [writeBytes_eq]
@[simp] theorem writeBytes_pending (s : State) (a : Nat) (vs : Bytes) : (writeBytes s a vs).pending = s.pending := by
  rw [writeBytes_eq]
@[simp] theorem writeBytes_received (s : State) (a : Nat) (vs : Bytes) : (writeBytes s a vs).received = s.received := by
  rw [writeBytes_eq]

end Sys2Proof.Machine
end

