-- ==== Sys2Proof/Laws/Memory.lean ====
section
/-! SUPPORT. The laws of MEM: reading after writing, the canonical form kept by every memory operation, and what MemRead and
MemWrite answer (spec/20_memory.md R35, R38, R41, R42). -/

namespace Sys2Proof.Machine

/-! ## The list -/

theorem Memory.lookup_insert_self (m : Memory) (a : Nat) (v : Byte) :
    Memory.lookup (Memory.insert m a v) a = some v := by
  induction m with
  | nil => simp [Memory.insert, Memory.lookup]
  | cons c m ih =>
    obtain ⟨x, b⟩ := c
    simp only [Memory.insert]
    split
    · simp [Memory.lookup]
    · split
      · simp [Memory.lookup]
      · simp [Memory.lookup, *]

theorem Memory.lookup_insert_ne (m : Memory) {a x : Nat} (v : Byte) (h : x ≠ a) :
    Memory.lookup (Memory.insert m a v) x = Memory.lookup m x := by
  induction m with
  | nil => simp [Memory.insert, Memory.lookup, h]
  | cons c m ih =>
    obtain ⟨y, b⟩ := c
    simp only [Memory.insert]
    split
    · simp [Memory.lookup, h]
    · split
      · rename_i hay
        subst hay
        simp [Memory.lookup, h]
      · simp only [Memory.lookup, ih]

/-- A listed address of the new list is the one written or one listed before. -/
theorem Memory.mem_insert {m : Memory} {a : Nat} {v : Byte} {c : Host.Cell} (h : c ∈ Memory.insert m a v) :
    c.1 = a ∨ c ∈ m := by
  induction m with
  | nil => simp [Memory.insert] at h; simp [h]
  | cons d m ih =>
    obtain ⟨x, b⟩ := d
    simp only [Memory.insert] at h
    split at h
    · simp at h ⊢; rcases h with h | h | h <;> simp [h]
    · split at h
      · simp at h ⊢; rcases h with h | h <;> simp [h]
      · simp at h ⊢
        rcases h with h | h
        · simp [h]
        · rcases ih h with h' | h' <;> simp [h']

/-- The canonical form is Mathlib's strictly increasing order of the addresses. -/
theorem Memory.wf_iff (m : Memory) : Memory.wf m = true ↔ m.Pairwise (fun c d => c.1 < d.1) := by
  rw [← List.isChain_iff_pairwise]
  induction m with
  | nil => simp [Memory.wf]
  | cons c m ih =>
    cases m with
    | nil => simp [Memory.wf]
    | cons d m => simp [Memory.wf, ih]

/-- Writing keeps the canonical form. -/
theorem Memory.insert_wf {m : Memory} (a : Nat) (v : Byte) (h : Memory.wf m = true) :
    Memory.wf (Memory.insert m a v) = true := by
  rw [Memory.wf_iff] at *
  induction m with
  | nil => simp [Memory.insert]
  | cons c m ih =>
    obtain ⟨x, b⟩ := c
    rw [List.pairwise_cons] at h
    simp only [Memory.insert]
    split
    · rename_i hax
      simp only [List.pairwise_cons]
      refine ⟨fun d hd => ?_, h.1, h.2⟩
      rcases List.mem_cons.1 hd with rfl | hd
      · exact hax
      · exact Nat.lt_trans hax (h.1 d hd)
    · split
      · rename_i hax
        subst hax
        exact List.pairwise_cons.2 ⟨h.1, h.2⟩
      · refine List.pairwise_cons.2 ⟨fun d hd => ?_, ih h.2⟩
        rcases Memory.mem_insert hd with hd | hd
        · simp only [hd]; omega
        · exact h.1 d hd

/-! ## One byte -/

@[simp] theorem readByte_writeByte_self (s : State) (a : Nat) (v : Byte) : readByte (writeByte s a v) a = v := by
  simp [readByte, Memory.lookup_insert_self]

theorem readByte_writeByte_ne (s : State) {a x : Nat} (v : Byte) (h : x ≠ a) :
    readByte (writeByte s a v) x = readByte s x := by
  simp [readByte, Memory.lookup_insert_ne _ _ h]

/-- What a byte reads as depends on `MEM` and the reset count alone. -/
theorem readByte_congr {s t : State} (hm : t.MEM = s.MEM) (hp : t.powerOns = s.powerOns) (a : Nat) :
    readByte t a = readByte s a := by simp [readByte, hm, hp]

/-! ## Runs of bytes -/

@[simp] theorem readBytes_length (s : State) (a n : Nat) : (readBytes s a n).length = n := by
  induction n generalizing a with
  | zero => rfl
  | succ n ih => simp [readBytes, ih]

theorem readBytes_getElem (s : State) (a n k : Nat) (h : k < (readBytes s a n).length) :
    (readBytes s a n)[k] = readByte s (a + k) := by
  induction n generalizing a k with
  | zero => simp at h
  | succ n ih =>
    cases k with
    | zero => simp [readBytes]
    | succ k => simp [readBytes, ih, Nat.add_assoc, Nat.add_comm 1]

theorem readBytes_getD (s : State) (a n k : Nat) (d : Byte) (h : k < n) :
    (readBytes s a n).getD k d = readByte s (a + k) := by
  rw [List.getD_eq_getElem _ _ (by simpa using h), readBytes_getElem]

theorem readBytes_congr {s t : State} (hm : t.MEM = s.MEM) (hp : t.powerOns = s.powerOns) (a n : Nat) :
    readBytes t a n = readBytes s a n := by
  induction n generalizing a with
  | zero => rfl
  | succ n ih => simp [readBytes, ih, readByte_congr hm hp]

/-- A byte outside a stored run reads as before. -/
theorem readByte_writeBytes_outside (s : State) (a : Nat) (vs : Bytes) (x : Nat) (h : x < a ∨ a + vs.length ≤ x) :
    readByte (writeBytes s a vs) x = readByte s x := by
  induction vs generalizing s a with
  | nil => rfl
  | cons v vs ih =>
    simp only [List.length_cons] at h
    rw [writeBytes, ih _ _ (by omega), readByte_writeByte_ne _ _ (by omega)]

/-- A byte of a stored run reads as the sequence's element. -/
theorem readByte_writeBytes_inside (s : State) (a : Nat) (vs : Bytes) (k : Nat) (h : k < vs.length) :
    readByte (writeBytes s a vs) (a + k) = vs[k] := by
  induction vs generalizing s a k with
  | nil => simp at h
  | cons v vs ih =>
    cases k with
    | zero => simp [writeBytes, readByte_writeBytes_outside]
    | succ k =>
      have := ih (writeByte s a v) (a + 1) k (by simpa using h)
      simpa [writeBytes, Nat.add_assoc, Nat.add_comm 1] using this

/-- A run read back where it was stored is the sequence stored. -/
theorem readBytes_writeBytes_self (s : State) (a : Nat) (vs : Bytes) :
    readBytes (writeBytes s a vs) a vs.length = vs := by
  refine List.ext_getElem (by simp) fun k h₁ h₂ => ?_
  rw [readBytes_getElem, readByte_writeBytes_inside _ _ _ _ h₂]

theorem writeBytes_wf (s : State) (a : Nat) (vs : Bytes) (h : Memory.wf s.MEM = true) :
    Memory.wf (writeBytes s a vs).MEM = true := by
  induction vs generalizing s a with
  | nil => exact h
  | cons v vs ih => exact ih _ _ (Memory.insert_wf _ _ h)

/-- A run stored inside `n` bytes lists no address at or above `n`. -/
theorem writeBytes_inside (s : State) (a : Nat) (vs : Bytes) (n : Nat) (hs : ∀ c ∈ s.MEM, c.1 < n)
    (h : a + vs.length ≤ n) : ∀ c ∈ (writeBytes s a vs).MEM, c.1 < n := by
  induction vs generalizing s a with
  | nil => exact hs
  | cons v vs ih =>
    simp only [List.length_cons] at h
    refine ih _ _ (fun c hc => ?_) (by omega)
    rcases Memory.mem_insert hc with hc | hc
    · omega
    · exact hs c hc

theorem writeBytes_append (s : State) (a : Nat) (us vs : Bytes) :
    writeBytes s a (us ++ vs) = writeBytes (writeBytes s a us) (a + us.length) vs := by
  induction us generalizing s a with
  | nil => rfl
  | cons u us ih => simp [writeBytes, ih, Nat.add_assoc, Nat.add_comm 1]

/-! ## The range check -/

theorem inRange_iff (s : State) (a n : Nat) : inRange s a n = true ↔ n = 0 ∨ a + n ≤ s.memSize := by
  simp [inRange]

theorem memRead_of_inRange {s : State} {a n : Nat} (h : n = 0 ∨ a + n ≤ s.memSize) :
    memRead s a n = .ok (readBytes s a n) := by
  rw [memRead, if_pos ((inRange_iff _ _ _).2 h)]

theorem memRead_of_not_inRange {s : State} {a n : Nat} (h : ¬ (n = 0 ∨ a + n ≤ s.memSize)) :
    memRead s a n = .error .memRange := by
  rw [memRead, if_neg (by simpa [inRange_iff] using h)]

/-- Everything MemRead can answer. -/
theorem memRead_cases (s : State) (a n : Nat) :
    ((n = 0 ∨ a + n ≤ s.memSize) ∧ memRead s a n = .ok (readBytes s a n)) ∨
    (n ≠ 0 ∧ s.memSize < a + n ∧ memRead s a n = .error .memRange) := by
  by_cases h : n = 0 ∨ a + n ≤ s.memSize
  · exact .inl ⟨h, memRead_of_inRange h⟩
  · exact .inr ⟨by omega, by omega, memRead_of_not_inRange h⟩

theorem memWrite_of_inRange {s : State} {a : Nat} {v : Bytes} (h : v.length = 0 ∨ a + v.length ≤ s.memSize) :
    memWrite s a v = .ok (writeBytes s a v) := by
  rw [memWrite, if_pos ((inRange_iff _ _ _).2 h)]

theorem memWrite_of_not_inRange {s : State} {a : Nat} {v : Bytes} (h : ¬ (v.length = 0 ∨ a + v.length ≤ s.memSize)) :
    memWrite s a v = .error .memRange := by
  rw [memWrite, if_neg (by simpa [inRange_iff] using h)]

/-- Everything MemWrite can answer. -/
theorem memWrite_cases (s : State) (a : Nat) (v : Bytes) :
    ((v.length = 0 ∨ a + v.length ≤ s.memSize) ∧ memWrite s a v = .ok (writeBytes s a v)) ∨
    (v.length ≠ 0 ∧ s.memSize < a + v.length ∧ memWrite s a v = .error .memRange) := by
  by_cases h : v.length = 0 ∨ a + v.length ≤ s.memSize
  · exact .inl ⟨h, memWrite_of_inRange h⟩
  · exact .inr ⟨by omega, by omega, memWrite_of_not_inRange h⟩

end Sys2Proof.Machine
end

