-- ==== Sys2Proof/Laws/Ops.lean ====
section
/-! SUPPORT. What each shared operation can do, said once: how a command ends, the guards, the operand forms, one
equation per command, and the step (spec/60_exceptions.md R187; 20_memory.md R45). -/

namespace Sys2Proof.Machine

/-! ## `Except` in the commands' pseudocode -/

@[simp] theorem except_ok_bind {α β : Type} (a : α) (f : α → Except ErrKind β) :
    ((Except.ok a : Except ErrKind α) >>= f) = f a := rfl

@[simp] theorem except_error_bind {α β : Type} (e : ErrKind) (f : α → Except ErrKind β) :
    ((Except.error e : Except ErrKind α) >>= f) = .error e := rfl

@[simp] theorem except_pure {α : Type} (a : α) : (pure a : Except ErrKind α) = .ok a := rfl

theorem except_bind_eq_ok {α β : Type} {x : Except ErrKind α} {f : α → Except ErrKind β} {b : β} :
    (x >>= f) = .ok b ↔ ∃ a, x = .ok a ∧ f a = .ok b := by
  cases x <;> simp

theorem except_bind_eq_error {α β : Type} {x : Except ErrKind α} {f : α → Except ErrKind β} {e : ErrKind} :
    (x >>= f) = .error e ↔ x = .error e ∨ ∃ a, x = .ok a ∧ f a = .error e := by
  cases x <;> simp

/-! ## How a command ends -/

@[simp] theorem complete_ok (f : State → State) (s t : State) : complete f s (.ok t) = .next (succeed t) := rfl

@[simp] theorem complete_error (f : State → State) (s : State) (e : ErrKind) :
    complete f s (.error e) = .next (raise e (f s)) := rfl

/-- A command always ends in a next state: with success, or with one error (R187). -/
theorem complete_cases {f : State → State} {s t : State} {r : Except ErrKind State} (h : complete f s r = .next t) :
    (∃ u, r = .ok u ∧ t = succeed u) ∨ (∃ e, r = .error e ∧ t = raise e (f s)) := by
  cases r with
  | ok u => exact .inl ⟨u, rfl, (Host.Outcome.next.inj h).symm⟩
  | error e => exact .inr ⟨e, rfl, (Host.Outcome.next.inj h).symm⟩

theorem complete_next (f : State → State) (s : State) (r : Except ErrKind State) : ∃ t, complete f s r = .next t := by
  cases r <;> exact ⟨_, rfl⟩

theorem code_ne_zero (e : ErrKind) : e.code ≠ 0 := by cases e <;> decide

theorem code_le (e : ErrKind) : e.code.toNat ≤ 11 := by cases e <;> decide

/-! ## Guards and operands -/

@[simp] theorem raiseIf_true (e : ErrKind) : raiseIf true e = .error e := rfl

@[simp] theorem raiseIf_false (e : ErrKind) : raiseIf false e = .ok () := rfl

theorem raiseIf_eq_ok {c : Bool} {e : ErrKind} {u : Unit} : raiseIf c e = .ok u ↔ c = false := by
  cases c <;> simp [raiseIf]

theorem raiseIf_eq_error {c : Bool} {e e' : ErrKind} : raiseIf c e = .error e' ↔ c = true ∧ e' = e := by
  cases c <;> simp [raiseIf, eq_comm]

theorem requireKey_of {s : State} (h : s.KV = true) : requireKey s = .ok () := by simp [requireKey, h]

theorem requireKey_without {s : State} (h : s.KV = false) : requireKey s = .error .noKey := by simp [requireKey, h]

theorem requireKey_eq_ok {s : State} {u : Unit} : requireKey s = .ok u ↔ s.KV = true := by
  simp [requireKey, raiseIf_eq_ok]

/-- If 16 bytes are read through the descriptor they are the 16 at `SRC`, and `LEN` is 16 (R40). -/
theorem readSource16_eq_ok {s : State} {e : ErrKind} {b : Block} :
    readSource16 s e = .ok b ↔ s.LEN.toNat = 16 ∧ s.SRC.toNat + 16 ≤ s.memSize ∧
      b = blockOfBytes (readBytes s s.SRC.toNat 16) := by
  have hc := memRead_cases s s.SRC.toNat 16
  by_cases hl : s.LEN.toNat = 16
  · rcases hc with ⟨h, hr⟩ | ⟨_, h, hr⟩
    · simp [readSource16, srcLen, srcAddr, hl, hr, eq_comm]; omega
    · simp [readSource16, srcLen, srcAddr, hl, hr]; omega
  · have hb : (s.LEN.toNat != 16) = true := by simpa using hl
    simp [readSource16, srcLen, hb, hl]

theorem readSource16_eq_error {s : State} {e e' : ErrKind} :
    readSource16 s e = .error e' ↔ (s.LEN.toNat ≠ 16 ∧ e' = e) ∨
      (s.LEN.toNat = 16 ∧ s.memSize < s.SRC.toNat + 16 ∧ e' = .memRange) := by
  have hc := memRead_cases s s.SRC.toNat 16
  by_cases hl : s.LEN.toNat = 16
  · rcases hc with ⟨h, hr⟩ | ⟨_, h, hr⟩
    · simp [readSource16, srcLen, srcAddr, hl, hr]; omega
    · simp [readSource16, srcLen, srcAddr, hl, hr, eq_comm]; omega
  · have hb : (s.LEN.toNat != 16) = true := by simpa using hl
    simp [readSource16, srcLen, hb, hl, eq_comm]

theorem readSource_eq_ok {s : State} {l : Bytes} :
    readSource s = .ok l ↔ (s.LEN.toNat = 0 ∨ s.SRC.toNat + s.LEN.toNat ≤ s.memSize) ∧
      l = readBytes s s.SRC.toNat s.LEN.toNat := by
  rcases memRead_cases s s.SRC.toNat s.LEN.toNat with ⟨h, hr⟩ | ⟨h₁, h₂, hr⟩
  · simp only [readSource, srcLen, srcAddr, hr, Except.ok.injEq]
    exact ⟨fun e => ⟨h, e.symm⟩, fun e => e.2.symm⟩
  · simp only [readSource, srcLen, srcAddr, hr, reduceCtorEq, false_iff]; omega

theorem readSource_eq_error {s : State} {e : ErrKind} :
    readSource s = .error e ↔ s.LEN.toNat ≠ 0 ∧ s.memSize < s.SRC.toNat + s.LEN.toNat ∧ e = .memRange := by
  rcases memRead_cases s s.SRC.toNat s.LEN.toNat with ⟨h, hr⟩ | ⟨h₁, h₂, hr⟩
  · simp only [readSource, srcLen, srcAddr, hr, reduceCtorEq, false_iff]; omega
  · simp [readSource, srcLen, srcAddr, hr, h₁, h₂, eq_comm]

/-- If a result is written it is at `DST`, inside MEM, with its length in `OLEN`. -/
theorem writeResult_eq_ok {s t : State} {out : Bytes} :
    writeResult s out = .ok t ↔ (out.length = 0 ∨ s.DST.toNat + out.length ≤ s.memSize) ∧
      t = { writeBytes s s.DST.toNat out with OLEN := BitVec.ofNat 32 out.length } := by
  rcases memWrite_cases s s.DST.toNat out with ⟨h, hr⟩ | ⟨h₁, h₂, hr⟩
  · simp only [writeResult, dstAddr, hr, except_ok_bind, except_pure, Except.ok.injEq]
    exact ⟨fun e => ⟨h, e.symm⟩, fun e => e.2.symm⟩
  · simp only [writeResult, dstAddr, hr, except_error_bind, reduceCtorEq, false_iff]; omega

theorem writeResult_eq_error {s : State} {out : Bytes} {e : ErrKind} :
    writeResult s out = .error e ↔ out.length ≠ 0 ∧ s.memSize < s.DST.toNat + out.length ∧ e = .memRange := by
  rcases memWrite_cases s s.DST.toNat out with ⟨h, hr⟩ | ⟨h₁, h₂, hr⟩
  · simp only [writeResult, dstAddr, hr, except_ok_bind, except_pure, reduceCtorEq, false_iff]; omega
  · simp only [writeResult, dstAddr, hr, except_error_bind, Except.error.injEq]
    exact ⟨fun e => ⟨h₁, h₂, e.symm⟩, fun e => e.2.2.symm⟩

theorem selectMode_eq_ok {m : Byte} {c : CipherMode} :
    selectMode m = .ok c ↔ (m = 0 ∧ c = .ecb) ∨ (m = 1 ∧ c = .cbc) ∨ (m = 2 ∧ c = .ctr) := by
  unfold selectMode
  split
  · rename_i h; subst h; simp [eq_comm]
  · split
    · rename_i h; subst h; simp [eq_comm]
    · split
      · rename_i h; subst h; simp [eq_comm]
      · simp_all

theorem selectMode_eq_error {m : Byte} {e : ErrKind} : selectMode m = .error e ↔ 2 < m.toNat ∧ e = .invalidMode := by
  have key : 2 < m.toNat ↔ m ≠ 0 ∧ m ≠ 1 ∧ m ≠ 2 := by
    constructor
    · intro h; refine ⟨?_, ?_, ?_⟩ <;> (rintro rfl; simp at h)
    · intro h; have := h.1; have := h.2.1; have := h.2.2; bv_omega
  unfold selectMode
  split
  · rename_i h; subst h; simp
  · split
    · rename_i h; subst h; simp
    · split
      · rename_i h; subst h; simp
      · rw [key]
        rename_i h0 h1 h2
        exact ⟨fun e => ⟨⟨h0, h1, h2⟩, (Except.error.inj e).symm⟩, fun e => by rw [e.2]⟩

/-! ## The step -/

/-- Everything one step can be: nothing to do, or the host's next step on the state without it. -/
theorem step_cases (s : State) :
    (s.pending = [] ∧ step s = .next s) ∨
    ∃ h rest, s.pending = h :: rest ∧ step s = hostStep h { s with pending := rest } := by
  unfold step
  cases hp : s.pending with
  | nil => exact .inl ⟨rfl, rfl⟩
  | cons h rest => exact .inr ⟨h, rest, rfl, rfl⟩

theorem step_cons {s : State} {h : HostStep} {rest : List HostStep} (hp : s.pending = h :: rest) :
    step s = hostStep h { s with pending := rest } := by simp [step, hp]

theorem hostStep_command (w : Word) (s : State) : hostStep (.writePort 0 w) s = command w s := rfl

theorem command_of_decode {w : Word} {i : Instr} (h : decode w = .ok i) (s : State) : command w s = exec i s := by
  simp [command, h]

theorem command_of_illegal {w : Word} {e : IllegalWord} (h : decode w = .error e) (s : State) :
    command w s = .next (raise .illegalCommand s) := by simp [command, h, execIllegal]

end Sys2Proof.Machine
end

