-- ==== Sys2Proof/Laws/Exec.lean ====
section
/-! SUPPORT. One equation per command: `exec` of it is `complete` of its pseudocode, with what its failure writes; and what
follows for every command. -/

namespace Sys2Proof.Machine

theorem exec_clre (s : State) : exec .clre s =
    complete keepAll s (.ok { s with ESTICKY := false }) := rfl

theorem exec_gmul (a b : Byte) (s : State) : exec (.gmul a b) s =
    complete keepAll s (.ok { s with R := gmul a b }) := rfl

theorem exec_xtime (x : Byte) (s : State) : exec (.xtime x) s =
    complete keepAll s (.ok { s with R := xtime x }) := rfl

theorem exec_sbox (x : Byte) (s : State) : exec (.sbox x) s =
    complete keepAll s (.ok { s with R := sBox x }) := rfl

theorem exec_isbox (x : Byte) (s : State) : exec (.isbox x) s =
    complete keepAll s (.ok { s with R := invSBox x }) := rfl

theorem exec_lds (imm24 : BitVec 24) (s : State) : exec (.lds imm24) s =
    complete keepAll s (do
    let b ← memRead s (immAddr imm24) 16
    return { s with S := blockOfBytes b }) := rfl

theorem exec_sts (imm24 : BitVec 24) (s : State) : exec (.sts imm24) s =
    complete keepAll s (memWrite s (immAddr imm24) (bytesOfBlock s.S)) := rfl

theorem exec_subb (s : State) : exec .subb s =
    complete keepAll s (.ok { s with S := SubBytes s.S }) := rfl

theorem exec_isubb (s : State) : exec .isubb s =
    complete keepAll s (.ok { s with S := InvSubBytes s.S }) := rfl

theorem exec_shrows (s : State) : exec .shrows s =
    complete keepAll s (.ok { s with S := ShiftRows s.S }) := rfl

theorem exec_ishrows (s : State) : exec .ishrows s =
    complete keepAll s (.ok { s with S := InvShiftRows s.S }) := rfl

theorem exec_mixc (s : State) : exec .mixc s =
    complete keepAll s (.ok { s with S := MixColumns s.S }) := rfl

theorem exec_imixc (s : State) : exec .imixc s =
    complete keepAll s (.ok { s with S := InvMixColumns s.S }) := rfl

theorem exec_ark (i : BitVec 4) (s : State) : exec (.ark i) s =
    complete keepAll s (do
    let k ← roundKeyAt s.RK i
    requireKey s
    return { s with S := AddRoundKey s.S k }) := rfl

theorem exec_kexp (s : State) : exec .kexp s =
    complete dropKey s (do
    let key ← readSource16 s .unsupportedKeySize
    return { s with RK := KeyExpand key, KV := true }) := rfl

theorem exec_ldiv (s : State) : exec .ldiv s =
    complete dropIV s (do
    let b ← readSource16 s .invalidIVLength
    return { s with IV := b, IVOK := true }) := rfl

theorem exec_ldnc (s : State) : exec .ldnc s =
    complete dropIV s (do
    let b ← readSource16 s .invalidNonceLength
    return { s with IV := b, IVOK := true }) := rfl

theorem exec_enc (s : State) : exec .enc s =
    complete keepAll s (do
    requireKey s
    return { s with S := EncryptBlock s.RK s.S }) := rfl

theorem exec_dec (s : State) : exec .dec s =
    complete keepAll s (do
    requireKey s
    return { s with S := DecryptBlock s.RK s.S }) := rfl

theorem exec_setsrc (imm24 : BitVec 24) (s : State) : exec (.setsrc imm24) s =
    complete keepAll s (.ok { s with SRC := zext32 imm24 }) := rfl

theorem exec_setlen (imm24 : BitVec 24) (s : State) : exec (.setlen imm24) s =
    complete keepAll s (.ok { s with LEN := zext32 imm24 }) := rfl

theorem exec_setdst (imm24 : BitVec 24) (s : State) : exec (.setdst imm24) s =
    complete keepAll s (.ok { s with DST := zext32 imm24 }) := rfl

theorem exec_pad (s : State) : exec .pad s =
    complete clearOlen s (do
    raiseIf (decide (16 < srcLen s)) .badLength
    let last ← readSource s
    writeResult s (AddPadding last)) := rfl

theorem exec_unpad (s : State) : exec .unpad s =
    complete clearOlen s (do
    raiseIf (srcLen s == 0) .badLength
    let buf ← readSource s
    let r ← paddedOrRaise (RemovePadding buf)
    return { s with OLEN := BitVec.ofNat 32 r.length }) := rfl

theorem exec_menc (mode : Byte) (s : State) : exec (.menc mode) s =
    complete clearOlen s (do
    let m ← selectMode mode
    requireKey s
    requireIV m s
    let pt ← readSource s
    let out ← modeEncrypt m s.RK s.IV pt
    writeResult s out) := rfl

theorem exec_mdec (mode : Byte) (s : State) : exec (.mdec mode) s =
    complete clearOlen s (do
    let m ← selectMode mode
    requireKey s
    checkCipherLength m (srcLen s)
    let ct ← readSource s
    let out ← modeDecrypt m s.RK ct
    writeResult s out) := rfl

/-- What a command's failure writes beside `ERR` and `ESTICKY` (R187). -/
def onErrorOf : Instr → State → State
  | .kexp => dropKey
  | .ldiv | .ldnc => dropIV
  | .pad | .unpad | .menc _ | .mdec _ => clearOlen
  | .clre | .gmul _ _ | .xtime _ | .sbox _ | .isbox _ | .lds _ | .sts _ | .subb | .isubb | .shrows | .ishrows | .mixc
  | .imixc | .ark _ | .enc | .dec | .setsrc _ | .setlen _ | .setdst _ => keepAll

/-- Every command is some pseudocode under `complete`, with its own failure writes. -/
theorem exec_eq_complete (i : Instr) (s : State) : ∃ r, exec i s = complete (onErrorOf i) s r := by
  cases i with
  | clre => exact ⟨_, exec_clre s⟩
  | gmul a b => exact ⟨_, exec_gmul a b s⟩
  | xtime x => exact ⟨_, exec_xtime x s⟩
  | sbox x => exact ⟨_, exec_sbox x s⟩
  | isbox x => exact ⟨_, exec_isbox x s⟩
  | lds imm24 => exact ⟨_, exec_lds imm24 s⟩
  | sts imm24 => exact ⟨_, exec_sts imm24 s⟩
  | subb => exact ⟨_, exec_subb s⟩
  | isubb => exact ⟨_, exec_isubb s⟩
  | shrows => exact ⟨_, exec_shrows s⟩
  | ishrows => exact ⟨_, exec_ishrows s⟩
  | mixc => exact ⟨_, exec_mixc s⟩
  | imixc => exact ⟨_, exec_imixc s⟩
  | ark i => exact ⟨_, exec_ark i s⟩
  | kexp => exact ⟨_, exec_kexp s⟩
  | ldiv => exact ⟨_, exec_ldiv s⟩
  | ldnc => exact ⟨_, exec_ldnc s⟩
  | enc => exact ⟨_, exec_enc s⟩
  | dec => exact ⟨_, exec_dec s⟩
  | setsrc imm24 => exact ⟨_, exec_setsrc imm24 s⟩
  | setlen imm24 => exact ⟨_, exec_setlen imm24 s⟩
  | setdst imm24 => exact ⟨_, exec_setdst imm24 s⟩
  | pad => exact ⟨_, exec_pad s⟩
  | unpad => exact ⟨_, exec_unpad s⟩
  | menc mode => exact ⟨_, exec_menc mode s⟩
  | mdec mode => exact ⟨_, exec_mdec mode s⟩

/-- Every command ends in a next state (R186, R187). -/
theorem exec_next (i : Instr) (s : State) : ∃ t, exec i s = .next t := by
  obtain ⟨r, h⟩ := exec_eq_complete i s
  rw [h]
  exact complete_next _ s r

/-- Every command succeeds or raises one error with its own failure writes (R187). -/
theorem exec_cases {i : Instr} {s t : State} (h : exec i s = .next t) :
    t.ERR = 0 ∨ ∃ e : ErrKind, t = raise e (onErrorOf i s) := by
  obtain ⟨r, hr⟩ := exec_eq_complete i s
  rw [hr] at h
  rcases complete_cases h with ⟨u, _, rfl⟩ | ⟨e, _, rfl⟩
  · exact .inl rfl
  · exact .inr ⟨e, rfl⟩

end Sys2Proof.Machine
end

