-- ==== Sys2Proof/Laws/Attack.lean ====
section
/-! SUPPORT. The laws of procedures that ask an oracle: running one after another, against an oracle that answers as a function
does, with the queries it makes; and of threads that take turns (spec/46_oracle_attack.md R171, R173, R178). -/

namespace Sys2Proof.Machine

variable {α β σ : Type}

/-! ## Running a procedure -/

@[simp] theorem Proc.run_done (o : Oracle σ) (a : α) (s : σ) : (Proc.done a).run o s = (a, s) := rfl

@[simp] theorem Proc.run_ask (o : Oracle σ) (q : Bytes) (next : Bool → Proc α) (s : σ) :
    (Proc.ask q next).run o s = (next (o s q).1).run o (o s q).2 := rfl

@[simp] theorem Proc.bind_done (f : α → Proc β) (a : α) : (Proc.done a).bind f = f a := rfl

@[simp] theorem Proc.bind_ask (f : α → Proc β) (q : Bytes) (next : Bool → Proc α) :
    (Proc.ask q next).bind f = .ask q fun ok => (next ok).bind f := rfl

/-- One procedure after another runs the second from where the first left the oracle. -/
theorem Proc.run_bind (o : Oracle σ) (f : α → Proc β) (p : Proc α) (s : σ) :
    (p.bind f).run o s = (f (p.run o s).1).run o (p.run o s).2 := by
  induction p generalizing s with
  | done a => rfl
  | ask q next ih => exact ih _ _

/-! ## Against an oracle that answers as a function does -/

@[simp] theorem Proc.eval_done (f : Bytes → Bool) (a : α) : (Proc.done a).eval f = a := rfl

@[simp] theorem Proc.eval_ask (f : Bytes → Bool) (q : Bytes) (next : Bool → Proc α) :
    (Proc.ask q next).eval f = (next (f q)).eval f := rfl

@[simp] theorem Proc.eval_bind (f : Bytes → Bool) (g : α → Proc β) (p : Proc α) :
    (p.bind g).eval f = (g (p.eval f)).eval f := by simp only [Proc.eval, Proc.run_bind]

@[simp] theorem Proc.cost_done (f : Bytes → Bool) (a : α) : (Proc.done a).cost f = 0 := rfl

@[simp] theorem Proc.cost_ask (f : Bytes → Bool) (q : Bytes) (next : Bool → Proc α) :
    (Proc.ask q next).cost f = (next (f q)).cost f + 1 := rfl

@[simp] theorem Proc.cost_bind (f : Bytes → Bool) (g : α → Proc β) (p : Proc α) :
    (p.bind g).cost f = p.cost f + (g (p.eval f)).cost f := by
  induction p with
  | done a => simp
  | ask q next ih => simp [ih, Nat.add_right_comm]

/-! ## The queries a procedure makes -/

/-- Every query the procedure can make, whatever it is answered, is as `P` says. -/
def Proc.Asks (P : Bytes → Prop) : Proc α → Prop
  | .done _ => True
  | .ask q next => P q ∧ ∀ ok, (next ok).Asks P

theorem Proc.asks_bind {P : Bytes → Prop} {f : α → Proc β} {p : Proc α} (hp : p.Asks P) (hf : ∀ a, (f a).Asks P) :
    (p.bind f).Asks P := by
  induction p with
  | done a => exact hf a
  | ask q next ih => exact ⟨hp.1, fun ok => ih ok (hp.2 ok)⟩

/-- An oracle that answers as `f` does, as long as its state is in `I`, and keeps it there, gives what `f` gives. -/
theorem Proc.run_eq_eval {P : Bytes → Prop} {I : σ → Prop} {o : Oracle σ} {f : Bytes → Bool}
    (ho : ∀ s q, I s → P q → (o s q).1 = f q ∧ I (o s q).2) {p : Proc α} (hp : p.Asks P) {s : σ} (hs : I s) :
    (p.run o s).1 = p.eval f ∧ I (p.run o s).2 := by
  induction p generalizing s with
  | done a => exact ⟨rfl, hs⟩
  | ask q next ih =>
    obtain ⟨ha, hi⟩ := ho s q hs hp.1
    simpa [ha] using ih _ (hp.2 _) hi

/-! ## The attack's queries are 32 bytes (R171, R173) -/

theorem forge_length (cprev : Block) (z : Nat) (v : Byte) (solved : Bytes) (h : z + solved.length = 15) :
    (forge cprev z v solved).length = 16 := by simp [forge]; omega

@[simp] theorem probe_length (l : Bytes) : (probe l).length = l.length := by simp [probe]

theorem accepts_asks (cprev clast : Block) (z : Nat) (solved : Bytes) (v : Byte) (h : z + solved.length = 15) :
    (accepts cprev (bytesOfBlock clast) z solved v).Asks (fun q => q.length = 32) := by
  refine ⟨by simp [forge_length _ _ _ _ h], fun ok => ?_⟩
  cases ok
  · trivial
  · by_cases hz : z = 15
    · simp only [hz, if_true]
      exact ⟨by simp [forge_length _ _ _ _ (hz ▸ h)], fun _ => trivial⟩
    · simp only [hz, if_true, if_false]
      trivial

theorem solveByte_asks (cprev clast : Block) (z : Nat) (solved vs : Bytes) (h : z + solved.length = 15) :
    (solveByte cprev (bytesOfBlock clast) z solved vs).Asks (fun q => q.length = 32) := by
  induction vs with
  | nil => trivial
  | cons v vs ih =>
    refine Proc.asks_bind (accepts_asks cprev clast z solved v h) fun ok => ?_
    cases ok
    · exact ih
    · trivial

theorem solveFrom_asks (cprev clast : Block) (n : Nat) (solved : Bytes) (h : n + solved.length = 16) :
    (solveFrom cprev (bytesOfBlock clast) n solved).Asks (fun q => q.length = 32) := by
  induction n generalizing solved with
  | zero => trivial
  | succ z ih =>
    refine Proc.asks_bind (solveByte_asks cprev clast z solved _ (by omega)) fun r => ?_
    cases r with
    | none => trivial
    | some b => exact ih (b :: solved) (by simp; omega)

theorem attackBlock_asks (cprev clast : Block) : (attackBlock cprev clast).Asks (fun q => q.length = 32) :=
  Proc.asks_bind (solveFrom_asks cprev clast 16 [] rfl) fun _ => trivial

theorem attackPairs_asks (l : List (Block × Block)) : (attackPairs l).Asks (fun q => q.length = 32) := by
  induction l with
  | nil => trivial
  | cons p rest ih =>
    refine Proc.asks_bind ih fun r => ?_
    cases r with
    | none => trivial
    | some ps => exact Proc.asks_bind (attackBlock_asks p.1 p.2) fun _ => trivial

theorem attack_asks (ct : Bytes) : (attack ct).Asks (fun q => q.length = 32) :=
  Proc.asks_bind (attackPairs_asks _) fun _ => trivial

/-! ## Threads -/

theorem takeTurns_append (us vs : List Turn) (ths : List (Thread α)) (s : State) :
    takeTurns (us ++ vs) ths s = takeTurns vs (takeTurns us ths s).1 (takeTurns us ths s).2 := by
  induction us generalizing ths s with
  | nil => rfl
  | cons u us ih => exact ih _ _

/-- A turn changes at most the thread whose turn it is. -/
theorem onThread_other (act : Thread α → State → Thread α × State) {i j : Nat} (h : i ≠ j) (ths : List (Thread α))
    (s : State) : (onThread act i ths s).1[j]? = ths[j]? := by
  unfold onThread
  split
  · rfl
  · simp [h]

theorem onThread_self (act : Thread α → State → Thread α × State) {j : Nat} {ths : List (Thread α)} {th : Thread α}
    (h : ths[j]? = some th) (s : State) :
    (onThread act j ths s).1[j]? = some (act th s).1 ∧ (onThread act j ths s).2 = (act th s).2 := by
  have hj : j < ths.length := (List.getElem?_eq_some_iff.1 h).1
  simp only [onThread, h]
  simp [hj]

/-! ## The hardware-built oracle's operations -/

theorem queryFits_iff (s : State) (src : BitVec 24) (n : Nat) :
    queryFits s src n = true ↔ n < 2 ^ 24 ∧ (n = 0 ∨ src.toNat + n ≤ s.memSize) := by
  simp [queryFits, inRange_iff]

/-- A query that fits stands at its place, and nothing else of MEM has changed. -/
theorem putQuery_of_fits {s : State} {src : BitVec 24} {ct : Bytes} (h : queryFits s src ct.length = true) :
    readBytes (putQuery src ct s) src.toNat ct.length = ct ∧
    ∀ x, x < src.toNat ∨ src.toNat + ct.length ≤ x → readByte (putQuery src ct s) x = readByte s x := by
  simp only [putQuery, h, if_true]
  exact ⟨readBytes_writeBytes_self s _ ct, fun x hx => readByte_writeBytes_outside s _ ct x hx⟩

end Sys2Proof.Machine
end

