-- ==== Sys2Proof/Laws/PerInstr.lean ====
section
/-! SUPPORT. The family EncodeMatchesRow: the word of every command has the bits of its own row of R60 under that row's mask. -/

namespace Sys2Proof.Laws.EncodeMatchesRow

/-- The command's word satisfies some row of R60 that bears the command's mnemonic. -/
def Statement (i : Instr) : Prop :=
  i.wf = true → ∃ row ∈ opTable, row.mnemonic = i.mnemonic ∧ encode i &&& row.mask = row.bits

/-- Masking two appended fields is field by field. -/
theorem append_and {n m : Nat} (a c : BitVec n) (b d : BitVec m) : (a ++ b) &&& (c ++ d) = (a &&& c) ++ (b &&& d) := by
  ext i h
  simp only [BitVec.getElem_and, BitVec.getElem_append]
  split <;> simp

/-- The mask 0xFF keeps an opcode. -/
theorem opcode_mask (op : BitVec 8) : op &&& 0xFF = op := BitVec.and_allOnes

/-- Format A: the mask 0xFF000000 keeps the opcode. -/
theorem maskA (op : BitVec 8) (x : BitVec 24) : word op x &&& 0xFF000000 = word op 0 :=
  (append_and op 0xFF x 0).trans (congrArg₂ word (opcode_mask op) BitVec.and_zero)

/-- Format B: the mask 0xFFFF0000 keeps the opcode and `bits[23:16]`. -/
theorem maskB (op : BitVec 8) (a b : Byte) : word op ((0 : BitVec 8) ++ a ++ b) &&& 0xFFFF0000 = word op 0 := by
  have h : HAnd.hAnd (α := BitVec (8 + 8 + 8)) ((0 : BitVec 8) ++ a ++ b)
      ((0xFF : BitVec 8) ++ (0 : BitVec 8) ++ (0 : BitVec 8)) = (0 : BitVec (8 + 8 + 8)) := by
    rw [append_and, append_and]; simp
  exact (append_and op 0xFF ((0 : BitVec 8) ++ a ++ b) _).trans (congrArg₂ word (opcode_mask op) h)

/-- Formats X and M: the mask 0xFFFFFF00 keeps all but the low byte. -/
theorem maskX (op : BitVec 8) (x : Byte) : word op ((0 : BitVec 16) ++ x) &&& 0xFFFFFF00 = word op 0 := by
  have h : ((0 : BitVec 16) ++ x) &&& ((0xFFFF : BitVec 16) ++ (0 : BitVec 8)) = 0 := by rw [append_and]; simp
  exact (append_and op 0xFF ((0 : BitVec 16) ++ x) _).trans (congrArg₂ word (opcode_mask op) h)

/-- Format I: the mask 0xFFFFFFF0 keeps all but the low four bits. -/
theorem maskI (op : BitVec 8) (k : BitVec 4) : word op ((0 : BitVec 20) ++ k) &&& 0xFFFFFFF0 = word op 0 := by
  have h : ((0 : BitVec 20) ++ k) &&& ((0xFFFFF : BitVec 20) ++ (0 : BitVec 4)) = 0 := by rw [append_and]; simp
  exact (append_and op 0xFF ((0 : BitVec 20) ++ k) _).trans (congrArg₂ word (opcode_mask op) h)

theorem clre : Statement .clre := fun _ =>
  ⟨⟨"CLRE", 0xFFFFFFFF, 0x01000000⟩, by decide, rfl, rfl⟩

theorem gmul (a b : Byte) : Statement (.gmul a b) := fun _ =>
  ⟨⟨"GMUL", 0xFFFF0000, 0x10000000⟩, by decide, rfl, maskB 0x10 a b⟩

theorem xtime (x : Byte) : Statement (.xtime x) := fun _ =>
  ⟨⟨"XTIME", 0xFFFFFF00, 0x11000000⟩, by decide, rfl, maskX 0x11 x⟩

theorem sbox (x : Byte) : Statement (.sbox x) := fun _ =>
  ⟨⟨"SBOX", 0xFFFFFF00, 0x12000000⟩, by decide, rfl, maskX 0x12 x⟩

theorem isbox (x : Byte) : Statement (.isbox x) := fun _ =>
  ⟨⟨"ISBOX", 0xFFFFFF00, 0x13000000⟩, by decide, rfl, maskX 0x13 x⟩

theorem lds (a : BitVec 24) : Statement (.lds a) := fun _ =>
  ⟨⟨"LDS", 0xFF000000, 0x20000000⟩, by decide, rfl, maskA 0x20 a⟩

theorem sts (a : BitVec 24) : Statement (.sts a) := fun _ =>
  ⟨⟨"STS", 0xFF000000, 0x21000000⟩, by decide, rfl, maskA 0x21 a⟩

theorem subb : Statement .subb := fun _ =>
  ⟨⟨"SUBB", 0xFFFFFFFF, 0x30000000⟩, by decide, rfl, rfl⟩

theorem isubb : Statement .isubb := fun _ =>
  ⟨⟨"ISUBB", 0xFFFFFFFF, 0x31000000⟩, by decide, rfl, rfl⟩

theorem shrows : Statement .shrows := fun _ =>
  ⟨⟨"SHROWS", 0xFFFFFFFF, 0x32000000⟩, by decide, rfl, rfl⟩

theorem ishrows : Statement .ishrows := fun _ =>
  ⟨⟨"ISHROWS", 0xFFFFFFFF, 0x33000000⟩, by decide, rfl, rfl⟩

theorem mixc : Statement .mixc := fun _ =>
  ⟨⟨"MIXC", 0xFFFFFFFF, 0x34000000⟩, by decide, rfl, rfl⟩

theorem imixc : Statement .imixc := fun _ =>
  ⟨⟨"IMIXC", 0xFFFFFFFF, 0x35000000⟩, by decide, rfl, rfl⟩

theorem ark (k : BitVec 4) : Statement (.ark k) := fun _ =>
  ⟨⟨"ARK", 0xFFFFFFF0, 0x36000000⟩, by decide, rfl, maskI 0x36 k⟩

theorem kexp : Statement .kexp := fun _ =>
  ⟨⟨"KEXP", 0xFFFFFFFF, 0x40000000⟩, by decide, rfl, rfl⟩

theorem ldiv : Statement .ldiv := fun _ =>
  ⟨⟨"LDIV", 0xFFFFFFFF, 0x41000000⟩, by decide, rfl, rfl⟩

theorem ldnc : Statement .ldnc := fun _ =>
  ⟨⟨"LDNC", 0xFFFFFFFF, 0x42000000⟩, by decide, rfl, rfl⟩

theorem enc : Statement .enc := fun _ =>
  ⟨⟨"ENC", 0xFFFFFFFF, 0x50000000⟩, by decide, rfl, rfl⟩

theorem dec : Statement .dec := fun _ =>
  ⟨⟨"DEC", 0xFFFFFFFF, 0x51000000⟩, by decide, rfl, rfl⟩

theorem setsrc (a : BitVec 24) : Statement (.setsrc a) := fun _ =>
  ⟨⟨"SETSRC", 0xFF000000, 0x60000000⟩, by decide, rfl, maskA 0x60 a⟩

theorem setlen (a : BitVec 24) : Statement (.setlen a) := fun _ =>
  ⟨⟨"SETLEN", 0xFF000000, 0x61000000⟩, by decide, rfl, maskA 0x61 a⟩

theorem setdst (a : BitVec 24) : Statement (.setdst a) := fun _ =>
  ⟨⟨"SETDST", 0xFF000000, 0x62000000⟩, by decide, rfl, maskA 0x62 a⟩

theorem pad : Statement .pad := fun _ =>
  ⟨⟨"PAD", 0xFFFFFFFF, 0x70000000⟩, by decide, rfl, rfl⟩

theorem unpad : Statement .unpad := fun _ =>
  ⟨⟨"UNPAD", 0xFFFFFFFF, 0x71000000⟩, by decide, rfl, rfl⟩

theorem menc (m : Byte) : Statement (.menc m) := fun _ =>
  ⟨⟨"MENC", 0xFFFFFF00, 0x80000000⟩, by decide, rfl, maskX 0x80 m⟩

theorem mdec (m : Byte) : Statement (.mdec m) := fun _ =>
  ⟨⟨"MDEC", 0xFFFFFF00, 0x81000000⟩, by decide, rfl, maskX 0x81 m⟩

end Sys2Proof.Laws.EncodeMatchesRow
end

