-- ==== Sys2Proof/Tests/Slice0.lean ====
section
/-! SUPPORT. Tests: words written out from spec/30_encoding.md, one step of each command with the value that
spec/95_test_vectors.md gives for it (the vector is named), and for every statement with hypotheses a witness that meets them. -/

namespace Sys2Proof.Tests

open Sys2Proof.Machine Sys2Proof.Claims

-- One theorem at a time: the kernel's evaluations would otherwise hold one waiting thread each.
set_option Elab.async false

/-! ## Helpers -/

/-- The bytes a hexadecimal literal of `n` bytes writes, first byte first. -/
def bytesOf (n v : Nat) : Bytes := (List.range n).map fun i => BitVec.ofNat 8 (v >>> (8 * (n - 1 - i)))

/-- The Block a hexadecimal literal writes. -/
def blk (v : Nat) : Block := Vector.ofFn fun i : Fin 16 => BitVec.ofNat 8 (v >>> (8 * (15 - i.val)))

/-- The next state, if the outcome is one. -/
def nextOf (o : Host.Outcome State Fault Refusal) : Option State :=
  match o with
  | .next t => some t
  | .fault _ => none
  | .refused _ => none

/-- A machine of the least legal `MEMSIZE`, 64 bytes, right after reset. -/
def base : State := State.resetAt 64 0

/-- The descriptor set. -/
def at' (s : State) (src len dst : Nat) : State :=
  { s with SRC := BitVec.ofNat 32 src, LEN := BitVec.ofNat 32 len, DST := BitVec.ofNat 32 dst }

/-- The schedule of V15.2, as the spec prints it. -/
def rkV2 : RoundKeys :=
  #v[blk 0x2b7e151628aed2a6abf7158809cf4f3c, blk 0xa0fafe1788542cb123a339392a6c7605,
     blk 0xf2c295f27a96b9435935807a7359f67f, blk 0x3d80477d4716fe3e1e237e446d7a883b,
     blk 0xef44a541a8525b7fb671253bdb0bad00, blk 0xd4d1c6f87c839d87caf2b8bc11f915bc,
     blk 0x6d88a37a110b3efddbf98641ca0093fd, blk 0x4e54f70e5f5fc9f384a64fb24ea6dc4f,
     blk 0xead27321b58dbad2312bf5607f8d292f, blk 0xac7766f319fadc2128d12941575c006e,
     blk 0xd014f9a8c9ee2589e13f0cc8b6630ca6]

/-- `base` with that schedule loaded. -/
def keyed : State := { base with RK := rkV2, KV := true }

/-- `keyed` with an IV or nonce loaded. -/
def armed (iv : Nat) : State := { keyed with IV := blk iv, IVOK := true }

/-- `S` = `P`, the block 00 01 .. 0f of V12. -/
def onP : State := { base with S := blk 0x000102030405060708090a0b0c0d0e0f }

/-! ## Well-formedness: the one check refuses the ill-formed terms -/

theorem test_wf_ark_index : (Instr.ark 10).wf = true ∧ (Instr.ark 11).wf = false ∧ (Instr.ark 15).wf = false := by
  decide

theorem test_wf_pseudo_round : (Pseudo.rnde 0).wf = false ∧ (Pseudo.rnde 9).wf = true ∧ (Pseudo.rnde 10).wf = false ∧
    (Pseudo.rndd 0).wf = false ∧ (Pseudo.rndd 1).wf = true ∧ (Pseudo.rndd 10).wf = false := by decide

/-! ## Decoding: every row's word, and the illegal words of V29 -/

theorem test_decode_system_and_bytes :
    decode 0b00000001_00000000_00000000_00000000 = .ok .clre ∧
    decode 0b00010000_00000000_01010111_10000011 = .ok (.gmul 0x57 0x83) ∧
    decode 0b00010001_00000000_00000000_10000000 = .ok (.xtime 0x80) ∧
    decode 0b00010010_00000000_00000000_01010011 = .ok (.sbox 0x53) ∧
    decode 0b00010011_00000000_00000000_11101101 = .ok (.isbox 0xED) := ⟨rfl, rfl, rfl, rfl, rfl⟩

theorem test_decode_transforms :
    decode 0b00100000_00000000_00000000_01000000 = .ok (.lds 0x40) ∧
    decode 0b00100001_10000000_00000001_00000000 = .ok (.sts 0x800100) ∧
    decode 0b00110000_00000000_00000000_00000000 = .ok .subb ∧
    decode 0b00110001_00000000_00000000_00000000 = .ok .isubb ∧
    decode 0b00110010_00000000_00000000_00000000 = .ok .shrows ∧
    decode 0b00110011_00000000_00000000_00000000 = .ok .ishrows ∧
    decode 0b00110100_00000000_00000000_00000000 = .ok .mixc ∧
    decode 0b00110101_00000000_00000000_00000000 = .ok .imixc ∧
    decode 0b00110110_00000000_00000000_00001010 = .ok (.ark 10) :=
  ⟨rfl, rfl, rfl, rfl, rfl, rfl, rfl, rfl, rfl⟩

theorem test_decode_keys_and_engine :
    decode 0b01000000_00000000_00000000_00000000 = .ok .kexp ∧
    decode 0b01000001_00000000_00000000_00000000 = .ok .ldiv ∧
    decode 0b01000010_00000000_00000000_00000000 = .ok .ldnc ∧
    decode 0b01010000_00000000_00000000_00000000 = .ok .enc ∧
    decode 0b01010001_00000000_00000000_00000000 = .ok .dec := ⟨rfl, rfl, rfl, rfl, rfl⟩

theorem test_decode_buffers :
    decode 0b01100000_00000000_00000000_01000000 = .ok (.setsrc 0x40) ∧
    decode 0b01100001_00000000_00000000_00011110 = .ok (.setlen 30) ∧
    decode 0b01100010_00000000_00000001_00000000 = .ok (.setdst 0x100) ∧
    decode 0b01110000_00000000_00000000_00000000 = .ok .pad ∧
    decode 0b01110001_00000000_00000000_00000000 = .ok .unpad ∧
    decode 0b10000000_00000000_00000000_00000001 = .ok (.menc 1) ∧
    decode 0b10000001_00000000_00000000_11111111 = .ok (.mdec 255) := ⟨rfl, rfl, rfl, rfl, rfl, rfl, rfl⟩

theorem test_illegal_opcodes :
    decode 0x00000000 = .error .reservedOpcode ∧ decode 0xFFFFFFFF = .error .reservedOpcode ∧
    decode 0x02000000 = .error .reservedOpcode ∧ decode 0x14000000 = .error .reservedOpcode ∧
    decode 0x37000000 = .error .reservedOpcode ∧ decode 0x82000000 = .error .reservedOpcode :=
  ⟨rfl, rfl, rfl, rfl, rfl, rfl⟩

theorem test_illegal_bits :
    decode 0x01000001 = .error .reservedBits ∧ decode 0x34800000 = .error .reservedBits ∧
    decode 0x10010000 = .error .reservedBits ∧ decode 0x12000100 = .error .reservedBits ∧
    decode 0x36000010 = .error .reservedBits ∧ decode 0x80000100 = .error .reservedBits ∧
    decode 0x81010001 = .error .reservedBits ∧ decode 0x3600000B = .error .roundIndex ∧
    decode 0x3600000F = .error .roundIndex := ⟨rfl, rfl, rfl, rfl, rfl, rfl, rfl, rfl, rfl⟩

theorem test_table_word_and_fetch :
    decodeTableWord 32 0x61FFFFFF = some (.setlen 0xFFFFFF) ∧ decodeTableWord 32 0x3600000B = none ∧
    (nextOf (step (State.reset.withFetchWord 32 0x10005783))).map (·.R) = some 0xC1 := by decide +kernel

theorem test_assembler :
    assembleLine "GMUL 0x57, 0x83 ; customary".toList = .ok (some 0x10005783) ∧
    assembleLine "MDEC 7".toList = .ok (some 0x81000007) ∧ assembleLine "; note".toList = .ok none ∧
    assembleLine "ARK 11".toList = .error .operand := ⟨rfl, rfl, rfl, rfl⟩

/-! ## One step of each command, against the spec's vectors -/

/-- R193's example: CLRE leaves `KV`. -/
theorem test_clre : (nextOf (exec .clre { keyed with ERR := 9, ESTICKY := true })).map
    (fun t => (t.ERR, t.ESTICKY, t.KV)) = some (0, false, true) := by decide +kernel

/-- V10. -/
theorem test_gmul : (nextOf (exec (.gmul 0x0e 0x0b) base)).map (·.R) = some 0x62 ∧
    (nextOf (exec (.gmul 0x02 0x80) base)).map (·.R) = some 0x1b := by decide +kernel

/-- V9. -/
theorem test_xtime : (nextOf (exec (.xtime 0x80) base)).map (·.R) = some 0x1b ∧
    (nextOf (exec (.xtime 0x7f) base)).map (·.R) = some 0xfe := by decide +kernel

/-- V11. -/
theorem test_sbox : (nextOf (exec (.sbox 0xc9) base)).map (·.R) = some 0xdd := by decide +kernel

/-- V11. -/
theorem test_isbox : (nextOf (exec (.isbox 0xc9) base)).map (·.R) = some 0x12 := by decide +kernel

/-- V12. -/
theorem test_subb : (nextOf (exec .subb onP)).map (·.S) = some (blk 0x637c777bf26b6fc53001672bfed7ab76) := by
  decide +kernel

/-- V12. -/
theorem test_isubb : (nextOf (exec .isubb onP)).map (·.S) = some (blk 0x52096ad53036a538bf40a39e81f3d7fb) := by
  decide +kernel

/-- V12. -/
theorem test_shrows : (nextOf (exec .shrows onP)).map (·.S) = some (blk 0x00050a0f04090e03080d02070c01060b) := by
  decide +kernel

/-- V12. -/
theorem test_ishrows : (nextOf (exec .ishrows onP)).map (·.S) = some (blk 0x000d0a0704010e0b0805020f0c090603) := by
  decide +kernel

/-- V13, four of its columns side by side. -/
theorem test_mixc : (nextOf (exec .mixc { base with S := blk 0xdb135345f20a225cd4d4d4d52d26314c })).map (·.S) =
    some (blk 0x8e4da1bc9fdc589dd5d5d7d64d7ebdf8) := by decide +kernel

/-- V13, four of its columns side by side. -/
theorem test_imixc : (nextOf (exec .imixc { base with S := blk 0xdb135345f20a225cd4d4d4d52d26314c })).map (·.S) =
    some (blk 0x32a41d55aec36982ddd9dfdaa05050d6) := by decide +kernel

/-- V17.2: round 0 of V2, and V14's NoKey. -/
theorem test_ark :
    (nextOf (exec (.ark 0) { keyed with S := blk 0x3243f6a8885a308d313198a2e0370734 })).map (·.S) =
      some (blk 0x193de3bea0f4e22b9ac68d2ae9f84808) ∧
    (nextOf (exec (.ark 0) onP)).map (fun t => (t.S, t.ERR)) = some (onP.S, 7) := by decide +kernel

/-- R99's example, at the last legal address and one above it. -/
theorem test_lds :
    (nextOf (exec (.lds 48) (writeBytes base 48 (bytesOf 16 0x000102030405060708090a0b0c0d0e0f)))).map (·.S) =
      some onP.S ∧
    (nextOf (exec (.lds 49) onP)).map (fun t => (t.S, t.ERR)) = some (onP.S, 9) := by decide +kernel

/-- R100's example, unaligned (V14), and out of range. -/
theorem test_sts :
    (nextOf (exec (.sts 0x21) onP)).map (fun t => (readBytes t 0x21 16, t.MEM.length)) =
      some (bytesOf 16 0x000102030405060708090a0b0c0d0e0f, 16) ∧
    (nextOf (exec (.sts 0xFFFFF1) onP)).map (fun t => (t.MEM, t.ERR)) = some ([], 9) := by decide +kernel

/-- V15.2, V16. -/
theorem test_kexp :
    (nextOf (exec .kexp (at' (writeBytes base 0 (bytesOf 16 0x2b7e151628aed2a6abf7158809cf4f3c)) 0 16 0))).map
      (fun t => (t.RK, t.KV)) = some (rkV2, true) ∧
    (nextOf (exec .kexp (at' keyed 0xFFFFF1 24 0))).map (fun t => (t.KV, t.ERR)) = some (false, 1) := by decide +kernel

/-- R147's example: the IV, and a length of 8. -/
theorem test_ldiv :
    (nextOf (exec .ldiv (at' (writeBytes base 16 (bytesOf 16 0x39383736353433323130616263646566)) 16 16 0))).map
      (fun t => (t.IV, t.IVOK)) = some (blk 0x39383736353433323130616263646566, true) ∧
    (nextOf (exec .ldiv (at' (armed 0) 16 8 0))).map (fun t => (t.IVOK, t.ERR)) = some (false, 2) := by decide +kernel

/-- R148's example: the nonce, and a length of 8. -/
theorem test_ldnc :
    (nextOf (exec .ldnc (at' (writeBytes base 16 (bytesOf 16 0xf0f1f2f3f4f5f6f7f8f9fafbfcfdfeff)) 16 16 0))).map
      (fun t => (t.IV, t.IVOK)) = some (blk 0xf0f1f2f3f4f5f6f7f8f9fafbfcfdfeff, true) ∧
    (nextOf (exec .ldnc (at' (armed 0) 16 8 0))).map (fun t => (t.IVOK, t.ERR)) = some (false, 3) := by decide +kernel

/-- V2. -/
theorem test_enc : (nextOf (exec .enc { keyed with S := blk 0x3243f6a8885a308d313198a2e0370734 })).map (·.S) =
    some (blk 0x3925841d02dc09fbdc118597196a0b32) := by decide +kernel

/-- V17.2: DEC of the plaintext itself. -/
theorem test_dec : (nextOf (exec .dec { keyed with S := blk 0x3243f6a8885a308d313198a2e0370734 })).map (·.S) =
    some (blk 0xcb13389c1d59c1d50d11f6b90c38ce7f) := by decide +kernel

/-- R130 to R132: the top immediate is zero-extended (V29). -/
theorem test_descriptor :
    (nextOf (exec (.setsrc 0xFFFFFF) base)).map (·.SRC) = some 0x00FFFFFF ∧
    (nextOf (exec (.setlen 0xFFFFFF) base)).map (·.LEN) = some 0x00FFFFFF ∧
    (nextOf (exec (.setdst 0xFFFFFF) base)).map (·.DST) = some 0x00FFFFFF := by decide +kernel

/-- V19: 5 bytes, padded in place, and nothing at all from an address that does not exist. -/
theorem test_pad :
    (nextOf (exec .pad (at' (writeBytes base 40 (bytesOf 5 0xa0a1a2a3a4)) 40 5 40))).map
      (fun t => (readBytes t 40 16, t.OLEN)) = some (bytesOf 16 0xa0a1a2a3a40b0b0b0b0b0b0b0b0b0b0b, 16) ∧
    (nextOf (exec .pad (at' base 0xFFFFFF 0 48))).map (fun t => (readBytes t 48 16, t.OLEN, t.ERR)) =
      some (bytesOf 16 0x10101010101010101010101010101010, 16, 0) := by decide +kernel

/-- V19: six bytes 06 are valid, one of them 05 is not. -/
theorem test_unpad :
    (nextOf (exec .unpad (at' (writeBytes base 0 (bytesOf 16 0x00010203040506070809060606060606)) 0 16 0))).map
      (fun t => (t.OLEN, t.ERR)) = some (10, 0) ∧
    (nextOf (exec .unpad (at' (writeBytes base 0 (bytesOf 16 0x00010203040506070809060606060506)) 0 16 0))).map
      (fun t => (t.OLEN, t.ERR)) = some (0, 5) := by decide +kernel

/-- The one byte 41 of V23 at address 0, `SRC`, `LEN` and `DST` naming it and address 16. -/
def one41 (iv : Nat) : State := at' (writeByte (armed iv) 0 0x41) 0 1 16

/-- V23, CBC of 41. -/
theorem test_menc_cbc : (nextOf (exec (.menc 1) (one41 0x000102030405060708090a0b0c0d0e0f))).map
    (fun t => (readBytes t 16 32, t.OLEN)) =
      some (bytesOf 32 0x000102030405060708090a0b0c0d0e0f6cdc691e11cabb76e3954370331ffd51, 32) := by decide +kernel

/-- V23, CTR of 41. -/
theorem test_menc_ctr : (nextOf (exec (.menc 2) (one41 0xf0f1f2f3f4f5f6f7f8f9fafbfcfdfeff))).map
    (fun t => (readBytes t 16 17, t.OLEN)) = some (bytesOf 17 0xf0f1f2f3f4f5f6f7f8f9fafbfcfdfeffad, 17) := by
  decide +kernel

/-- V23, ECB of 41 decrypted. -/
theorem test_mdec_ecb :
    (nextOf (exec (.mdec 0) (at' (writeBytes keyed 0 (bytesOf 16 0x8163c82697f405a59a290eaf03ef864d)) 0 16 63))).map
      (fun t => (readBytes t 63 1, t.OLEN, t.ERR)) = some ([0x41], 1, 0) := by decide +kernel

/-- V23, CBC of 41 decrypted; V28's order of errors. -/
theorem test_mdec_cbc :
    (nextOf (exec (.mdec 1) (at' (writeBytes keyed 0
      (bytesOf 32 0x000102030405060708090a0b0c0d0e0f6cdc691e11cabb76e3954370331ffd51)) 0 32 32))).map
        (fun t => (readBytes t 32 1, t.OLEN, t.ERR)) = some ([0x41], 1, 0) ∧
    ((nextOf (exec (.mdec 3) (at' base 0xFFFFF1 7 0xFFFFF1))).map (·.ERR),
      (nextOf (exec (.mdec 1) (at' base 0xFFFFF1 7 0xFFFFF1))).map (·.ERR),
      (nextOf (exec (.mdec 1) (at' keyed 0xFFFFF1 7 0xFFFFF1))).map (·.ERR),
      (nextOf (exec (.mdec 1) (at' keyed 0xFFFFF1 40 0xFFFFF1))).map (·.ERR),
      (nextOf (exec (.mdec 1) (at' keyed 0xFFFFF1 48 0xFFFFF1))).map (·.ERR)) =
        (some 6, some 7, some 4, some 10, some 9) := by decide +kernel

/-- V25, the carry into byte 14, into byte 0, and out of byte 0. -/
theorem test_ctr_inc :
    CtrInc (bytesOf 16 0xf0f1f2f3f4f5f6f7f8f9fafbfcfdfeff) = bytesOf 16 0xf0f1f2f3f4f5f6f7f8f9fafbfcfdff00 ∧
    CtrInc (bytesOf 16 0x00ffffffffffffffffffffffffffffff) = bytesOf 16 0x01000000000000000000000000000000 ∧
    CtrInc (bytesOf 16 0xffffffffffffffffffffffffffffffff) = bytesOf 17 0x0100000000000000000000000000000000 := by
  decide +kernel

/-- V29: an illegal word with MENC's opcode leaves `OLEN`. -/
theorem test_illegal_word_keeps_olen :
    (nextOf (step { base with OLEN := 5, pending := [.writePort 0 0x80000103] })).map
      (fun t => (t.OLEN, t.ERR, t.ESTICKY)) = some (5, 8, true) := by decide +kernel

/-- R155, R171: a 40-byte query is InvalidPadding whatever its blocks hold, and the hardware-built oracle says so too; a query
that does not fit MEM is not asked (the model's choice, notes/assumptions/15.md). -/
theorem test_oracle_lengths : oracleOf rkV2 (rep 0 40) = false ∧
    (machineOracle 16 32 keyed (rep 0 40)).1 = false ∧
    (machineOracle 48 0 keyed (rep 0 32)).1 = false ∧
    (machineOracle 48 0 keyed (rep 0 32)).2.MEM = [] := by decide +kernel

/-- R173, R174: the first query of a block attack is the real block with candidate 0 at position 15; its success is confirmed
with byte 14 changed. -/
theorem test_first_queries :
    (match attackBlock (blk 0x000102030405060708090a0b0c0d0e0f) (blk 0) with
      | .ask q next => (q, match next true with
          | .ask q' _ => q'
          | .done _ => [])
      | .done _ => ([], [])) =
    (bytesOf 32 0x000102030405060708090a0b0c0d0e0000000000000000000000000000000000,
      bytesOf 32 0x000102030405060708090a0b0c0d0f0000000000000000000000000000000000) := by decide +kernel

/-! ## Witnesses: for every statement with hypotheses, inputs that meet them, at the boundaries of their ranges -/

theorem witness_DecodeOfEncode : (Instr.ark 10).wf = true ∧ (Instr.mdec 255).wf = true := by decide

theorem witness_EncodeOfDecode : decode 0x3600000A = .ok (.ark 10) ∧ decode 0x20FFFFFF = .ok (.lds 0xFFFFFF) :=
  ⟨rfl, rfl⟩

theorem witness_DecodeAgreesWithTable : ⟨"MDEC", 0xFFFFFF00, 0x81000000⟩ ∈ opTable ∧
    (0x81000002 : Word) &&& 0xFFFFFF00 = 0x81000000 ∧ ⟨"ARK", 0xFFFFFFF0, 0x36000000⟩ ∈ opTable ∧
    (0x3600000A : Word) &&& 0xFFFFFFF0 = 0x36000000 := by decide +kernel

theorem witness_IllegalWordOnlyReports :
    (({ base with pending := [.writePort 0 0] } : State).pending = .writePort 0 0 :: [] ∧ ∀ i, decode 0 ≠ .ok i) ∧
    (∀ row ∈ opTable, opcodeOf 0xFFFFFFFF ≠ opcodeOf row.bits) ∧
    (∃ row ∈ opTable, opcodeOf 0x10010000 = opcodeOf row.bits ∧ (0x10010000 : Word) &&& row.mask ≠ row.bits) ∧
    10 < (11 : BitVec 4).toNat ∧ 10 < (15 : BitVec 4).toNat :=
  ⟨⟨rfl, nofun⟩, by decide +kernel, by decide +kernel, by decide, by decide⟩

theorem witness_StepRunsDecoded :
    ({ base with pending := [.writePort 0 0x3600000A] } : State).pending = .writePort 0 0x3600000A :: [] ∧
    decode 0x3600000A = .ok (.ark 10) ∧ (Instr.ark 10).wf = true := ⟨rfl, rfl, rfl⟩

theorem witness_AssembledLineDecodes : assembleLine "ARK 10".toList = .ok (some 0x3600000A) ∧
    assembleLine "MENC CBC".toList = .ok (some 0x80000001) := ⟨rfl, rfl⟩

theorem witness_GmulFieldLaws : (1 : Byte) ≠ 0 ∧ (0xFF : Byte) ≠ 0 ∧ (1 ≤ 1 ∧ 1 < 10) ∧ (1 ≤ 9 ∧ 9 < 10) := by decide

theorem witness_SboxIsAffineInverse : gmul 0x53 0xCA = 1 ∧ gmul 1 1 = 1 ∧ ((0 : Byte) = 0 ∧ (0 : Byte) = 0) := by
  decide +kernel

theorem witness_TransformsInvertible : (10 : BitVec 4).toNat ≤ 10 ∧ keyed.KV = true ∧
    (Instr.imixc, Instr.mixc) ∈ [(Instr.subb, Instr.isubb), (.isubb, .subb), (.shrows, .ishrows), (.ishrows, .shrows),
      (.mixc, .imixc), (.imixc, .mixc)] := by decide

theorem witness_ArkCommand : keyed.KV = true ∧ base.KV = false := by decide

theorem witness_LdsCommand_StsCommand :
    (48 : BitVec 24).toNat + 16 ≤ base.memSize ∧ base.memSize < (49 : BitVec 24).toNat + 16 := by decide

theorem witness_KexpCommand :
    ((at' base 48 16 0).LEN = 16 ∧ (at' base 48 16 0).SRC.toNat + 16 ≤ (at' base 48 16 0).memSize) ∧
    (at' base 0 17 0).LEN ≠ 16 ∧
    ((at' base 49 16 0).LEN = 16 ∧ (at' base 49 16 0).memSize < (at' base 49 16 0).SRC.toNat + 16) := by decide

theorem witness_ScheduleImmutable :
    (Instr.clre ≠ .kexp ∧ ∃ t, exec .clre keyed = .next t) ∧
    (HostStep.writePort 0 0x50000000 ≠ .reset ∧
      (∀ w, HostStep.writePort 0 0x50000000 = .writePort 0 w → decode w ≠ .ok .kexp) ∧
      ∃ t, step { keyed with pending := [.writePort 0 0x50000000] } = .next t) :=
  ⟨⟨nofun, _, rfl⟩, nofun, fun w h => by cases h; exact nofun, _, rfl⟩

theorem witness_EncAndDec : keyed.KV = true ∧ base.KV = false := by decide

theorem witness_PadCommand :
    (((at' base 48 16 32).LEN.toNat ≤ 16 ∧ fits (at' base 48 16 32) 48 16) ∧
      32 = (if (at' base 48 16 32).LEN.toNat = 16 then 32 else 16) ∧ 32 + 32 ≤ (at' base 48 16 32).memSize) ∧
    ((at' base 0xFFFFFF 0 48).LEN.toNat ≤ 16 ∧ fits (at' base 0xFFFFFF 0 48) 0xFFFFFF 0 ∧
      16 = (if (at' base 0xFFFFFF 0 48).LEN.toNat = 16 then 32 else 16) ∧ 48 + 16 ≤ base.memSize) ∧
    16 < (at' base 0 17 0).LEN.toNat ∧
    ((at' base 49 16 0).LEN.toNat ≤ 16 ∧ ¬ fits (at' base 49 16 0) 49 16) ∧
    ((at' base 48 16 33).LEN.toNat ≤ 16 ∧ fits (at' base 48 16 33) 48 16 ∧
      (at' base 48 16 33).memSize < 33 + (if (at' base 48 16 33).LEN.toNat = 16 then 32 else 16)) := by
  simp only [fits]; decide

theorem witness_UnpadCommand :
    (at' base 0 0 0).LEN.toNat = 0 ∧
    (0 < (at' base 64 1 0).LEN.toNat ∧ (at' base 64 1 0).memSize < 64 + (at' base 64 1 0).LEN.toNat) ∧
    (validPadding (fun k => readByte (at' (writeBytes base 48 (rep 0x10 16)) 48 16 0) (48 + k)) 16 16) ∧
    (validPadding (fun k => readByte (at' (writeByte base 63 1) 63 1 0) (63 + k)) 1 1) ∧
    (∀ p, ¬ validPadding (fun k => readByte (at' (writeByte base 63 0) 63 1 0) (63 + k)) 1 p) := by
  refine ⟨by decide, by decide, by unfold validPadding; decide +kernel, by unfold validPadding; decide +kernel, ?_⟩
  rintro p ⟨h₁, -, h₃, h₄⟩
  obtain rfl : p = 1 := by omega
  exact absurd (h₄ 0 (by omega) (by omega)) (by decide +kernel)

theorem witness_PaddingLaws : ([] : Bytes).length ≤ 16 ∧ (rep 0xA0 16).length ≤ 16 ∧ (rep 0xA0 32).length % 16 = 0 := by
  decide

theorem witness_IvCommands :
    ((Instr.ldiv = .ldiv ∧ (2 : Byte) = 2) ∨ (Instr.ldiv = .ldnc ∧ (2 : Byte) = 3)) ∧
    ((Instr.ldnc = .ldiv ∧ (3 : Byte) = 2) ∨ (Instr.ldnc = .ldnc ∧ (3 : Byte) = 3)) ∧
    ((at' base 48 16 0).LEN = 16 ∧ (at' base 48 16 0).SRC.toNat + 16 ≤ (at' base 48 16 0).memSize) ∧
    (at' base 0 15 0).LEN ≠ 16 ∧
    ((at' base 49 16 0).LEN = 16 ∧ (at' base 49 16 0).memSize < (at' base 49 16 0).SRC.toNat + 16) := by decide

theorem witness_CtrIncAddsOne : (List.replicate 16 (0xFF : Byte)).length = 16 ∧
    (List.replicate 16 (0x00 : Byte)).length = 16 ∧
    List.replicate 16 (0x00 : Byte) ≠ List.replicate 16 0xFF := by decide

theorem witness_MencEcbCompletes : keyed.KV = true ∧ fits (at' keyed 48 16 32) 48 16 ∧
    (at' keyed 48 16 32).DST.toNat + ((at' keyed 48 16 32).LEN.toNat + padLength (at' keyed 48 16 32).LEN.toNat) ≤
      (at' keyed 48 16 32).memSize := by
  simp only [fits]; decide

theorem witness_MencCbcCompletes : (armed 0).KV = true ∧ (armed 0).IVOK = true ∧ fits (at' (armed 0) 64 0 32) 64 0 ∧
    (at' (armed 0) 64 0 32).DST.toNat + (16 + (at' (armed 0) 64 0 32).LEN.toNat
      + padLength (at' (armed 0) 64 0 32).LEN.toNat) ≤ (at' (armed 0) 64 0 32).memSize := by
  simp only [fits]; decide

/-- The last counter value, used for the last block. -/
theorem witness_MencCtrCompletes : (armed (2 ^ 128 - 1)).KV = true ∧ (armed (2 ^ 128 - 1)).IVOK = true ∧
    fits (at' (armed (2 ^ 128 - 1)) 48 16 32) 48 16 ∧
    bigEndian (bytesOfBlock (armed (2 ^ 128 - 1)).IV) + blocksFor 16 ≤ 2 ^ 128 ∧ 32 + (16 + 16) ≤ base.memSize := by
  refine ⟨rfl, rfl, by simp only [fits]; decide, by decide +kernel, by decide⟩

theorem witness_MencErrors :
    2 < (3 : Byte).toNat ∧ ((2 : Byte).toNat ≤ 2 ∧ base.KV = false) ∧ (keyed.KV = true ∧ keyed.IVOK = false) ∧
    ((0 : Byte).toNat ≤ 2 ∧ ¬ fits (at' keyed 64 1 0) 64 1) ∧
    (fits (at' (armed (2 ^ 128 - 1)) 47 17 0) 47 17 ∧
      2 ^ 128 < bigEndian (bytesOfBlock (armed (2 ^ 128 - 1)).IV) + blocksFor 17) ∧
    (fits (at' keyed 0 16 33) 0 16 ∧ keyed.memSize < 33 + (16 + padLength 16)) ∧
    (fits (at' (armed 0) 0 0 33) 0 0 ∧ (armed 0).memSize < 33 + (16 + 0 + padLength 0)) ∧
    (fits (at' (armed 0) 0 16 33) 0 16 ∧ bigEndian (bytesOfBlock (armed 0).IV) + blocksFor 16 ≤ 2 ^ 128 ∧
      (armed 0).memSize < 33 + (16 + 16)) := by
  refine ⟨by decide, by decide, by decide, ?_, ?_, ?_, ?_, ?_⟩ <;> simp only [fits] <;> decide +kernel

/-- Fifteen bytes 41 with one byte of padding, encrypted under V15.2, at address 32, behind a zero IV at 16. -/
def lastBlock : State := at' (writeBytes keyed 16 (rep 0 16 ++ bytesOf 16 0x4a91325574fcab0d970896ac2fbfa3a8)) 32 16 49

/-- A block of zeros, which decrypts under V15.2 to a block that ends in 0xd5. -/
def noPadding : State := at' (writeBytes keyed 0 (rep 0 32)) 16 16 0

theorem witness_MdecEcbCompletes : lastBlock.KV = true ∧ 0 < lastBlock.LEN.toNat ∧ lastBlock.LEN.toNat % 16 = 0 ∧
    lastBlock.SRC.toNat + lastBlock.LEN.toNat ≤ lastBlock.memSize ∧
    validPadding (ecbByte lastBlock) lastBlock.LEN.toNat 1 ∧
    fits lastBlock lastBlock.DST.toNat (lastBlock.LEN.toNat - 1) := by
  refine ⟨by decide +kernel, by decide, by decide, by decide +kernel, ?_, ?_⟩
  · unfold validPadding; decide +kernel
  · unfold fits; decide +kernel

theorem witness_MdecCbcCompletes : (at' lastBlock 16 32 49).KV = true ∧ 32 ≤ (at' lastBlock 16 32 49).LEN.toNat ∧
    (at' lastBlock 16 32 49).LEN.toNat % 16 = 0 ∧ 16 + 32 ≤ (at' lastBlock 16 32 49).memSize ∧
    validPadding (cbcByte (at' lastBlock 16 32 49)) ((at' lastBlock 16 32 49).LEN.toNat - 16) 1 ∧
    fits (at' lastBlock 16 32 49) 49 (16 - 1) := by
  refine ⟨by decide +kernel, by decide, by decide, by decide +kernel, ?_, ?_⟩
  · unfold validPadding; decide +kernel
  · unfold fits; decide +kernel

/-- A counter of sixteen 0xFF and one byte behind it: the last counter value, used once. -/
def lastCounter : State := at' (writeBytes keyed 0 (rep 0xFF 33)) 0 17 63

theorem witness_MdecCtrCompletes : lastCounter.KV = true ∧ 16 < lastCounter.LEN.toNat ∧
    lastCounter.SRC.toNat + lastCounter.LEN.toNat ≤ lastCounter.memSize ∧
    bigEndian (bytesOfBlock (memBlock lastCounter lastCounter.SRC.toNat)) + blocksFor (lastCounter.LEN.toNat - 16) ≤ 2 ^ 128 ∧
    lastCounter.DST.toNat + (lastCounter.LEN.toNat - 16) ≤ lastCounter.memSize := by decide +kernel

theorem witness_MdecErrors_lengths :
    2 < (3 : Byte).toNat ∧ ((2 : Byte).toNat ≤ 2 ∧ base.KV = false) ∧ keyed.KV = true ∧
    (at' keyed 0 0 0).LEN.toNat = 0 ∧ (at' keyed 0 31 0).LEN.toNat < 32 ∧ (at' keyed 0 16 0).LEN.toNat ≤ 16 ∧
    (at' keyed 0 1 0).LEN.toNat % 16 ≠ 0 ∧ (32 ≤ (at' keyed 0 33 0).LEN.toNat ∧ (at' keyed 0 33 0).LEN.toNat % 16 ≠ 0) ∧
    ((at' keyed 49 16 0).memSize < 49 + 16 ∧ 0 < (at' keyed 49 16 0).LEN.toNat ∧ (at' keyed 49 16 0).LEN.toNat % 16 = 0) ∧
    ((at' keyed 33 32 0).memSize < 33 + 32 ∧ 32 ≤ (at' keyed 33 32 0).LEN.toNat ∧ (at' keyed 33 32 0).LEN.toNat % 16 = 0) ∧
    ((at' keyed 48 17 0).memSize < 48 + 17 ∧ 16 < (at' keyed 48 17 0).LEN.toNat) := by decide

theorem witness_MdecErrors_ecb_padding : noPadding.KV = true ∧
    noPadding.SRC.toNat + noPadding.LEN.toNat ≤ noPadding.memSize ∧ 0 < noPadding.LEN.toNat ∧
    noPadding.LEN.toNat % 16 = 0 ∧ ∀ p, ¬ validPadding (ecbByte noPadding) noPadding.LEN.toNat p := by
  refine ⟨by decide +kernel, by decide +kernel, by decide, by decide, ?_⟩
  rintro p ⟨h₁, h₂, -, h₄⟩
  have h := h₄ 15 (by have : noPadding.LEN.toNat = 16 := rfl
                      omega) (by decide)
  have hd : ecbByte noPadding 15 = 0xd5 := by decide +kernel
  rw [hd] at h
  have h' : 213 = p % 256 := congrArg BitVec.toNat h
  omega

theorem witness_MdecErrors_cbc_padding : (at' noPadding 0 32 0).KV = true ∧
    0 + (at' noPadding 0 32 0).LEN.toNat ≤ (at' noPadding 0 32 0).memSize ∧ 32 ≤ (at' noPadding 0 32 0).LEN.toNat ∧
    (at' noPadding 0 32 0).LEN.toNat % 16 = 0 ∧
    ∀ p, ¬ validPadding (cbcByte (at' noPadding 0 32 0)) ((at' noPadding 0 32 0).LEN.toNat - 16) p := by
  refine ⟨by decide +kernel, by decide +kernel, by decide, by decide, ?_⟩
  rintro p ⟨h₁, h₂, -, h₄⟩
  have h := h₄ 15 (by have : (at' noPadding 0 32 0).LEN.toNat = 32 := rfl
                      omega) (by decide)
  have hd : cbcByte (at' noPadding 0 32 0) 15 = 0xd5 := by decide +kernel
  rw [hd] at h
  have h' : 213 = p % 256 := congrArg BitVec.toNat h
  omega

theorem witness_MdecErrors_ctr :
    (32 < (at' lastCounter 0 33 0).LEN.toNat ∧
      2 ^ 128 < bigEndian (bytesOfBlock (memBlock (at' lastCounter 0 33 0) 0)) + blocksFor (33 - 16)) ∧
    (bigEndian (bytesOfBlock (memBlock lastCounter 0)) + blocksFor (17 - 16) ≤ 2 ^ 128 ∧
      lastCounter.memSize < 64 + (17 - 16)) := by decide +kernel

theorem witness_MdecErrors_destination :
    ¬ fits (at' lastBlock 32 16 50) 50 (16 - 1) ∧ ¬ fits (at' lastBlock 16 32 50) 50 (32 - 16 - 1) := by
  simp only [fits]; decide +kernel

theorem witness_ModeRoundTrips : ([0x41] : Bytes) ≠ [] ∧
    ∃ ct, CtrEncrypt rkV2 (blk (2 ^ 128 - 1)) [0x41] = .ok ct := ⟨nofun, _, rfl⟩

theorem witness_MessageRoundTrip :
    (∃ t, runPseudo (.encrypt 1 0 16 16) (armed 0) = .next t ∧ t.ERR = 0 ∧ t.OLEN.toNat < 2 ^ 24) ∧
    (∃ t, runPseudo (.encrypt 2 0 0 48) (armed 0) = .next t ∧ t.ERR = 0 ∧ t.OLEN.toNat < 2 ^ 24) ∧
    fits (armed 0) (48 : BitVec 24).toNat (16 : BitVec 24).toNat := by
  refine ⟨⟨_, rfl, by decide +kernel, by decide +kernel⟩, ⟨_, rfl, by decide +kernel, by decide +kernel⟩, ?_⟩
  unfold fits; decide

theorem witness_TryDecIsTheOracle :
    (keyed.KV = true ∧ (rep 0 32).length < 2 ^ 24 ∧ (32 : BitVec 24).toNat + (rep 0 32).length ≤ keyed.memSize ∧
      (48 : BitVec 24).toNat + ((rep 0 32).length - 16) ≤ keyed.memSize) ∧
    ((64 : BitVec 24).toNat + (rep 0 0).length ≤ keyed.memSize ∧
      (64 : BitVec 24).toNat + ((rep 0 0).length - 16) ≤ keyed.memSize) ∧
    ∃ t, runPseudo (.trydec 0 32 48) base = .next t ∧ t.ERR ≠ 0 := ⟨by decide, by decide, _, rfl, by decide +kernel⟩

theorem witness_AttackOnTheMachine : keyed.KV = true ∧ (32 : BitVec 24).toNat + 32 ≤ keyed.memSize ∧
    (48 : BitVec 24).toNat + 16 ≤ keyed.memSize := by decide

theorem witness_AttackStopsOnDeafOracle :
    (∀ (u : Nat) (q : Bytes), ((fun n _ => (false, n + 1) : Oracle Nat) u q).1 = false) ∧
    32 ≤ (rep 0 32).length ∧ (rep 0 32).length % 16 = 0 := ⟨fun _ _ => rfl, by decide, by decide⟩

theorem witness_AttackEqualsDecryption : 32 ≤ (rep 0 32).length ∧ (rep 0 32).length % 16 = 0 := by decide

/-- Two block attacks, with the given queries' and results' places. -/
def twoThreads (src₁ scratch₁ src₂ scratch₂ : BitVec 24) : List (Thread (Option Block)) :=
  [⟨attackBlock (blk 0) (blk 1), src₁, scratch₁, false⟩, ⟨attackBlock (blk 2) (blk 3), src₂, scratch₂, false⟩]

theorem witness_ownBuffers (p q : Proc (Option Block)) : ownBuffers [⟨p, 0, 0, false⟩, ⟨q, 32, 32, false⟩] := by
  intro i j a b hi hj hij
  rcases i with _ | _ | i <;> rcases j with _ | _ | j <;>
    simp only [List.getElem?_cons_zero, List.getElem?_cons_succ, List.getElem?_nil, Option.some.injEq, reduceCtorEq]
      at hi hj <;> first | exact absurd rfl hij | (subst hi hj; simp [apart])

/-- Buffers of their own that fill MEM, and buffers that both share at its end. -/
theorem witness_InterleavedAttacksAgree : keyed.KV = true ∧
    (twoThreads 0 0 32 32).map (·.proc) = [(blk 0, blk 1), (blk 2, blk 3)].map (fun p => attackBlock p.1 p.2) ∧
    (∀ th ∈ twoThreads 0 0 32 32 ++ twoThreads 32 48 32 48, th.placed = false ∧ th.src.toNat + 32 ≤ keyed.memSize ∧
      th.scratch.toNat + 16 ≤ keyed.memSize) ∧
    ownBuffers (twoThreads 0 0 32 32) ∧
    ∃ js, [Turn.put 1, .ask 1, .put 0, .ask 0] = wholeTurns js := by
  refine ⟨rfl, rfl, ?_, witness_ownBuffers _ _, ⟨[1, 0], rfl⟩⟩
  intro th h
  simp only [twoThreads, List.cons_append, List.nil_append, List.mem_cons, List.not_mem_nil, or_false] at h
  rcases h with rfl | rfl | rfl | rfl <;> exact ⟨rfl, by decide, by decide⟩

theorem witness_FailureWritesOnlyWhatIsListed :
    (∃ t, exec .kexp base = .next t ∧ t.ERR ≠ 0) ∧ (∃ t, exec .subb base = .next t ∧ t.ERR = 0) ∧
    ∀ i, decode 0x80000103 ≠ .ok i := ⟨⟨_, rfl, by decide⟩, ⟨_, rfl, by decide⟩, nofun⟩

theorem witness_CommandsRaiseOnlyTheirErrors : (Instr.ark 10).wf = true ∧ ∃ t, exec (.ark 10) base = .next t :=
  ⟨rfl, _, rfl⟩

theorem witness_NothingStopsTheCore : ∀ h ∈ [HostStep.writeMem 63 0, .readMem 63, .writePort 0 0, .readPort 7, .reset],
    HostStep.inMem 64 h := by
  intro h hm
  simp only [List.mem_cons, List.not_mem_nil, or_false] at hm
  rcases hm with rfl | rfl | rfl | rfl | rfl <;> simp [HostStep.inMem]

theorem witness_RegistersWrittenOnlyByTheirCommands : ∃ t, exec (.setsrc 5) base = .next t := ⟨_, rfl⟩

theorem witness_MemoryWrittenOnlyAtDestination : base.memSize ≤ 2 ^ 24 ∧ ∃ t, exec (.sts 48) base = .next t ∧ t.ERR = 0 :=
  ⟨by decide, _, rfl, by decide +kernel⟩

theorem witness_PortsReadAsListed :
    ({ base with pending := [.readPort 7] } : State).pending = .readPort 7 :: [] ∧
    ({ base with pending := [.writePort 1 9] } : State).pending = .writePort 1 9 :: [] := ⟨rfl, rfl⟩

theorem witness_HostReadsWhatItWrote : 63 < base.memSize ∧
    ({ base with pending := [.writeMem 63 9, .readMem 63] } : State).pending = .writeMem 63 9 :: .readMem 63 :: [] ∧
    ((48 : BitVec 24).toNat + 16 ≤ base.memSize ∧
      ({ base with pending := [.writeMem 63 9, .writePort 0 (encode (.lds 48))] } : State).pending =
        .writeMem ((48 : BitVec 24).toNat + (15 : Fin 16).val) 9 :: .writePort 0 (encode (.lds 48)) :: [] ∧
      ({ base with pending := [.writePort 0 (encode (.sts 48)), .readMem 63] } : State).pending =
        .writePort 0 (encode (.sts 48)) :: .readMem ((48 : BitVec 24).toNat + (15 : Fin 16).val) :: []) :=
  ⟨by decide, rfl, by decide, rfl, rfl⟩

theorem witness_ResetStep : ({ keyed with pending := [.reset] } : State).pending = .reset :: [] := rfl

theorem witness_ResetMeetsInv : Config.memSizeMin ≤ 64 ∧ 64 ≤ Config.memSizeMax ∧ Config.memSizeMin ≤ 2 ^ 24 ∧
    2 ^ 24 ≤ Config.memSizeMax := by decide

theorem witness_StepKeepsInv : keyed.Inv ∧ ∃ t, step keyed = .next t :=
  ⟨⟨by decide, by decide, by decide, by decide, by decide, by decide, by decide +kernel⟩, _, rfl⟩

/-- Two states that differ in an unloaded key and IV only. -/
theorem witness_UnloadedKeyAndIvUnobservable :
    alike base { base with RK := rkV2, IV := blk 1 } ∧ ∃ t, step base = .next t :=
  ⟨⟨rfl, nofun, nofun⟩, _, rfl⟩

theorem witness_LoadkeyPseudoCommands : (48 : BitVec 24).toNat + 16 ≤ base.memSize ∧ (17 : BitVec 24) ≠ 16 := by decide

end Sys2Proof.Tests
end

section
/-! The invariant of legal states (O55, O56): it holds after a reset, each shared operation of the model keeps it, so each
command's pseudocode keeps it, so every step does (spec/10_state.md R15 to R17, R19, R22; 60_exceptions.md R187). -/

namespace Sys2Proof.Machine

/-! ## Small facts about the values the invariant bounds -/

/-- An immediate leaves bits 31:24 of a descriptor register zero (R15, R58). -/
theorem zext32_toNat_lt (imm24 : BitVec 24) : (zext32 imm24).toNat < 2 ^ 24 := by
  simp only [zext32, BitVec.toNat_setWidth]
  omega

/-- What `OLEN` holds of a length is at most any bound of the length. -/
theorem toNat_ofNat_le {n m : Nat} (h : n ≤ m) : (BitVec.ofNat 32 n).toNat ≤ m := by
  rw [BitVec.toNat_ofNat]
  exact (Nat.mod_le _ _).trans h

/-- Round key 0 of an expanded key is the key (R111). -/
theorem KeyExpand_zero (key : Block) : (KeyExpand key)[0] = key := by
  rw [KeyExpand_getElem, roundKey]

theorem RemovePadding_length_le {buf pt : Bytes} (h : RemovePadding buf = some pt) : pt.length ≤ buf.length := by
  have taken : ∃ n, pt = buf.take n := by
    unfold RemovePadding at h
    split at h
    · cases h
    · simp only [Option.ite_none_left_eq_some, Option.ite_none_right_eq_some, Option.some.injEq] at h
      obtain ⟨-, -, -, rfl⟩ := h
      exact ⟨_, rfl⟩
  obtain ⟨n, rfl⟩ := taken
  exact List.length_take_le' n buf

theorem paddedOrRaise_eq_ok {r : Option Bytes} {pt : Bytes} : paddedOrRaise r = .ok pt ↔ r = some pt := by
  cases r <;> simp [paddedOrRaise]

/-! ## Each shared operation keeps the invariant

A field the invariant does not speak of (`S`, `R`, `IV`, `IVOK`, and the host's own fields) may be set freely: the invariant
of the new state is, by definition, that of the old. -/

namespace State.Inv

variable {s : State}

theorem resetAt {n : Nat} (k : Nat) (hmin : Config.memSizeMin ≤ n) (hmax : n ≤ Config.memSizeMax) :
    (State.resetAt n k).Inv := by
  refine ⟨⟨hmin, hmax⟩, ⟨rfl, ?_⟩, ⟨?_, ?_, ?_⟩, ?_, ?_, ?_, ?_⟩ <;> simp [State.resetAt]

theorem succeed (h : s.Inv) : (succeed s).Inv := by
  obtain ⟨hsize, hmem, hdesc, holen, -, -, hkey⟩ := h
  exact ⟨hsize, hmem, hdesc, holen, by simp, by simp, hkey⟩

theorem raise (e : ErrKind) (h : s.Inv) : (raise e s).Inv := by
  obtain ⟨hsize, hmem, hdesc, holen, -, -, hkey⟩ := h
  exact ⟨hsize, hmem, hdesc, holen, code_le e, fun _ => rfl, hkey⟩

theorem dropKey (h : s.Inv) : (dropKey s).Inv := by
  obtain ⟨hsize, hmem, hdesc, holen, herr, hsticky, -⟩ := h
  exact ⟨hsize, hmem, hdesc, holen, herr, hsticky, by simp⟩

theorem setOlen (h : s.Inv) {n : Nat} (hn : n ≤ s.memSize) : State.Inv { s with OLEN := BitVec.ofNat 32 n } := by
  obtain ⟨hsize, hmem, hdesc, -, herr, hsticky, hkey⟩ := h
  exact ⟨hsize, hmem, hdesc, toNat_ofNat_le hn, herr, hsticky, hkey⟩

theorem setKey (h : s.Inv) (key : Block) : State.Inv { s with RK := KeyExpand key, KV := true } := by
  obtain ⟨hsize, hmem, hdesc, holen, herr, hsticky, -⟩ := h
  exact ⟨hsize, hmem, hdesc, holen, herr, hsticky, fun _ => by rw [KeyExpand_zero]⟩

theorem writeBytes (h : s.Inv) {a : Nat} {vs : Bytes} (hin : vs.length = 0 ∨ a + vs.length ≤ s.memSize) :
    (writeBytes s a vs).Inv := by
  obtain ⟨hsize, ⟨hwf, hinside⟩, hrest⟩ := h
  have stored : ∀ c ∈ (Machine.writeBytes s a vs).MEM, c.1 < s.memSize := by
    rcases hin with hempty | hfits
    · rw [List.eq_nil_of_length_eq_zero hempty]
      exact hinside
    · exact writeBytes_inside s a vs s.memSize hinside hfits
  rw [writeBytes_eq]
  exact ⟨hsize, ⟨writeBytes_wf s a vs hwf, stored⟩, hrest⟩

/-- What a failing command writes beside `ERR` and `ESTICKY` (R187). -/
theorem onErrorOf (i : Instr) (h : s.Inv) : (onErrorOf i s).Inv := by
  cases i with
  | kexp => exact h.dropKey
  | pad | unpad | menc _ | mdec _ => exact h.setOlen (Nat.zero_le _)
  | _ => exact h

end State.Inv

/-! ## Pseudocode that ends in a state of the invariant -/

/-- If the pseudocode succeeds, the command leaves a state that meets the invariant.  (Of the state AFTER `succeed`: CLRE's own
write clears `ESTICKY` while `ERR` still holds the old code.) -/
def EndsInInv (r : Except ErrKind State) : Prop := ∀ u, r = .ok u → (succeed u).Inv

namespace EndsInInv

variable {s : State}

theorem ok (h : s.Inv) : EndsInInv (.ok s) := by
  rintro _ ⟨⟩
  exact h.succeed

theorem bind {α : Type} {x : Except ErrKind α} {f : α → Except ErrKind State}
    (h : ∀ a, x = .ok a → EndsInInv (f a)) : EndsInInv (x >>= f) := by
  intro u hu
  obtain ⟨a, hx, hf⟩ := except_bind_eq_ok.1 hu
  exact h a hx u hf

theorem clearSticky (h : s.Inv) : EndsInInv (.ok { s with ESTICKY := false }) := by
  rintro _ ⟨⟩
  obtain ⟨hsize, hmem, hdesc, holen, -, -, hkey⟩ := h
  exact ⟨hsize, hmem, hdesc, holen, by simp, by simp, hkey⟩

theorem memWrite (h : s.Inv) (a : Nat) (vs : Bytes) : EndsInInv (memWrite s a vs) := by
  rcases memWrite_cases s a vs with ⟨hin, hok⟩ | ⟨-, -, herror⟩
  · rw [hok]
    exact ok (h.writeBytes hin)
  · rw [herror]
    exact nofun

theorem writeResult (h : s.Inv) (out : Bytes) : EndsInInv (writeResult s out) := by
  intro u hu
  obtain ⟨hin, rfl⟩ := writeResult_eq_ok.1 hu
  have hlen : out.length ≤ (writeBytes s s.DST.toNat out).memSize := by
    rw [writeBytes_memSize]
    omega
  exact ((h.writeBytes hin).setOlen hlen).succeed

/-- UNPAD's last two lines: the unpadded length is at most `LEN`, and a source that was read lies in MEM. -/
theorem setUnpaddedLength (h : s.Inv) {buf : Bytes} (hbuf : readSource s = .ok buf) :
    EndsInInv (do
      let r ← paddedOrRaise (RemovePadding buf)
      return { s with OLEN := BitVec.ofNat 32 r.length }) := by
  refine bind fun pt hpt => ok (h.setOlen ?_)
  obtain ⟨hin, rfl⟩ := readSource_eq_ok.1 hbuf
  have hle := RemovePadding_length_le (paddedOrRaise_eq_ok.1 hpt)
  rw [readBytes_length] at hle
  omega

end EndsInInv

/-! ## Every command, every host step, every step -/

section Commands

variable {s t : State}

/-- A command whose pseudocode ends in the invariant keeps it; its failure does so by what R187 lets it write. -/
theorem inv_of_exec_eq {i : Instr} {r : Except ErrKind State} (hs : s.Inv) (hi : exec i s = complete (onErrorOf i) s r)
    (hr : EndsInInv r) (h : exec i s = .next t) : t.Inv := by
  rw [hi] at h
  rcases complete_cases h with ⟨u, hu, rfl⟩ | ⟨e, -, rfl⟩
  · exact hr u hu
  · exact (hs.onErrorOf i).raise e

theorem exec_keeps_inv {i : Instr} (hs : s.Inv) (h : exec i s = .next t) : t.Inv := by
  have ⟨hsize, hmem, ⟨hsrc, hlen, hdst⟩, hrest⟩ := hs
  cases i with
  | clre => exact inv_of_exec_eq hs (exec_clre s) (.clearSticky hs) h
  | gmul a b => exact inv_of_exec_eq hs (exec_gmul a b s) (.ok hs) h
  | xtime x => exact inv_of_exec_eq hs (exec_xtime x s) (.ok hs) h
  | sbox x => exact inv_of_exec_eq hs (exec_sbox x s) (.ok hs) h
  | isbox x => exact inv_of_exec_eq hs (exec_isbox x s) (.ok hs) h
  | lds a => exact inv_of_exec_eq hs (exec_lds a s) (.bind fun _ _ => .ok hs) h
  | sts a => exact inv_of_exec_eq hs (exec_sts a s) (.memWrite hs _ _) h
  | subb => exact inv_of_exec_eq hs (exec_subb s) (.ok hs) h
  | isubb => exact inv_of_exec_eq hs (exec_isubb s) (.ok hs) h
  | shrows => exact inv_of_exec_eq hs (exec_shrows s) (.ok hs) h
  | ishrows => exact inv_of_exec_eq hs (exec_ishrows s) (.ok hs) h
  | mixc => exact inv_of_exec_eq hs (exec_mixc s) (.ok hs) h
  | imixc => exact inv_of_exec_eq hs (exec_imixc s) (.ok hs) h
  | ark i => exact inv_of_exec_eq hs (exec_ark i s) (.bind fun _ _ => .bind fun _ _ => .ok hs) h
  | kexp => exact inv_of_exec_eq hs (exec_kexp s) (.bind fun key _ => .ok (hs.setKey key)) h
  | ldiv => exact inv_of_exec_eq hs (exec_ldiv s) (.bind fun _ _ => .ok hs) h
  | ldnc => exact inv_of_exec_eq hs (exec_ldnc s) (.bind fun _ _ => .ok hs) h
  | enc => exact inv_of_exec_eq hs (exec_enc s) (.bind fun _ _ => .ok hs) h
  | dec => exact inv_of_exec_eq hs (exec_dec s) (.bind fun _ _ => .ok hs) h
  | setsrc a =>
    exact inv_of_exec_eq hs (exec_setsrc a s) (.ok ⟨hsize, hmem, ⟨zext32_toNat_lt a, hlen, hdst⟩, hrest⟩) h
  | setlen a =>
    exact inv_of_exec_eq hs (exec_setlen a s) (.ok ⟨hsize, hmem, ⟨hsrc, zext32_toNat_lt a, hdst⟩, hrest⟩) h
  | setdst a =>
    exact inv_of_exec_eq hs (exec_setdst a s) (.ok ⟨hsize, hmem, ⟨hsrc, hlen, zext32_toNat_lt a⟩, hrest⟩) h
  | pad => exact inv_of_exec_eq hs (exec_pad s) (.bind fun _ _ => .bind fun _ _ => .writeResult hs _) h
  | unpad =>
    exact inv_of_exec_eq hs (exec_unpad s) (.bind fun _ _ => .bind fun _ hbuf => .setUnpaddedLength hs hbuf) h
  | menc m =>
    exact inv_of_exec_eq hs (exec_menc m s)
      (.bind fun _ _ => .bind fun _ _ => .bind fun _ _ => .bind fun _ _ => .bind fun _ _ => .writeResult hs _) h
  | mdec m =>
    exact inv_of_exec_eq hs (exec_mdec m s)
      (.bind fun _ _ => .bind fun _ _ => .bind fun _ _ => .bind fun _ _ => .bind fun _ _ => .writeResult hs _) h

theorem command_keeps_inv {w : Word} (hs : s.Inv) (h : command w s = .next t) : t.Inv := by
  cases hd : decode w with
  | ok i =>
    rw [command_of_decode hd] at h
    exact exec_keeps_inv hs h
  | error e =>
    rw [command_of_illegal hd] at h
    cases h
    exact hs.raise .illegalCommand

/-- If the host's write of a byte does not stop, the byte exists and is written (R22, R43). -/
theorem hostWriteMem_eq_next {addr : Nat} {v : Byte} :
    hostWriteMem addr v s = .next t ↔ addr < s.memSize ∧ t = writeByte s addr v := by
  have hr : inRange s addr 1 = true ↔ addr < s.memSize := by
    rw [inRange_iff]
    omega
  by_cases ha : addr < s.memSize
  · simp [hostWriteMem, hr.2 ha, ha, eq_comm]
  · simp [hostWriteMem, hr, ha]

/-- If the host's read of a byte does not stop, the byte exists and is received (R22, R43). -/
theorem hostReadMem_eq_next {addr : Nat} :
    hostReadMem addr s = .next t ↔ addr < s.memSize ∧ t = receive ((readByte s addr).setWidth 32) s := by
  have hr : inRange s addr 1 = true ↔ addr < s.memSize := by
    rw [inRange_iff]
    omega
  by_cases ha : addr < s.memSize
  · simp [hostReadMem, hr.2 ha, ha, eq_comm]
  · simp [hostReadMem, hr, ha]

theorem hostStep_keeps_inv {a : HostStep} (hs : s.Inv) (h : hostStep a s = .next t) : t.Inv := by
  cases a with
  | writePort port v =>
    rw [hostStep] at h
    split at h
    · exact command_keeps_inv hs h
    · cases h
      exact hs
  | readPort port =>
    cases h
    exact hs
  | writeMem addr v =>
    obtain ⟨hlt, rfl⟩ := hostWriteMem_eq_next.1 h
    exact hs.writeBytes (vs := [v]) (.inr hlt)
  | readMem addr =>
    obtain ⟨-, rfl⟩ := hostReadMem_eq_next.1 h
    exact hs
  | reset =>
    obtain ⟨⟨hmin, hmax⟩, -⟩ := hs
    cases h
    exact State.Inv.resetAt (s.powerOns + 1) hmin hmax

theorem step_keeps_inv (hs : s.Inv) (h : step s = .next t) : t.Inv := by
  rcases step_cases s with ⟨-, hidle⟩ | ⟨a, rest, -, hhost⟩
  · rw [hidle] at h
    cases h
    exact hs
  · rw [hhost] at h
    exact hostStep_keeps_inv (s := { s with pending := rest }) hs h

end Commands

/-- Settles O56: case by case over the host's steps and, for a command, over the pseudocode it runs. -/
theorem stepKeepsInv : Obligations.StepKeepsInv := by
  unfold Obligations.StepKeepsInv
  intro s t
  exact step_keeps_inv

/-- Settles O55: every field that the invariant bounds is zero after a reset, and `MEM` lists nothing. -/
theorem resetMeetsInv : Obligations.ResetMeetsInv :=
  ⟨fun _ k hmin hmax => State.Inv.resetAt k hmin hmax, State.Inv.resetAt 0 (by decide) (by decide)⟩

end Sys2Proof.Machine
end

section
/-! An unloaded key or IV cannot be observed (O57): two states that are `alike` answer every guard and every read the same way,
so each command's pseudocode ends alike from both, so every step does (spec/10_state.md R19, R24). -/

namespace Sys2Proof.Machine

open Claims

/-! ## What alike states have in common -/

/-- Alike states are one state with an `RK` and an `IV` of its own, each free only while it is not loaded. -/
theorem alike_iff {s₁ s₂ : State} : alike s₁ s₂ ↔ ∃ rk iv, (s₁.KV = true → rk = s₁.RK) ∧ (s₁.IVOK = true → iv = s₁.IV) ∧
    s₂ = { s₁ with RK := rk, IV := iv } := by
  constructor
  · rintro ⟨heq, hkey, hiv⟩
    exact ⟨_, _, hkey, hiv, heq⟩
  · rintro ⟨rk, iv, hkey, hiv, rfl⟩
    exact ⟨rfl, hkey, hiv⟩

section

variable {s₁ s₂ : State} (h : alike s₁ s₂)
include h

theorem alike_RK (hkey : s₁.KV = true) : s₁.RK = s₂.RK := by
  obtain ⟨-, hrk, -⟩ := h
  exact (hrk hkey).symm

theorem alike_IV (hivok : s₁.IVOK = true) : s₁.IV = s₂.IV := by
  obtain ⟨-, -, hiv⟩ := h
  exact (hiv hivok).symm

theorem memRead_alike (a n : Nat) : memRead s₁ a n = memRead s₂ a n := by
  obtain ⟨rk, iv, -, -, rfl⟩ := alike_iff.1 h
  have hbytes := readBytes_congr (s := s₁) (t := { s₁ with RK := rk, IV := iv }) rfl rfl a n
  have hrange : inRange { s₁ with RK := rk, IV := iv } a n = inRange s₁ a n := rfl
  rw [memRead, memRead, hrange, hbytes]

theorem readSource_alike : readSource s₁ = readSource s₂ := by
  obtain ⟨rk, iv, -, -, rfl⟩ := alike_iff.1 h
  exact memRead_alike h _ _

theorem readSource16_alike (e : ErrKind) : readSource16 s₁ e = readSource16 s₂ e := by
  obtain ⟨rk, iv, -, -, rfl⟩ := alike_iff.1 h
  simp only [readSource16, srcLen, srcAddr, memRead_alike h]

theorem requireKey_alike : requireKey s₁ = requireKey s₂ := by
  obtain ⟨rk, iv, -, -, rfl⟩ := alike_iff.1 h
  rfl

theorem requireIV_alike (m : CipherMode) : requireIV m s₁ = requireIV m s₂ := by
  obtain ⟨rk, iv, -, -, rfl⟩ := alike_iff.1 h
  rfl

/-- MENC's answer, once its guards let it through: ECB reads no IV, CBC and CTR have one loaded (R156). -/
theorem modeEncrypt_alike {m : CipherMode} {u v : Unit} (hkey : requireKey s₁ = .ok u) (hiv : requireIV m s₁ = .ok v)
    (pt : Bytes) : modeEncrypt m s₁.RK s₁.IV pt = modeEncrypt m s₂.RK s₂.IV pt := by
  rw [alike_RK h (requireKey_eq_ok.1 hkey)]
  cases m with
  | ecb => rfl
  | cbc | ctr => rw [alike_IV h (by simpa [requireIV, raiseIf_eq_ok] using hiv)]

theorem succeed_alike : alike (succeed s₁) (succeed s₂) := by
  obtain ⟨rk, iv, hkey, hiv, rfl⟩ := alike_iff.1 h
  exact ⟨rfl, hkey, hiv⟩

theorem raise_alike (e : ErrKind) : alike (raise e s₁) (raise e s₂) := by
  obtain ⟨rk, iv, hkey, hiv, rfl⟩ := alike_iff.1 h
  exact ⟨rfl, hkey, hiv⟩

/-- What a failing command writes unloads the key or the IV in both, or leaves both as loaded as they were (R187). -/
theorem onErrorOf_alike (i : Instr) : alike (onErrorOf i s₁) (onErrorOf i s₂) := by
  obtain ⟨rk, iv, hkey, hiv, rfl⟩ := alike_iff.1 h
  cases i with
  | kexp => exact ⟨rfl, nofun, hiv⟩
  | ldiv | ldnc => exact ⟨rfl, hkey, nofun⟩
  | _ => exact ⟨rfl, hkey, hiv⟩

theorem writeBytes_alike (a : Nat) (vs : Bytes) : alike (writeBytes s₁ a vs) (writeBytes s₂ a vs) := by
  induction vs generalizing s₁ s₂ a with
  | nil => exact h
  | cons v vs ih =>
    obtain ⟨rk, iv, hkey, hiv, rfl⟩ := alike_iff.1 h
    exact ih ⟨rfl, hkey, hiv⟩ (a + 1)

end

/-! ## Pseudocode that ends alike -/

/-- Two runs of a command's pseudocode end alike: both in alike states, or both in the same error. -/
inductive EndsAlike : Except ErrKind State → Except ErrKind State → Prop
  | ok {u₁ u₂ : State} (h : alike u₁ u₂) : EndsAlike (.ok u₁) (.ok u₂)
  | error (e : ErrKind) : EndsAlike (.error e) (.error e)

namespace EndsAlike

theorem bind {α : Type} {x₁ x₂ : Except ErrKind α} {f₁ f₂ : α → Except ErrKind State} (hx : x₁ = x₂)
    (hf : ∀ a, x₁ = .ok a → EndsAlike (f₁ a) (f₂ a)) : EndsAlike (x₁ >>= f₁) (x₂ >>= f₂) := by
  subst hx
  cases x₁ with
  | ok a => exact hf a rfl
  | error e => exact .error e

/-- The same, where the first part has already written to the state. -/
theorem andThen {r₁ r₂ : Except ErrKind State} {f₁ f₂ : State → Except ErrKind State} (hr : EndsAlike r₁ r₂)
    (hf : ∀ u₁ u₂, alike u₁ u₂ → EndsAlike (f₁ u₁) (f₂ u₂)) : EndsAlike (r₁ >>= f₁) (r₂ >>= f₂) := by
  cases hr with
  | ok hu => exact hf _ _ hu
  | error e => exact .error e

variable {s₁ s₂ : State} (h : alike s₁ s₂)
include h

theorem memWrite (a : Nat) (vs : Bytes) : EndsAlike (memWrite s₁ a vs) (memWrite s₂ a vs) := by
  have hsize : s₁.memSize = s₂.memSize := by
    obtain ⟨rk, iv, -, -, rfl⟩ := alike_iff.1 h
    rfl
  rcases memWrite_cases s₁ a vs with ⟨hin, hok⟩ | ⟨hne, hout, herror⟩
  · rw [hok, memWrite_of_inRange (hsize ▸ hin)]
    exact .ok (writeBytes_alike h a vs)
  · rw [herror, memWrite_of_not_inRange (by omega)]
    exact .error _

theorem writeResult (out : Bytes) : EndsAlike (writeResult s₁ out) (writeResult s₂ out) := by
  have hwrite := memWrite h (dstAddr s₁) out
  obtain ⟨rk, iv, -, -, rfl⟩ := alike_iff.1 h
  refine hwrite.andThen fun u₁ u₂ hu => ?_
  obtain ⟨rk', iv', hkey, hiv, rfl⟩ := alike_iff.1 hu
  exact .ok ⟨rfl, hkey, hiv⟩

end EndsAlike

/-! ## Every command, every host step, every step -/

/-- Where the first outcome is a next state, so is the second, and the two are alike. -/
def OutcomesAlike (o₁ o₂ : Host.Outcome State Fault Refusal) : Prop :=
  ∀ t₁, o₁ = .next t₁ → ∃ t₂, o₂ = .next t₂ ∧ alike t₁ t₂

theorem OutcomesAlike.next {t₁ t₂ : State} (h : alike t₁ t₂) : OutcomesAlike (.next t₁) (.next t₂) := by
  rintro _ ⟨⟩
  exact ⟨t₂, rfl, h⟩

theorem step_nil {s : State} (hp : s.pending = []) : step s = .next s := by simp [step, hp, hostIdle]

section

variable {s₁ s₂ : State} (h : alike s₁ s₂)
include h

theorem outcomesAlike_of_exec_eq {i : Instr} {r₁ r₂ : Except ErrKind State}
    (h₁ : exec i s₁ = complete (onErrorOf i) s₁ r₁) (h₂ : exec i s₂ = complete (onErrorOf i) s₂ r₂)
    (hr : EndsAlike r₁ r₂) : OutcomesAlike (exec i s₁) (exec i s₂) := by
  rw [h₁, h₂]
  cases hr with
  | ok hu => exact .next (succeed_alike hu)
  | error e => exact .next (raise_alike (onErrorOf_alike h i) e)

/-- ARK reads a round key before it asks for one to be loaded; without one, both runs raise the same error (R98). -/
theorem exec_ark_alike (k : BitVec 4) : OutcomesAlike (exec (.ark k) s₁) (exec (.ark k) s₂) := by
  refine outcomesAlike_of_exec_eq h (exec_ark k s₁) (exec_ark k s₂) ?_
  by_cases hKV : s₁.KV = true
  · refine .bind (by rw [alike_RK h hKV]) fun _ _ => .bind (requireKey_alike h) fun _ _ => ?_
    obtain ⟨rk, iv, hkey, hiv, rfl⟩ := alike_iff.1 h
    exact .ok ⟨rfl, hkey, hiv⟩
  · have hfail₁ := requireKey_without (Bool.eq_false_of_not_eq_true hKV)
    have hfail₂ := (requireKey_alike h).symm.trans hfail₁
    by_cases hk : k.toNat < 11
    · simp only [roundKeyAt, hk, dite_true, except_ok_bind, hfail₁, hfail₂, except_error_bind]
      exact .error _
    · simp only [roundKeyAt, hk, dite_false, except_error_bind]
      exact .error _

theorem exec_alike (i : Instr) : OutcomesAlike (exec i s₁) (exec i s₂) := by
  have run {r₁ r₂ : Except ErrKind State} := outcomesAlike_of_exec_eq h (i := i) (r₁ := r₁) (r₂ := r₂)
  obtain ⟨rk, iv, hkey, hiv, rfl⟩ := alike_iff.1 h
  cases i with
  | clre => exact run (exec_clre _) (exec_clre _) (.ok ⟨rfl, hkey, hiv⟩)
  | gmul a b => exact run (exec_gmul a b _) (exec_gmul a b _) (.ok ⟨rfl, hkey, hiv⟩)
  | xtime x => exact run (exec_xtime x _) (exec_xtime x _) (.ok ⟨rfl, hkey, hiv⟩)
  | sbox x => exact run (exec_sbox x _) (exec_sbox x _) (.ok ⟨rfl, hkey, hiv⟩)
  | isbox x => exact run (exec_isbox x _) (exec_isbox x _) (.ok ⟨rfl, hkey, hiv⟩)
  | lds a =>
    exact run (exec_lds a _) (exec_lds a _) (.bind (memRead_alike h _ _) fun _ _ => .ok ⟨rfl, hkey, hiv⟩)
  | sts a => exact run (exec_sts a _) (exec_sts a _) (.memWrite h _ _)
  | subb => exact run (exec_subb _) (exec_subb _) (.ok ⟨rfl, hkey, hiv⟩)
  | isubb => exact run (exec_isubb _) (exec_isubb _) (.ok ⟨rfl, hkey, hiv⟩)
  | shrows => exact run (exec_shrows _) (exec_shrows _) (.ok ⟨rfl, hkey, hiv⟩)
  | ishrows => exact run (exec_ishrows _) (exec_ishrows _) (.ok ⟨rfl, hkey, hiv⟩)
  | mixc => exact run (exec_mixc _) (exec_mixc _) (.ok ⟨rfl, hkey, hiv⟩)
  | imixc => exact run (exec_imixc _) (exec_imixc _) (.ok ⟨rfl, hkey, hiv⟩)
  | ark k => exact exec_ark_alike h k
  | kexp =>
    exact run (exec_kexp _) (exec_kexp _)
      (.bind (readSource16_alike h _) fun _ _ => .ok ⟨rfl, fun _ => rfl, hiv⟩)
  | ldiv =>
    exact run (exec_ldiv _) (exec_ldiv _)
      (.bind (readSource16_alike h _) fun _ _ => .ok ⟨rfl, hkey, fun _ => rfl⟩)
  | ldnc =>
    exact run (exec_ldnc _) (exec_ldnc _)
      (.bind (readSource16_alike h _) fun _ _ => .ok ⟨rfl, hkey, fun _ => rfl⟩)
  | enc =>
    refine run (exec_enc _) (exec_enc _) (.bind (requireKey_alike h) fun _ hloaded => .ok ?_)
    obtain rfl := hkey (requireKey_eq_ok.1 hloaded)
    exact ⟨rfl, hkey, hiv⟩
  | dec =>
    refine run (exec_dec _) (exec_dec _) (.bind (requireKey_alike h) fun _ hloaded => .ok ?_)
    obtain rfl := hkey (requireKey_eq_ok.1 hloaded)
    exact ⟨rfl, hkey, hiv⟩
  | setsrc a => exact run (exec_setsrc a _) (exec_setsrc a _) (.ok ⟨rfl, hkey, hiv⟩)
  | setlen a => exact run (exec_setlen a _) (exec_setlen a _) (.ok ⟨rfl, hkey, hiv⟩)
  | setdst a => exact run (exec_setdst a _) (exec_setdst a _) (.ok ⟨rfl, hkey, hiv⟩)
  | pad =>
    exact run (exec_pad _) (exec_pad _)
      (.bind rfl fun _ _ => .bind (readSource_alike h) fun _ _ => .writeResult h _)
  | unpad =>
    exact run (exec_unpad _) (exec_unpad _)
      (.bind rfl fun _ _ => .bind (readSource_alike h) fun _ _ => .bind rfl fun _ _ => .ok ⟨rfl, hkey, hiv⟩)
  | menc mode =>
    exact run (exec_menc mode _) (exec_menc mode _)
      (.bind rfl fun m _ => .bind (requireKey_alike h) fun _ hloaded => .bind (requireIV_alike h m) fun _ hivok =>
        .bind (readSource_alike h) fun pt _ => .bind (modeEncrypt_alike h hloaded hivok pt) fun _ _ => .writeResult h _)
  | mdec mode =>
    refine run (exec_mdec mode _) (exec_mdec mode _)
      (.bind rfl fun m _ => .bind (requireKey_alike h) fun _ hloaded => .bind rfl fun _ _ =>
        .bind (readSource_alike h) fun ct _ => .bind ?_ fun _ _ => .writeResult h _)
    rw [alike_RK h (requireKey_eq_ok.1 hloaded)]

theorem command_alike (w : Word) : OutcomesAlike (command w s₁) (command w s₂) := by
  cases hd : decode w with
  | ok i =>
    rw [command_of_decode hd, command_of_decode hd]
    exact exec_alike h i
  | error e =>
    rw [command_of_illegal hd, command_of_illegal hd]
    exact .next (raise_alike h .illegalCommand)

/-- The host receives the same value from both: no port and no byte of MEM shows `RK` or `IV` (R18). -/
theorem hostStep_alike (a : HostStep) : OutcomesAlike (hostStep a s₁) (hostStep a s₂) := by
  obtain ⟨rk, iv, hkey, hiv, rfl⟩ := alike_iff.1 h
  cases a with
  | writePort port v =>
    simp only [hostStep]
    split
    · exact command_alike h v
    · exact .next h
  | readPort port => exact .next ⟨rfl, hkey, hiv⟩
  | writeMem addr v =>
    intro t₁ ht
    obtain ⟨hlt, rfl⟩ := hostWriteMem_eq_next.1 ht
    exact ⟨_, hostWriteMem_eq_next.2 ⟨hlt, rfl⟩, rfl, hkey, hiv⟩
  | readMem addr =>
    intro t₁ ht
    obtain ⟨hlt, rfl⟩ := hostReadMem_eq_next.1 ht
    exact ⟨_, hostReadMem_eq_next.2 ⟨hlt, rfl⟩, rfl, hkey, hiv⟩
  | reset => exact .next ⟨rfl, nofun, nofun⟩

theorem step_alike : OutcomesAlike (step s₁) (step s₂) := by
  obtain ⟨rk, iv, hkey, hiv, rfl⟩ := alike_iff.1 h
  rcases step_cases s₁ with ⟨hnil, hidle⟩ | ⟨a, rest, hcons, hhost⟩
  · rw [hidle, step_nil (s := { s₁ with RK := rk, IV := iv }) hnil]
    exact .next h
  · rw [hhost, step_cons (s := { s₁ with RK := rk, IV := iv }) hcons]
    exact hostStep_alike ⟨rfl, hkey, hiv⟩ a

end

/-- Settles O57: alikeness is kept by every step, case by case over the host's steps and the pseudocode of each command. -/
theorem unloadedKeyAndIvUnobservable : Obligations.UnloadedKeyAndIvUnobservable := by
  unfold Obligations.UnloadedKeyAndIvUnobservable
  intro s₁ s₂ t₁ h ht
  exact step_alike h t₁ ht

end Sys2Proof.Machine
end

section
/-! Which registers a command writes (O22, O50): one frame for all commands, kept by each shared operation of the model, so that
a command's pseudocode stays within it (spec/10_state.md section 1, "Written by"; R20). -/

namespace Sys2Proof.Machine

open Claims

/-! ## The frame of a command -/

/-- `t` differs from `s` at most in the registers that 10_state.md lists command `i` for, in `ERR`, `ESTICKY` and MEM. -/
structure Frame (i : Instr) (s t : State) : Prop where
  S : writesS i = false → t.S = s.S
  R : writesR i = false → t.R = s.R
  RK : i ≠ .kexp → t.RK = s.RK
  KV : i ≠ .kexp → t.KV = s.KV
  IV : writesIV i = false → t.IV = s.IV
  IVOK : writesIV i = false → t.IVOK = s.IVOK
  SRC : (∀ a, i ≠ .setsrc a) → t.SRC = s.SRC
  LEN : (∀ a, i ≠ .setlen a) → t.LEN = s.LEN
  DST : (∀ a, i ≠ .setdst a) → t.DST = s.DST
  OLEN : isBuffer i = false → t.OLEN = s.OLEN
  memSize : t.memSize = s.memSize
  powerOns : t.powerOns = s.powerOns
  pending : t.pending = s.pending
  received : t.received = s.received

namespace Frame

variable {i : Instr} {s t : State}

theorem refl (i : Instr) (s : State) : Frame i s s where
  S _ := rfl
  R _ := rfl
  RK _ := rfl
  KV _ := rfl
  IV _ := rfl
  IVOK _ := rfl
  SRC _ := rfl
  LEN _ := rfl
  DST _ := rfl
  OLEN _ := rfl
  memSize := rfl
  powerOns := rfl
  pending := rfl
  received := rfl

theorem succeed (h : Frame i s t) : Frame i s (succeed t) := { h with }

theorem raise (e : ErrKind) (h : Frame i s t) : Frame i s (raise e t) := { h with }

theorem writeBytes (h : Frame i s t) (a : Nat) (vs : Bytes) : Frame i s (writeBytes t a vs) := by
  rw [writeBytes_eq]
  exact { h with }

theorem setS (h : Frame i s t) (hw : writesS i = true) (b : Block) : Frame i s { t with S := b } :=
  { h with S := fun hn => absurd (hw.symm.trans hn) nofun }

theorem setR (h : Frame i s t) (hw : writesR i = true) (b : Byte) : Frame i s { t with R := b } :=
  { h with R := fun hn => absurd (hw.symm.trans hn) nofun }

theorem setKey (h : Frame .kexp s t) (rk : RoundKeys) (v : Bool) : Frame .kexp s { t with RK := rk, KV := v } :=
  { h with RK := fun hn => absurd rfl hn, KV := fun hn => absurd rfl hn }

theorem setIV (h : Frame i s t) (hw : writesIV i = true) (iv : Block) (v : Bool) :
    Frame i s { t with IV := iv, IVOK := v } :=
  { h with IV := fun hn => absurd (hw.symm.trans hn) nofun, IVOK := fun hn => absurd (hw.symm.trans hn) nofun }

theorem setOlen (h : Frame i s t) (hw : isBuffer i = true) (v : Word) : Frame i s { t with OLEN := v } :=
  { h with OLEN := fun hn => absurd (hw.symm.trans hn) nofun }

/-- What a failing command writes is what it is listed for (R187). -/
theorem onErrorOf (i : Instr) (s : State) : Frame i s (onErrorOf i s) := by
  cases i with
  | kexp => exact (refl _ s).setKey _ _
  | ldiv | ldnc => exact (refl _ s).setIV rfl _ _
  | pad | unpad | menc _ | mdec _ => exact (refl _ s).setOlen rfl _
  | _ => exact refl _ s

end Frame

/-! ## Pseudocode that stays within the frame -/

/-- If the pseudocode of command `i` succeeds, it has written only what `i` is listed for. -/
def StaysInFrame (i : Instr) (s : State) (r : Except ErrKind State) : Prop := ∀ u, r = .ok u → Frame i s u

namespace StaysInFrame

variable {i : Instr} {s : State}

theorem ok {u : State} (h : Frame i s u) : StaysInFrame i s (.ok u) := by
  rintro _ ⟨⟩
  exact h

theorem bind {α : Type} {x : Except ErrKind α} {f : α → Except ErrKind State} (h : ∀ a, StaysInFrame i s (f a)) :
    StaysInFrame i s (x >>= f) := by
  intro u hu
  obtain ⟨a, -, hf⟩ := except_bind_eq_ok.1 hu
  exact h a u hf

theorem memWrite (a : Nat) (vs : Bytes) : StaysInFrame i s (memWrite s a vs) := by
  rcases memWrite_cases s a vs with ⟨-, hok⟩ | ⟨-, -, herror⟩
  · rw [hok]
    exact ok ((Frame.refl i s).writeBytes a vs)
  · rw [herror]
    exact nofun

theorem writeResult (hw : isBuffer i = true) (out : Bytes) : StaysInFrame i s (writeResult s out) := by
  intro u hu
  obtain ⟨-, rfl⟩ := writeResult_eq_ok.1 hu
  exact ((Frame.refl i s).writeBytes _ out).setOlen hw _

end StaysInFrame

/-! ## Every command, every host step -/

section

variable {s t : State}

theorem frame_of_exec_eq {i : Instr} {r : Except ErrKind State} (hi : exec i s = complete (onErrorOf i) s r)
    (hr : StaysInFrame i s r) (h : exec i s = .next t) : Frame i s t := by
  rw [hi] at h
  rcases complete_cases h with ⟨u, hu, rfl⟩ | ⟨e, -, rfl⟩
  · exact (hr u hu).succeed
  · exact (Frame.onErrorOf i s).raise e

theorem exec_frame {i : Instr} (h : exec i s = .next t) : Frame i s t := by
  have keep := Frame.refl i s
  cases i with
  | clre => exact frame_of_exec_eq (exec_clre s) (.ok { keep with }) h
  | gmul a b => exact frame_of_exec_eq (exec_gmul a b s) (.ok (keep.setR rfl _)) h
  | xtime x => exact frame_of_exec_eq (exec_xtime x s) (.ok (keep.setR rfl _)) h
  | sbox x => exact frame_of_exec_eq (exec_sbox x s) (.ok (keep.setR rfl _)) h
  | isbox x => exact frame_of_exec_eq (exec_isbox x s) (.ok (keep.setR rfl _)) h
  | lds a => exact frame_of_exec_eq (exec_lds a s) (.bind fun _ => .ok (keep.setS rfl _)) h
  | sts a => exact frame_of_exec_eq (exec_sts a s) (.memWrite _ _) h
  | subb => exact frame_of_exec_eq (exec_subb s) (.ok (keep.setS rfl _)) h
  | isubb => exact frame_of_exec_eq (exec_isubb s) (.ok (keep.setS rfl _)) h
  | shrows => exact frame_of_exec_eq (exec_shrows s) (.ok (keep.setS rfl _)) h
  | ishrows => exact frame_of_exec_eq (exec_ishrows s) (.ok (keep.setS rfl _)) h
  | mixc => exact frame_of_exec_eq (exec_mixc s) (.ok (keep.setS rfl _)) h
  | imixc => exact frame_of_exec_eq (exec_imixc s) (.ok (keep.setS rfl _)) h
  | ark k => exact frame_of_exec_eq (exec_ark k s) (.bind fun _ => .bind fun _ => .ok (keep.setS rfl _)) h
  | kexp => exact frame_of_exec_eq (exec_kexp s) (.bind fun _ => .ok (keep.setKey _ _)) h
  | ldiv => exact frame_of_exec_eq (exec_ldiv s) (.bind fun _ => .ok (keep.setIV rfl _ _)) h
  | ldnc => exact frame_of_exec_eq (exec_ldnc s) (.bind fun _ => .ok (keep.setIV rfl _ _)) h
  | enc => exact frame_of_exec_eq (exec_enc s) (.bind fun _ => .ok (keep.setS rfl _)) h
  | dec => exact frame_of_exec_eq (exec_dec s) (.bind fun _ => .ok (keep.setS rfl _)) h
  | setsrc a => exact frame_of_exec_eq (exec_setsrc a s) (.ok { keep with SRC := fun hn => absurd rfl (hn a) }) h
  | setlen a => exact frame_of_exec_eq (exec_setlen a s) (.ok { keep with LEN := fun hn => absurd rfl (hn a) }) h
  | setdst a => exact frame_of_exec_eq (exec_setdst a s) (.ok { keep with DST := fun hn => absurd rfl (hn a) }) h
  | pad => exact frame_of_exec_eq (exec_pad s) (.bind fun _ => .bind fun _ => .writeResult rfl _) h
  | unpad =>
    exact frame_of_exec_eq (exec_unpad s) (.bind fun _ => .bind fun _ => .bind fun _ => .ok (keep.setOlen rfl _)) h
  | menc m =>
    exact frame_of_exec_eq (exec_menc m s)
      (.bind fun _ => .bind fun _ => .bind fun _ => .bind fun _ => .bind fun _ => .writeResult rfl _) h
  | mdec m =>
    exact frame_of_exec_eq (exec_mdec m s)
      (.bind fun _ => .bind fun _ => .bind fun _ => .bind fun _ => .bind fun _ => .writeResult rfl _) h

/-- A word that is not KEXP's, legal or not, leaves the schedule (R20). -/
theorem command_keeps_schedule {w : Word} (hw : decode w ≠ .ok .kexp) (h : command w s = .next t) :
    t.RK = s.RK ∧ t.KV = s.KV := by
  cases hd : decode w with
  | ok i =>
    rw [command_of_decode hd] at h
    have hi : i ≠ .kexp := by
      rintro rfl
      exact hw hd
    exact ⟨(exec_frame h).RK hi, (exec_frame h).KV hi⟩
  | error e =>
    rw [command_of_illegal hd] at h
    cases h
    exact ⟨rfl, rfl⟩

theorem hostStep_otherPort {p : Nat} (hp : p ≠ 0) (v : Word) (s : State) : hostStep (.writePort p v) s = .next s := by
  simp [hostStep, isCommandPort, hostWriteOther, hp]

/-- R20 for a step of the host: no step but KEXP's word on port 0, or a reset, writes the schedule. -/
theorem hostStep_keeps_schedule {a : HostStep} (hreset : a ≠ .reset)
    (hkexp : ∀ w, a = .writePort 0 w → decode w ≠ .ok .kexp) (h : hostStep a s = .next t) :
    t.RK = s.RK ∧ t.KV = s.KV := by
  cases a with
  | writePort port v =>
    by_cases hp : port = 0
    · subst hp
      exact command_keeps_schedule (hkexp v rfl) h
    · rw [hostStep_otherPort hp] at h
      cases h
      exact ⟨rfl, rfl⟩
  | readPort port =>
    cases h
    exact ⟨rfl, rfl⟩
  | writeMem addr v =>
    obtain ⟨-, rfl⟩ := hostWriteMem_eq_next.1 h
    exact ⟨rfl, rfl⟩
  | readMem addr =>
    obtain ⟨-, rfl⟩ := hostReadMem_eq_next.1 h
    exact ⟨rfl, rfl⟩
  | reset => exact absurd rfl hreset

end

/-- Settles O22: by the frame of each command, and case by case over the host's steps. -/
theorem scheduleImmutable : Obligations.ScheduleImmutable := by
  unfold Obligations.ScheduleImmutable
  refine ⟨fun i s t hi h => ⟨(exec_frame h).RK hi, (exec_frame h).KV hi⟩, ?_⟩
  intro s t a rest hp hreset hkexp h
  rw [step_cons hp] at h
  exact hostStep_keeps_schedule (s := { s with pending := rest }) hreset hkexp h

/-- Settles O50: it is the frame of a command, `RK` and `KV` left out. -/
theorem registersWrittenOnlyByTheirCommands : Obligations.RegistersWrittenOnlyByTheirCommands := by
  unfold Obligations.RegistersWrittenOnlyByTheirCommands
  intro i s t h
  have f := exec_frame h
  exact ⟨f.S, f.R, fun hn => ⟨f.IV hn, f.IVOK hn⟩, f.SRC, f.LEN, f.DST, f.OLEN,
    f.memSize, f.powerOns, f.pending, f.received⟩

end Sys2Proof.Machine
end

section
/-! What the host sees at the ports, and what a reset leaves (O52, O54; spec/10_state.md R18, 70_reset_and_hazards.md R210). -/

namespace Sys2Proof.Machine

/-! ## The ports -/

/-- The STATUS port as bits: the three flags, then zeros up to bit 7, then `ERR` and zeros (R18). -/
theorem statusWord_getLsbD (s : State) :
    (statusWord s).getLsbD 0 = s.KV ∧ (statusWord s).getLsbD 1 = s.IVOK ∧ (statusWord s).getLsbD 2 = s.ESTICKY ∧
    ∀ k, (statusWord s).getLsbD (k + 3) = (decide (5 ≤ k) && s.ERR.getLsbD (k - 5)) := by
  have hbits (k : Nat) : (statusWord s).getLsbD k = BitVec.getLsbD (w := 16 + 8 + 5 + 1 + 1 + 1)
      ((0 : BitVec 16) ++ s.ERR ++ (0 : BitVec 5) ++ BitVec.ofBool s.ESTICKY ++ BitVec.ofBool s.IVOK
        ++ BitVec.ofBool s.KV) k := rfl
  simp only [hbits, BitVec.getLsbD_append]
  refine ⟨by simp, by simp, by simp, fun k => ?_⟩
  rcases Nat.lt_or_ge k 5 with hzero | herr
  · simp [hzero]
  · rcases Nat.lt_or_ge (k - 5) 8 with hin | hout
    · simp [herr, hin, Nat.not_lt.2 herr]
    · simp [BitVec.getLsbD_of_ge s.ERR (k - 5) hout]

theorem statusWord_extractLsb' (s : State) :
    (statusWord s).extractLsb' 3 5 = 0 ∧ (statusWord s).extractLsb' 8 8 = s.ERR ∧
    (statusWord s).extractLsb' 16 16 = 0 := by
  obtain ⟨-, -, -, hbits⟩ := statusWord_getLsbD s
  refine ⟨?_, ?_, ?_⟩ <;> ext k hk <;> rw [BitVec.getElem_extractLsb']
  · rw [Nat.add_comm, hbits]
    simp [hk]
  · rw [show 8 + k = k + 5 + 3 by omega, hbits]
    simp [hk]
  · rw [show 16 + k = k + 13 + 3 by omega, hbits]
    simp [show 5 ≤ k + 13 by omega]

/-- A byte in a 32-bit port value: the byte below, zeros above (R18). -/
theorem extractLsb'_setWidth_byte (r : Byte) :
    (r.setWidth 32).extractLsb' 0 8 = r ∧ (r.setWidth 32).extractLsb' 8 24 = 0 := by
  constructor <;> ext k hk
  · have hwide : k < 32 := by omega
    simp [hwide, BitVec.getLsbD_eq_getElem hk]
  · simp

/-- Ports 7 and above do not exist (R18). -/
theorem portValue_of_seven_le (s : State) {p : Nat} (hp : 7 ≤ p) : portValue s p = 0 := by
  obtain ⟨n, rfl⟩ := Nat.exists_eq_add_of_le' hp
  rfl

/-- Settles O52: what is read is `portValue`, port by port; a write is a command on port 0 only. -/
theorem portsReadAsListed : Obligations.PortsReadAsListed := by
  unfold Obligations.PortsReadAsListed
  intro s p rest
  refine ⟨fun hread => ⟨portValue s p, step_cons hread, ?_⟩, fun v hwrite => ⟨?_, ?_⟩⟩
  · refine ⟨?_, ?_, ?_, ?_, ?_, ?_, ?_, portValue_of_seven_le s⟩ <;> rintro rfl
    · rfl
    · obtain ⟨hKV, hIVOK, hESTICKY, -⟩ := statusWord_getLsbD s
      exact ⟨hKV, hIVOK, hESTICKY, statusWord_extractLsb' s⟩
    · exact extractLsb'_setWidth_byte s.R
    all_goals rfl
  · rintro rfl
    exact step_cons hwrite
  · intro hp
    rw [step_cons hwrite, hostStep_otherPort hp]

/-! ## Reset -/

/-- Settles O54: the step is `hostReset`, whose fields are those of the table of R210. -/
theorem resetStep : Obligations.ResetStep := by
  unfold Obligations.ResetStep
  intro s rest hp
  exact ⟨_, step_cons hp, ⟨rfl, rfl, rfl, rfl, rfl, rfl, rfl, rfl, rfl, rfl⟩, rfl, rfl, rfl⟩

end Sys2Proof.Machine
end

section
/-! A command's word decodes to the command, so the host's next word on port 0 runs it (O6; spec/30_encoding.md R55 to R59,
20_memory.md R45). -/

namespace Sys2Proof

/-! ## The fields of a word that is put together from fields -/

@[simp] theorem opcodeOf_word (op : BitVec 8) (x : BitVec 24) : opcodeOf (word op x) = op :=
  BitVec.extractLsb'_append_eq_left

@[simp] theorem word_extractLsb' (op : BitVec 8) (x : BitVec 24) {start len : Nat} (h : start + len ≤ 24) :
    (word op x).extractLsb' start len = x.extractLsb' start len :=
  BitVec.extractLsb'_append_eq_of_add_le h

/-! ## What each format makes of such a word (R59) -/

theorem decodeZ_word (i : Instr) (op : BitVec 8) (x : BitVec 24) :
    decodeZ i (word op x) = if x = 0 then .ok i else .error .reservedBits := by
  simp [decodeZ]

theorem decodeA_word (f : BitVec 24 → Instr) (op : BitVec 8) (x : BitVec 24) : decodeA f (word op x) = .ok (f x) := by
  simp [decodeA, imm24Of]

theorem decodeB_word (f : Byte → Byte → Instr) (op : BitVec 8) (z a b : Byte) :
    decodeB f (word op (z ++ a ++ b)) = if z = 0 then .ok (f a b) else .error .reservedBits := by
  have hz : BitVec.extractLsb' (n := 24) 16 8 (z ++ a ++ b) = z :=
    (BitVec.extractLsb'_append_eq_of_le (xhi := z ++ a) (xlo := b) (show 8 ≤ 16 by decide)).trans
      BitVec.extractLsb'_append_eq_left
  have ha : BitVec.extractLsb' (n := 24) 8 8 (z ++ a ++ b) = a :=
    (BitVec.extractLsb'_append_eq_of_le (xhi := z ++ a) (xlo := b) (show 8 ≤ 8 by decide)).trans
      BitVec.extractLsb'_append_eq_right
  have hb : BitVec.extractLsb' (n := 24) 0 8 (z ++ a ++ b) = b := BitVec.extractLsb'_append_eq_right
  simp [decodeB, secondByteOf, lowByteOf, hz, ha, hb]

theorem decodeX_word (f : Byte → Instr) (op : BitVec 8) (z : BitVec 16) (x : Byte) :
    decodeX f (word op (z ++ x)) = if z = 0 then .ok (f x) else .error .reservedBits := by
  have hz : BitVec.extractLsb' (n := 24) 8 16 (z ++ x) = z := BitVec.extractLsb'_append_eq_left
  have hx : BitVec.extractLsb' (n := 24) 0 8 (z ++ x) = x := BitVec.extractLsb'_append_eq_right
  simp [decodeX, lowByteOf, hz, hx]

theorem decodeI_word (f : BitVec 4 → Instr) (op : BitVec 8) (z : BitVec 20) (k : BitVec 4) :
    decodeI f (word op (z ++ k)) =
      if z = 0 then if k.toNat ≤ 10 then .ok (f k) else .error .roundIndex else .error .reservedBits := by
  have hz : BitVec.extractLsb' (n := 24) 4 20 (z ++ k) = z := BitVec.extractLsb'_append_eq_left
  have hk : roundIndexOf (word op (z ++ k)) = k := by
    rw [roundIndexOf, word_extractLsb' _ _ (by decide)]
    exact BitVec.extractLsb'_append_eq_right
  simp [decodeI, hz, hk]

theorem decode_encode {i : Instr} (h : i.wf = true) : decode (encode i) = .ok i := by
  cases i with
  | gmul a b => simp [encode, decode, decodeB_word]
  | xtime x | sbox x | isbox x | menc x | mdec x => simp [encode, decode, decodeX_word]
  | lds x | sts x | setsrc x | setlen x | setdst x => simp [encode, decode, decodeA_word]
  | ark k =>
    have hk : k.toNat ≤ 10 := by simpa [Instr.wf] using h
    simp [encode, decode, decodeI_word, hk]
  | _ => rfl

theorem fetchWord_toNat (w : Word) : fetchWord 32 w.toNat = w := by
  rw [fetchWord, Nat.mod_eq_of_lt w.isLt, BitVec.ofNat_toNat, BitVec.setWidth_eq]

end Sys2Proof

namespace Sys2Proof.Machine

theorem step_command {s : State} {w : Word} {i : Instr} {rest : List HostStep} (hp : s.pending = .writePort 0 w :: rest)
    (hd : decode w = .ok i) : step s = exec i { s with pending := rest } := by
  rw [step_cons hp, hostStep_command, command_of_decode hd]

/-- Settles O6: a decoded word on port 0 runs its command, and the word of a well-formed command decodes to it. -/
theorem stepRunsDecoded : Obligations.StepRunsDecoded := by
  unfold Obligations.StepRunsDecoded
  refine ⟨fun s w i rest => step_command, fun s i hwf => ?_⟩
  have hd : decode (fetchWord 32 (encode i).toNat) = .ok i := by rw [fetchWord_toNat, decode_encode hwf]
  exact step_command (s := s.withFetchWord 32 (encode i).toNat) rfl hd

end Sys2Proof.Machine
end

section
/-! What reaches MEM (O51, O53): a command changes no byte outside the ones it stores, the host's access changes none but the
byte it names, and each reads what the other wrote (spec/20_memory.md R38, R40 to R42, R45). -/

namespace Sys2Proof.Machine

open Claims

/-! ## Pseudocode that changes no byte outside the ones it stores -/

/-- Only through the new `OLEN` does it depend on the new state where a command stores. -/
theorem stored_congr (i : Instr) (s : State) {t u : State} (h : t.OLEN = u.OLEN) : stored i s t = stored i s u := by
  unfold stored
  rw [h]

/-- If the pseudocode of command `i` succeeds, it has changed no byte of MEM outside those the command stores. -/
def ChangesOnlyStored (i : Instr) (s : State) (r : Except ErrKind State) : Prop :=
  ∀ u, r = .ok u → sameOutside s u (stored i s u).1 (stored i s u).2

namespace ChangesOnlyStored

variable {i : Instr} {s : State}

theorem ok {u : State} (hmem : u.MEM = s.MEM) (hpow : u.powerOns = s.powerOns) : ChangesOnlyStored i s (.ok u) := by
  rintro _ ⟨⟩ x -
  exact readByte_congr hmem hpow x

theorem bind {α : Type} {x : Except ErrKind α} {f : α → Except ErrKind State} (h : ∀ a, ChangesOnlyStored i s (f a)) :
    ChangesOnlyStored i s (x >>= f) := by
  intro u hu
  obtain ⟨a, -, hf⟩ := except_bind_eq_ok.1 hu
  exact h a u hf

/-- STS stores its 16 bytes, or the write is refused as a whole (R38, R100). -/
theorem memWrite_sts (a : BitVec 24) :
    ChangesOnlyStored (.sts a) s (memWrite s (immAddr a) (bytesOfBlock s.S)) := by
  rcases memWrite_cases s (immAddr a) (bytesOfBlock s.S) with ⟨-, hok⟩ | ⟨-, -, herror⟩
  · rw [hok]
    rintro _ ⟨⟩ x hx
    exact readByte_writeBytes_outside s _ _ x (by rwa [bytesOfBlock_length])
  · rw [herror]
    exact nofun

/-- A result that fits in MEM has a length that `OLEN` holds, so the bytes written are those `DST` and `OLEN` name. -/
theorem writeResult (hsize : s.memSize ≤ 2 ^ 24) (hi : ∀ u, stored i s u = (s.DST.toNat, u.OLEN.toNat)) (out : Bytes) :
    ChangesOnlyStored i s (writeResult s out) := by
  intro u hu
  rw [hi]
  obtain ⟨hin, rfl⟩ := writeResult_eq_ok.1 hu
  have hlen : (BitVec.ofNat 32 out.length).toNat = out.length := by
    rw [BitVec.toNat_ofNat, Nat.mod_eq_of_lt (by omega)]
  intro x hx
  rw [hlen] at hx
  exact readByte_writeBytes_outside s s.DST.toNat out x hx

end ChangesOnlyStored

/-! ## Every command -/

section

variable {s t : State}

/-- What a failing command writes is no byte of MEM (R40, R187). -/
theorem readByte_raise_onErrorOf (e : ErrKind) (i : Instr) (s : State) (a : Nat) :
    readByte (raise e (onErrorOf i s)) a = readByte s a := by
  have hmem : (onErrorOf i s).MEM = s.MEM := by cases i <;> rfl
  exact readByte_congr (t := raise e (onErrorOf i s)) hmem (Frame.onErrorOf i s).powerOns a

theorem exec_failure_keeps_memory {i : Instr} (h : exec i s = .next t) (herr : t.ERR ≠ 0) (a : Nat) :
    readByte t a = readByte s a := by
  rcases exec_cases h with hzero | ⟨e, rfl⟩
  · exact absurd hzero herr
  · exact readByte_raise_onErrorOf e i s a

theorem sameOutside_of_exec_eq {i : Instr} {r : Except ErrKind State} (hi : exec i s = complete (onErrorOf i) s r)
    (hr : ChangesOnlyStored i s r) (h : exec i s = .next t) : sameOutside s t (stored i s t).1 (stored i s t).2 := by
  rw [hi] at h
  rcases complete_cases h with ⟨u, hu, rfl⟩ | ⟨e, -, rfl⟩
  · rw [stored_congr i s (succeed_OLEN u)]
    exact hr u hu
  · exact fun x _ => readByte_raise_onErrorOf e i s x

theorem exec_sameOutside {i : Instr} (hsize : s.memSize ≤ 2 ^ 24) (h : exec i s = .next t) :
    sameOutside s t (stored i s t).1 (stored i s t).2 := by
  have run {r : Except ErrKind State} (hi : exec i s = complete (onErrorOf i) s r) (hr : ChangesOnlyStored i s r) :=
    sameOutside_of_exec_eq hi hr h
  cases i with
  | clre => exact run (exec_clre s) (.ok rfl rfl)
  | gmul a b => exact run (exec_gmul a b s) (.ok rfl rfl)
  | xtime x => exact run (exec_xtime x s) (.ok rfl rfl)
  | sbox x => exact run (exec_sbox x s) (.ok rfl rfl)
  | isbox x => exact run (exec_isbox x s) (.ok rfl rfl)
  | subb => exact run (exec_subb s) (.ok rfl rfl)
  | isubb => exact run (exec_isubb s) (.ok rfl rfl)
  | shrows => exact run (exec_shrows s) (.ok rfl rfl)
  | ishrows => exact run (exec_ishrows s) (.ok rfl rfl)
  | mixc => exact run (exec_mixc s) (.ok rfl rfl)
  | imixc => exact run (exec_imixc s) (.ok rfl rfl)
  | setsrc a => exact run (exec_setsrc a s) (.ok rfl rfl)
  | setlen a => exact run (exec_setlen a s) (.ok rfl rfl)
  | setdst a => exact run (exec_setdst a s) (.ok rfl rfl)
  | lds a => exact run (exec_lds a s) (.bind fun _ => .ok rfl rfl)
  | kexp => exact run (exec_kexp s) (.bind fun _ => .ok rfl rfl)
  | ldiv => exact run (exec_ldiv s) (.bind fun _ => .ok rfl rfl)
  | ldnc => exact run (exec_ldnc s) (.bind fun _ => .ok rfl rfl)
  | enc => exact run (exec_enc s) (.bind fun _ => .ok rfl rfl)
  | dec => exact run (exec_dec s) (.bind fun _ => .ok rfl rfl)
  | ark k => exact run (exec_ark k s) (.bind fun _ => .bind fun _ => .ok rfl rfl)
  | unpad => exact run (exec_unpad s) (.bind fun _ => .bind fun _ => .bind fun _ => .ok rfl rfl)
  | sts a => exact run (exec_sts a s) (.memWrite_sts a)
  | pad => exact run (exec_pad s) (.bind fun _ => .bind fun _ => .writeResult hsize (fun _ => rfl) _)
  | menc m =>
    exact run (exec_menc m s) (.bind fun _ => .bind fun _ => .bind fun _ => .bind fun _ =>
      .bind fun _ => .writeResult hsize (fun _ => rfl) _)
  | mdec m =>
    exact run (exec_mdec m s) (.bind fun _ => .bind fun _ => .bind fun _ => .bind fun _ =>
      .bind fun _ => .writeResult hsize (fun _ => rfl) _)

end

/-- Settles O51: a failure writes no byte of MEM, and a success only through STS's store or a buffer command's result. -/
theorem memoryWrittenOnlyAtDestination : Obligations.MemoryWrittenOnlyAtDestination := by
  unfold Obligations.MemoryWrittenOnlyAtDestination
  intro i s t hsize h
  exact ⟨exec_failure_keeps_memory h, exec_sameOutside hsize h⟩

/-! ## The host's access, and LDS and STS beside it -/

section

variable {s : State} {a : Nat} {rest : List HostStep}

theorem step_writeMem {v : Byte} (ha : a < s.memSize) (hp : s.pending = .writeMem a v :: rest) :
    step s = .next (writeByte { s with pending := rest } a v) := by
  rw [step_cons hp]
  exact hostWriteMem_eq_next.2 ⟨ha, rfl⟩

theorem step_readMem (ha : a < s.memSize) (hp : s.pending = .readMem a :: rest) :
    step s = .next { s with pending := rest, received := (readByte s a).setWidth 32 :: s.received } := by
  rw [step_cons hp]
  exact hostReadMem_eq_next.2 ⟨ha, rfl⟩

theorem sameOutside_writeByte (s : State) (a : Nat) (v : Byte) : sameOutside s (writeByte s a v) a 1 :=
  fun _ hx => readByte_writeByte_ne s v (by omega)

theorem exec_lds_of_fits {x : BitVec 24} (hx : x.toNat + 16 ≤ s.memSize) :
    exec (.lds x) s = .next (succeed { s with S := blockOfBytes (readBytes s x.toNat 16) }) := by
  rw [exec_lds, immAddr, memRead_of_inRange (.inr hx)]
  rfl

theorem exec_sts_of_fits {x : BitVec 24} (hx : x.toNat + 16 ≤ s.memSize) :
    exec (.sts x) s = .next (succeed (writeBytes s x.toNat (bytesOfBlock s.S))) := by
  have hin : x.toNat + (bytesOfBlock s.S).length ≤ s.memSize := by rwa [bytesOfBlock_length]
  rw [exec_sts, immAddr, memWrite_of_inRange (.inr hin)]
  rfl

theorem readByte_succeed (s : State) (a : Nat) : readByte (succeed s) a = readByte s a := rfl

/-- Byte `k` of the block that LDS loads from `x` is the byte of MEM at `x + k` (R35, R99). -/
theorem blockOfBytes_readBytes_getElem (s : State) (x : Nat) (k : Fin 16) :
    (blockOfBytes (readBytes s x 16))[k] = readByte s (x + k.val) :=
  (blockOfBytes_getElem _ k.val k.isLt).trans (readBytes_getD s x 16 k.val 0 k.isLt)

/-- Byte `k` of the block that STS stores at `x` is read at `x + k` (R35, R100). -/
theorem readByte_writeBytes_bytesOfBlock (s : State) (x : Nat) (b : Block) (k : Fin 16) :
    readByte (writeBytes s x (bytesOfBlock b)) (x + k.val) = b[k] :=
  (readByte_writeBytes_inside s x _ k.val (by simp)).trans (bytesOfBlock_getElem b k.val _)

/-- The next LDS loads what the host wrote (R42, R45). -/
theorem lds_loads_host_write {x : BitVec 24} {k : Fin 16} {v : Byte} (hx : x.toNat + 16 ≤ s.memSize)
    (hp : s.pending = .writeMem (x.toNat + k.val) v :: .writePort 0 (encode (.lds x)) :: rest) :
    ∃ t u, step s = .next t ∧ step t = .next u ∧ u.S[k] = v := by
  refine ⟨_, _, step_writeMem (by omega) hp, (step_command rfl (decode_encode rfl)).trans (exec_lds_of_fits hx), ?_⟩
  exact (blockOfBytes_readBytes_getElem _ _ k).trans (readByte_writeByte_self { s with pending := _ } _ v)

/-- The host reads what STS stored (R42, R45). -/
theorem host_reads_sts_store {x : BitVec 24} {k : Fin 16} (hx : x.toNat + 16 ≤ s.memSize)
    (hp : s.pending = .writePort 0 (encode (.sts x)) :: .readMem (x.toNat + k.val) :: rest) :
    ∃ t, step s = .next t ∧
      step t = .next { t with pending := rest, received := (s.S[k]).setWidth 32 :: s.received } := by
  refine ⟨_, (step_command hp (decode_encode rfl)).trans (exec_sts_of_fits hx), ?_⟩
  rw [step_readMem (a := x.toNat + k.val) (rest := rest) (by simp; omega) (by simp), readByte_succeed,
    readByte_writeBytes_bytesOfBlock, succeed_received, writeBytes_received]

end

/-- Settles O53: a host access is one `writeByte` or `readByte`, and LDS and STS read and store by the same bytes. -/
theorem hostReadsWhatItWrote : Obligations.HostReadsWhatItWrote := by
  unfold Obligations.HostReadsWhatItWrote
  refine ⟨fun s a v rest ha hp => ?_, fun s a rest => step_readMem, fun s a v rest ha hp => ?_,
    fun s x k rest hx => ⟨fun v => lds_loads_host_write hx, host_reads_sts_store hx⟩⟩
  · exact ⟨_, step_writeMem ha hp, readByte_writeByte_self s a v, sameOutside_writeByte s a v⟩
  · have hread := step_readMem (s := writeByte { s with pending := .readMem a :: rest } a v) ha rfl
    rw [readByte_writeByte_self] at hread
    exact ⟨_, step_writeMem ha hp, sameOutside_writeByte s a v, hread⟩

end Sys2Proof.Machine
end

section
/-! The decoder and the opcode table (O1 to O5): what each opcode's words decode to, and, said once for every row of R60, all that
the decoder can answer to a word with the row's opcode (spec/30_encoding.md R55 to R61). -/

namespace Sys2Proof

open Claims

/-! ## One equation per opcode (R59, R60) -/

theorem decode_clre : formatZ 0x01 .clre := by intro x; simp [decode, decodeZ_word]

theorem decode_gmul : formatB 0x10 .gmul := by intro z a b; simp [decode, decodeB_word]

theorem decode_xtime : formatX 0x11 .xtime := by intro z x; simp [decode, decodeX_word]

theorem decode_sbox : formatX 0x12 .sbox := by intro z x; simp [decode, decodeX_word]

theorem decode_isbox : formatX 0x13 .isbox := by intro z x; simp [decode, decodeX_word]

theorem decode_lds : formatA 0x20 .lds := by intro x; simp [decode, decodeA_word]

theorem decode_sts : formatA 0x21 .sts := by intro x; simp [decode, decodeA_word]

theorem decode_subb : formatZ 0x30 .subb := by intro x; simp [decode, decodeZ_word]

theorem decode_isubb : formatZ 0x31 .isubb := by intro x; simp [decode, decodeZ_word]

theorem decode_shrows : formatZ 0x32 .shrows := by intro x; simp [decode, decodeZ_word]

theorem decode_ishrows : formatZ 0x33 .ishrows := by intro x; simp [decode, decodeZ_word]

theorem decode_mixc : formatZ 0x34 .mixc := by intro x; simp [decode, decodeZ_word]

theorem decode_imixc : formatZ 0x35 .imixc := by intro x; simp [decode, decodeZ_word]

theorem decode_ark : formatI 0x36 .ark := by intro z k; simp [decode, decodeI_word]

theorem decode_kexp : formatZ 0x40 .kexp := by intro x; simp [decode, decodeZ_word]

theorem decode_ldiv : formatZ 0x41 .ldiv := by intro x; simp [decode, decodeZ_word]

theorem decode_ldnc : formatZ 0x42 .ldnc := by intro x; simp [decode, decodeZ_word]

theorem decode_enc : formatZ 0x50 .enc := by intro x; simp [decode, decodeZ_word]

theorem decode_dec : formatZ 0x51 .dec := by intro x; simp [decode, decodeZ_word]

theorem decode_setsrc : formatA 0x60 .setsrc := by intro x; simp [decode, decodeA_word]

theorem decode_setlen : formatA 0x61 .setlen := by intro x; simp [decode, decodeA_word]

theorem decode_setdst : formatA 0x62 .setdst := by intro x; simp [decode, decodeA_word]

theorem decode_pad : formatZ 0x70 .pad := by intro x; simp [decode, decodeZ_word]

theorem decode_unpad : formatZ 0x71 .unpad := by intro x; simp [decode, decodeZ_word]

theorem decode_menc : formatX 0x80 .menc := by intro z m; simp [decode, decodeX_word]

theorem decode_mdec : formatX 0x81 .mdec := by intro z m; simp [decode, decodeX_word]

/-- Class (a) of R61. -/
theorem decode_reservedOpcode {w : Word} (h : ∀ row ∈ opTable, opcodeOf w ≠ opcodeOf row.bits) :
    decode w = .error .reservedOpcode := by
  have hop : (opcodeOf w).toNat ∉ opTable.map fun row => (opcodeOf row.bits).toNat := by
    simpa only [List.mem_map, not_exists, not_and, ne_comm, BitVec.toNat_inj.not] using h
  unfold decode
  split
  case h_27 => rfl
  all_goals
    rename_i heq
    rw [heq] at hop
    exact absurd (by decide) hop

/-! ## Words as fields -/

/-- Every word is its opcode before its 24 operand bits (R56). -/
theorem exists_word (w : Word) : ∃ x, w = word (opcodeOf w) x :=
  ⟨imm24Of w, (BitVec.extractLsb'_append_extractLsb' (w := 8) (len := 24)).symm⟩

theorem exists_append {m n : Nat} (x : BitVec (m + n)) : ∃ (a : BitVec m) (b : BitVec n), x = a ++ b :=
  ⟨_, _, BitVec.extractLsb'_append_extractLsb'.symm⟩

/-- A mask that keeps the opcode gives the row's bits exactly if it gives no operand bit. -/
theorem word_and_eq_iff (op : BitVec 8) (x mask : BitVec 24) :
    word op x &&& word 0xFF mask = word op 0 ↔ x &&& mask = 0 := by
  have hop : op &&& 0xFF = op := BitVec.and_allOnes
  rw [word, word, BitVec.and_append, hop]
  exact BitVec.append_right_inj op

/-- A mask that drops the lower of two fields gives zero exactly if it does so on the upper one. -/
theorem append_and_eq_zero_iff {m n : Nat} (z mask : BitVec m) (x : BitVec n) :
    (z ++ x) &&& (mask ++ 0#n) = 0 ↔ z &&& mask = 0 := by
  rw [BitVec.and_append, BitVec.and_zero, BitVec.ofNat_eq_ofNat, ← BitVec.zero_append_zero]
  exact BitVec.append_left_inj _

/-- A mask that keeps the upper of two fields gives zero exactly if that field is. -/
theorem append_and_allOnes_eq_zero_iff {m n : Nat} (z : BitVec m) (x : BitVec n) :
    (z ++ x) &&& (BitVec.allOnes m ++ 0#n) = 0 ↔ z = 0 := by
  rw [append_and_eq_zero_iff, BitVec.and_allOnes]

/-! ## What the decoder answers to a word with a row's opcode -/

/-- All that the decoder can answer to a word with the opcode of a row (R59, R61): the row's command where the word matches, and
else the class of illegal word. -/
inductive RowAnswer (row : OpRow) (w : Word) : Prop
  | reservedBits (hmask : w &&& row.mask ≠ row.bits) (hdec : decode w = .error .reservedBits)
  | roundIndex (hmask : w &&& row.mask = row.bits) (hname : row.mnemonic = "ARK")
      (hindex : 10 < (roundIndexOf w).toNat) (hdec : decode w = .error .roundIndex)
  | command (i : Instr) (hmask : w &&& row.mask = row.bits)
      (hindex : row.mnemonic = "ARK" → (roundIndexOf w).toNat ≤ 10) (hdec : decode w = .ok i)
      (hname : i.mnemonic = row.mnemonic) (henc : encode i = w) (hwf : i.wf = true)

/-- The decoder answers to every word with the row's opcode as the row says. -/
def AnswersByRow (row : OpRow) : Prop := ∀ w, opcodeOf w = opcodeOf row.bits → RowAnswer row w

/-- Only ARK has operands that its field holds and R57 refuses. -/
theorem wf_of_mnemonic_ne {i : Instr} (h : i.mnemonic ≠ "ARK") : i.wf = true := by
  cases i with
  | ark k => exact absurd rfl h
  | _ => rfl

/-- The formats other than I: one test, which is that of the mask. -/
theorem RowAnswer.of_ite {row : OpRow} {w : Word} {i : Instr} {p : Prop} [Decidable p] (hname : i.mnemonic = row.mnemonic)
    (hne : row.mnemonic ≠ "ARK") (hmask : w &&& row.mask = row.bits ↔ p)
    (hdec : decode w = if p then .ok i else .error .reservedBits) (henc : p → encode i = w) : RowAnswer row w := by
  by_cases hp : p
  · rw [if_pos hp] at hdec
    exact .command i (hmask.2 hp) (fun h => absurd h hne) hdec hname (henc hp) (wf_of_mnemonic_ne (hname ▸ hne))
  · rw [if_neg hp] at hdec
    exact .reservedBits (hmask.not.2 hp) hdec

section

variable {op : BitVec 8} {name : String}

/-- A word with the opcode of a row's bits is that opcode before some operand bits. -/
theorem AnswersByRow.of_word {mask : Word} (h : ∀ x, RowAnswer ⟨name, mask, word op 0⟩ (word op x)) :
    AnswersByRow ⟨name, mask, word op 0⟩ := by
  intro w hop
  obtain ⟨x, hx⟩ := exists_word w
  rw [hx, hop, opcodeOf_word]
  exact h x

theorem answersByRow_formatZ {i : Instr} (h : formatZ op i) (henc : encode i = word op 0) (hname : i.mnemonic = name)
    (hne : name ≠ "ARK") : AnswersByRow ⟨name, 0xFFFFFFFF, word op 0⟩ := by
  refine .of_word fun x => .of_ite hname hne ?_ (h x) (by rintro rfl; exact henc)
  exact (word_and_eq_iff op x (BitVec.allOnes 24)).trans (by rw [BitVec.and_allOnes])

theorem answersByRow_formatA {f : BitVec 24 → Instr} (h : formatA op f) (henc : ∀ x, encode (f x) = word op x)
    (hname : ∀ x, (f x).mnemonic = name) (hne : name ≠ "ARK") : AnswersByRow ⟨name, 0xFF000000, word op 0⟩ := by
  refine .of_word fun x => .of_ite (p := True) (hname x) hne ?_ (by rw [if_pos trivial, h x]) fun _ => henc x
  exact (word_and_eq_iff op x 0).trans (by simp)

theorem answersByRow_formatB {f : Byte → Byte → Instr} (h : formatB op f)
    (henc : ∀ a b, encode (f a b) = word op ((0 : BitVec 8) ++ a ++ b)) (hname : ∀ a b, (f a b).mnemonic = name)
    (hne : name ≠ "ARK") : AnswersByRow ⟨name, 0xFFFF0000, word op 0⟩ := by
  refine .of_word fun x => ?_
  obtain ⟨za, b, rfl⟩ := exists_append (m := 16) (n := 8) x
  obtain ⟨z, a, rfl⟩ := exists_append (m := 8) (n := 8) za
  refine .of_ite (hname a b) hne ?_ (h z a b) (by rintro rfl; exact henc a b)
  exact (word_and_eq_iff op (z ++ a ++ b) (BitVec.allOnes 8 ++ 0#8 ++ 0#8)).trans
    ((append_and_eq_zero_iff (z ++ a) _ b).trans (append_and_allOnes_eq_zero_iff z a))

theorem answersByRow_formatX {f : Byte → Instr} (h : formatX op f)
    (henc : ∀ x, encode (f x) = word op ((0 : BitVec 16) ++ x)) (hname : ∀ x, (f x).mnemonic = name)
    (hne : name ≠ "ARK") : AnswersByRow ⟨name, 0xFFFFFF00, word op 0⟩ := by
  refine .of_word fun x => ?_
  obtain ⟨z, b, rfl⟩ := exists_append (m := 16) (n := 8) x
  refine .of_ite (hname b) hne ?_ (h z b) (by rintro rfl; exact henc b)
  exact (word_and_eq_iff op (z ++ b) (BitVec.allOnes 16 ++ 0#8)).trans (append_and_allOnes_eq_zero_iff z b)

end

/-- Format I, which one command has: two tests, of the mask and of the index. -/
theorem answersByRow_ark : AnswersByRow ⟨"ARK", 0xFFFFFFF0, 0x36000000⟩ := by
  refine .of_word (op := 0x36) fun x => ?_
  obtain ⟨z, k, rfl⟩ := exists_append (m := 20) (n := 4) x
  have hmask := (word_and_eq_iff 0x36 (z ++ k) (BitVec.allOnes 20 ++ 0#4)).trans (append_and_allOnes_eq_zero_iff z k)
  have hindex : roundIndexOf (word 0x36 (z ++ k)) = k :=
    (word_extractLsb' _ _ (by decide)).trans BitVec.extractLsb'_append_eq_right
  have hdec := decode_ark z k
  by_cases hz : z = 0
  · rw [if_pos hz] at hdec
    by_cases hk : k.toNat ≤ 10
    · rw [if_pos hk] at hdec
      exact .command (.ark k) (hmask.2 hz) (fun _ => hindex.symm ▸ hk) hdec rfl (by rw [hz]; rfl) (decide_eq_true hk)
    · rw [if_neg hk] at hdec
      exact .roundIndex (hmask.2 hz) rfl (hindex.symm ▸ Nat.lt_of_not_le hk) hdec
  · rw [if_neg hz] at hdec
    exact .reservedBits (hmask.not.2 hz) hdec

theorem answersByRow_of_mem : ∀ row ∈ opTable, AnswersByRow row := by
  simp only [opTable, opRowsLow, opRowsHigh, List.cons_append, List.nil_append, List.forall_mem_cons]
  exact ⟨answersByRow_formatZ (op := 0x01) decode_clre rfl rfl (by decide),
    answersByRow_formatB (op := 0x10) decode_gmul (fun _ _ => rfl) (fun _ _ => rfl) (by decide),
    answersByRow_formatX (op := 0x11) decode_xtime (fun _ => rfl) (fun _ => rfl) (by decide),
    answersByRow_formatX (op := 0x12) decode_sbox (fun _ => rfl) (fun _ => rfl) (by decide),
    answersByRow_formatX (op := 0x13) decode_isbox (fun _ => rfl) (fun _ => rfl) (by decide),
    answersByRow_formatA (op := 0x20) decode_lds (fun _ => rfl) (fun _ => rfl) (by decide),
    answersByRow_formatA (op := 0x21) decode_sts (fun _ => rfl) (fun _ => rfl) (by decide),
    answersByRow_formatZ (op := 0x30) decode_subb rfl rfl (by decide),
    answersByRow_formatZ (op := 0x31) decode_isubb rfl rfl (by decide),
    answersByRow_formatZ (op := 0x32) decode_shrows rfl rfl (by decide),
    answersByRow_formatZ (op := 0x33) decode_ishrows rfl rfl (by decide),
    answersByRow_formatZ (op := 0x34) decode_mixc rfl rfl (by decide),
    answersByRow_formatZ (op := 0x35) decode_imixc rfl rfl (by decide),
    answersByRow_ark,
    answersByRow_formatZ (op := 0x40) decode_kexp rfl rfl (by decide),
    answersByRow_formatZ (op := 0x41) decode_ldiv rfl rfl (by decide),
    answersByRow_formatZ (op := 0x42) decode_ldnc rfl rfl (by decide),
    answersByRow_formatZ (op := 0x50) decode_enc rfl rfl (by decide),
    answersByRow_formatZ (op := 0x51) decode_dec rfl rfl (by decide),
    answersByRow_formatA (op := 0x60) decode_setsrc (fun _ => rfl) (fun _ => rfl) (by decide),
    answersByRow_formatA (op := 0x61) decode_setlen (fun _ => rfl) (fun _ => rfl) (by decide),
    answersByRow_formatA (op := 0x62) decode_setdst (fun _ => rfl) (fun _ => rfl) (by decide),
    answersByRow_formatZ (op := 0x70) decode_pad rfl rfl (by decide),
    answersByRow_formatZ (op := 0x71) decode_unpad rfl rfl (by decide),
    answersByRow_formatX (op := 0x80) decode_menc (fun _ => rfl) (fun _ => rfl) (by decide),
    answersByRow_formatX (op := 0x81) decode_mdec (fun _ => rfl) (fun _ => rfl) (by decide), nofun⟩

/-- Class (b) of R61. -/
theorem decode_reservedBits {w : Word} {row : OpRow} (hrow : row ∈ opTable) (hop : opcodeOf w = opcodeOf row.bits)
    (hne : w &&& row.mask ≠ row.bits) : decode w = .error .reservedBits := by
  cases answersByRow_of_mem row hrow w hop with
  | reservedBits _ hdec => exact hdec
  | roundIndex hmask _ _ _ => exact absurd hmask hne
  | command i hmask _ _ _ _ _ => exact absurd hmask hne

/-- Class (c) of R61. -/
theorem decode_roundIndex {k : BitVec 4} (hk : 10 < k.toNat) : decode (0x3600000#28 ++ k) = .error .roundIndex := by
  have hword : 0x3600000#28 ++ k = word 0x36 ((0 : BitVec 20) ++ k) := by
    rw [word, BitVec.append_assoc']
    rfl
  rw [hword, decode_ark, if_pos rfl, if_neg (Nat.not_le.2 hk)]

/-! ## The rows of the table are told apart by opcode, and by mnemonic -/

theorem row_eq_of_opcodeOf_eq {r₁ r₂ : OpRow} (h₁ : r₁ ∈ opTable) (h₂ : r₂ ∈ opTable)
    (h : opcodeOf r₁.bits = opcodeOf r₂.bits) : r₁ = r₂ :=
  List.inj_on_of_nodup_map (f := fun row : OpRow => opcodeOf row.bits) (by decide) h₁ h₂ h

theorem row_eq_of_mnemonic_eq {r₁ r₂ : OpRow} (h₁ : r₁ ∈ opTable) (h₂ : r₂ ∈ opTable)
    (h : r₁.mnemonic = r₂.mnemonic) : r₁ = r₂ :=
  List.inj_on_of_nodup_map (f := OpRow.mnemonic) (by decide) h₁ h₂ h

/-- Every row's mask keeps the opcode, so a word that matches a row has the row's opcode. -/
theorem opcodeOf_of_matches {row : OpRow} (hrow : row ∈ opTable) {w : Word} (h : w &&& row.mask = row.bits) :
    opcodeOf w = opcodeOf row.bits := by
  have hmask : ∀ row ∈ opTable, opcodeOf row.mask = BitVec.allOnes 8 := by decide
  rw [← h, opcodeOf, opcodeOf, BitVec.extractLsb'_and]
  exact ((congrArg (opcodeOf w &&& ·) (hmask row hrow)).trans BitVec.and_allOnes).symm

/-- A word that decodes has the opcode of a row, and everything the row says of a command's word. -/
theorem exists_row_of_decode {w : Word} {i : Instr} (h : decode w = .ok i) :
    ∃ row ∈ opTable, w &&& row.mask = row.bits ∧ (row.mnemonic = "ARK" → (roundIndexOf w).toNat ≤ 10) ∧
      i.mnemonic = row.mnemonic ∧ encode i = w ∧ i.wf = true := by
  by_cases hlisted : ∃ row ∈ opTable, opcodeOf w = opcodeOf row.bits
  · obtain ⟨row, hrow, hop⟩ := hlisted
    cases answersByRow_of_mem row hrow w hop with
    | reservedBits _ hdec => rw [hdec] at h; cases h
    | roundIndex _ _ _ hdec => rw [hdec] at h; cases h
    | command j hmask hindex hdec hname henc hwf =>
      obtain rfl : j = i := Except.ok.inj (hdec.symm.trans h)
      exact ⟨row, hrow, hmask, hindex, hname, henc, hwf⟩
  · rw [decode_reservedOpcode fun row hrow hop => hlisted ⟨row, hrow, hop⟩] at h
    cases h

/-- Settles O1: command by command, over the formats. -/
theorem decodeOfEncode : Obligations.DecodeOfEncode := by
  unfold Obligations.DecodeOfEncode
  intro i
  exact decode_encode

/-- Settles O2: it is part of what the row of the word's opcode says. -/
theorem encodeOfDecode : Obligations.EncodeOfDecode := by
  unfold Obligations.EncodeOfDecode
  intro w i h
  obtain ⟨-, -, -, -, -, henc, hwf⟩ := exists_row_of_decode h
  exact ⟨henc, hwf⟩

/-- Settles O3: a matching word has the row's opcode, so it decodes as the row says; and opcodes tell the rows apart. -/
theorem decodeAgreesWithTable : Obligations.DecodeAgreesWithTable := by
  unfold Obligations.DecodeAgreesWithTable
  refine ⟨fun row hrow w => ⟨?_, ?_⟩, fun w r₁ h₁ r₂ h₂ hw₁ hw₂ => ?_⟩
  · rintro ⟨i, hdec, hname⟩
    obtain ⟨row', hrow', hmask, hindex, hname', -, -⟩ := exists_row_of_decode hdec
    obtain rfl := row_eq_of_mnemonic_eq hrow' hrow (hname'.symm.trans hname)
    exact ⟨hmask, hindex⟩
  · rintro ⟨hmask, hindex⟩
    cases answersByRow_of_mem row hrow w (opcodeOf_of_matches hrow hmask) with
    | reservedBits hne _ => exact absurd hmask hne
    | roundIndex _ hark hlt _ => exact absurd (hindex hark) (Nat.not_le.2 hlt)
    | command i _ _ hdec hname _ _ => exact ⟨i, hdec, hname⟩
  · exact row_eq_of_opcodeOf_eq h₁ h₂ ((opcodeOf_of_matches h₁ hw₁).symm.trans (opcodeOf_of_matches h₂ hw₂))

end Sys2Proof

namespace Sys2Proof.Machine

/-- A word that is no command's, on port 0, only reports (R61). -/
theorem step_illegal {s : State} {w : Word} {rest : List HostStep} (hp : s.pending = .writePort 0 w :: rest)
    (hw : ∀ i, decode w ≠ .ok i) : step s = .next (raise .illegalCommand { s with pending := rest }) := by
  rw [step_cons hp, hostStep_command]
  cases hd : decode w with
  | ok i => exact absurd hd (hw i)
  | error e => exact command_of_illegal hd _

/-- Settles O4: each class of illegal word by the decoder's answer to it, and all of them by the one error they raise. -/
theorem illegalWordOnlyReports : Obligations.IllegalWordOnlyReports := by
  unfold Obligations.IllegalWordOnlyReports
  refine ⟨fun s w rest => step_illegal, fun w => decode_reservedOpcode, ?_, fun k => decode_roundIndex, by decide +kernel⟩
  rintro w ⟨row, hrow, hop, hne⟩
  exact decode_reservedBits hrow hop hne

/-- Settles O5: each word is written out and evaluates. -/
theorem writtenWordsDecode : Obligations.WrittenWordsDecode :=
  ⟨rfl, rfl, rfl, rfl, rfl, rfl, rfl, rfl, rfl, rfl⟩

end Sys2Proof.Machine
end

section
/-! The assembler only makes words of commands (O7; spec/30_encoding.md R65): its one operand that a field could hold and R57
refuses, ARK's index, is checked. -/

namespace Sys2Proof.Machine

/-- Where the assembler makes a command, the command is well-formed. -/
def MakesWf (r : Except AsmError Instr) : Prop := ∀ i, r = .ok i → i.wf = true

namespace MakesWf

theorem ok {i : Instr} (h : i.wf = true) : MakesWf (.ok i) := by
  rintro _ ⟨⟩
  exact h

theorem error (e : AsmError) : MakesWf (.error e) := nofun

theorem map {α : Type} {x : Except AsmError α} {f : α → Instr} (h : ∀ a, x = .ok a → (f a).wf = true) :
    MakesWf (x.map f) := by
  cases x with
  | ok a => exact ok (h a rfl)
  | error e => exact error e

theorem bind {α : Type} {x : Except AsmError α} {f : α → Except AsmError Instr} (h : ∀ a, MakesWf (f a)) :
    MakesWf (x >>= f) := by
  cases x with
  | ok a => exact h a
  | error e => exact error e

theorem asmZ {i : Instr} (h : i.wf = true) (ops : List (List Char)) : MakesWf (asmZ i ops) := by
  cases ops with
  | nil => exact ok h
  | cons _ _ => exact error _

theorem asmA {f : BitVec 24 → Instr} (h : ∀ a, (f a).wf = true) (ops : List (List Char)) : MakesWf (asmA f ops) := by
  unfold Machine.asmA
  split
  · exact map fun _ _ => h _
  · exact error _

theorem asmB {f : Byte → Byte → Instr} (h : ∀ a b, (f a b).wf = true) (ops : List (List Char)) :
    MakesWf (asmB f ops) := by
  unfold Machine.asmB
  split
  · exact bind fun _ => bind fun _ => ok (h _ _)
  · exact error _

theorem asmX {f : Byte → Instr} (h : ∀ x, (f x).wf = true) (ops : List (List Char)) : MakesWf (asmX f ops) := by
  unfold Machine.asmX
  split
  · exact map fun _ _ => h _
  · exact error _

theorem asmM {f : Byte → Instr} (h : ∀ m, (f m).wf = true) (ops : List (List Char)) : MakesWf (asmM f ops) := by
  unfold Machine.asmM
  split
  · exact map fun _ _ => h _
  · exact error _

end MakesWf

theorem operandValue_eq_ok {max n : Nat} {l : List Char} (h : operandValue max l = .ok n) : n ≤ max := by
  unfold operandValue at h
  split at h
  · split at h
    · cases h
      assumption
    · cases h
  · cases h

/-- ARK's index is refused above 10. -/
theorem MakesWf.asmI_ark (ops : List (List Char)) : MakesWf (asmI .ark ops) := by
  unfold asmI
  split
  · refine map fun n hn => ?_
    have hle := operandValue_eq_ok hn
    simp only [Instr.wf, BitVec.toNat_ofNat, decide_eq_true_eq]
    omega
  · exact error _

/-! ## The assembler's mnemonics by their first letter -/

/-- `assembleCommand`, its one match on 26 mnemonics cut into one match per first letter, small enough to be split. -/
def assembleByLetter (m : List Char) (ops : List (List Char)) : Except AsmError Instr :=
  match m with
  | 'C' :: cs =>
    match cs with
    | ['L', 'R', 'E'] => asmZ .clre ops
    | _ => .error .unknownMnemonic
  | 'G' :: cs =>
    match cs with
    | ['M', 'U', 'L'] => asmB .gmul ops
    | _ => .error .unknownMnemonic
  | 'X' :: cs =>
    match cs with
    | ['T', 'I', 'M', 'E'] => asmX .xtime ops
    | _ => .error .unknownMnemonic
  | 'S' :: cs =>
    match cs with
    | ['B', 'O', 'X'] => asmX .sbox ops
    | ['T', 'S'] => asmA .sts ops
    | ['U', 'B', 'B'] => asmZ .subb ops
    | ['H', 'R', 'O', 'W', 'S'] => asmZ .shrows ops
    | ['E', 'T', 'S', 'R', 'C'] => asmA .setsrc ops
    | ['E', 'T', 'L', 'E', 'N'] => asmA .setlen ops
    | ['E', 'T', 'D', 'S', 'T'] => asmA .setdst ops
    | _ => .error .unknownMnemonic
  | 'I' :: cs =>
    match cs with
    | ['S', 'B', 'O', 'X'] => asmX .isbox ops
    | ['S', 'U', 'B', 'B'] => asmZ .isubb ops
    | ['S', 'H', 'R', 'O', 'W', 'S'] => asmZ .ishrows ops
    | ['M', 'I', 'X', 'C'] => asmZ .imixc ops
    | _ => .error .unknownMnemonic
  | 'L' :: cs =>
    match cs with
    | ['D', 'S'] => asmA .lds ops
    | ['D', 'I', 'V'] => asmZ .ldiv ops
    | ['D', 'N', 'C'] => asmZ .ldnc ops
    | _ => .error .unknownMnemonic
  | 'M' :: cs =>
    match cs with
    | ['I', 'X', 'C'] => asmZ .mixc ops
    | ['E', 'N', 'C'] => asmM .menc ops
    | ['D', 'E', 'C'] => asmM .mdec ops
    | _ => .error .unknownMnemonic
  | 'A' :: cs =>
    match cs with
    | ['R', 'K'] => asmI .ark ops
    | _ => .error .unknownMnemonic
  | 'K' :: cs =>
    match cs with
    | ['E', 'X', 'P'] => asmZ .kexp ops
    | _ => .error .unknownMnemonic
  | 'E' :: cs =>
    match cs with
    | ['N', 'C'] => asmZ .enc ops
    | _ => .error .unknownMnemonic
  | 'D' :: cs =>
    match cs with
    | ['E', 'C'] => asmZ .dec ops
    | _ => .error .unknownMnemonic
  | 'P' :: cs =>
    match cs with
    | ['A', 'D'] => asmZ .pad ops
    | _ => .error .unknownMnemonic
  | 'U' :: cs =>
    match cs with
    | ['N', 'P', 'A', 'D'] => asmZ .unpad ops
    | _ => .error .unknownMnemonic
  | _ => .error .unknownMnemonic

set_option smartUnfolding false in
/-- The two test the same characters in the same order, so they compute alike; smart unfolding would not look into a match whose
text is unknown. -/
theorem assembleCommand_eq_byLetter (m : List Char) (ops : List (List Char)) :
    assembleCommand m ops = assembleByLetter m ops := rfl

theorem assembleCommand_makesWf (m : List Char) (ops : List (List Char)) : MakesWf (assembleCommand m ops) := by
  rw [assembleCommand_eq_byLetter]
  unfold assembleByLetter
  split
  · split
    exacts [.asmZ rfl ops, .error _]
  · split
    exacts [.asmB (fun _ _ => rfl) ops, .error _]
  · split
    exacts [.asmX (fun _ => rfl) ops, .error _]
  · split
    exacts [.asmX (fun _ => rfl) ops, .asmA (fun _ => rfl) ops, .asmZ rfl ops, .asmZ rfl ops,
      .asmA (fun _ => rfl) ops, .asmA (fun _ => rfl) ops, .asmA (fun _ => rfl) ops, .error _]
  · split
    exacts [.asmX (fun _ => rfl) ops, .asmZ rfl ops, .asmZ rfl ops, .asmZ rfl ops, .error _]
  · split
    exacts [.asmA (fun _ => rfl) ops, .asmZ rfl ops, .asmZ rfl ops, .error _]
  · split
    exacts [.asmZ rfl ops, .asmM (fun _ => rfl) ops, .asmM (fun _ => rfl) ops, .error _]
  · split
    exacts [.asmI_ark ops, .error _]
  · split
    exacts [.asmZ rfl ops, .error _]
  · split
    exacts [.asmZ rfl ops, .error _]
  · split
    exacts [.asmZ rfl ops, .error _]
  · split
    exacts [.asmZ rfl ops, .error _]
  · split
    exacts [.asmZ rfl ops, .error _]
  · exact .error _

theorem except_map_eq_ok {ε α β : Type} {x : Except ε α} {f : α → β} {b : β} :
    x.map f = .ok b ↔ ∃ a, x = .ok a ∧ f a = b := by
  cases x <;> simp [Except.map]

/-- A word of a line is the word of the command its text makes. -/
theorem assembleLine_eq_ok {line : List Char} {w : Word} (h : assembleLine line = .ok (some w)) :
    ∃ m ops i, assembleCommand m ops = .ok i ∧ encode i = w := by
  unfold assembleLine at h
  split at h
  · cases h
  · obtain ⟨i, hi, hw⟩ := except_map_eq_ok.1 h
    exact ⟨_, _, i, hi, Option.some.inj hw⟩

/-- Settles O7: the command that the line's text makes is well-formed, and its word decodes to it. -/
theorem assembledLineDecodes : Obligations.AssembledLineDecodes := by
  unfold Obligations.AssembledLineDecodes
  intro line w h
  obtain ⟨m, ops, i, hi, henc⟩ := assembleLine_eq_ok h
  exact ⟨i, henc ▸ decode_encode (assembleCommand_makesWf m ops i hi), henc⟩

end Sys2Proof.Machine
end

section
/-! The pseudo-commands that load a key (O58; spec/30_encoding.md R66, 42_key_schedule.md R112). -/

namespace Sys2Proof.Machine

open Claims

theorem zext32_eq_append (a : BitVec 24) : zext32 a = (0 : BitVec 8) ++ a := by
  rw [zext32, BitVec.setWidth_eq_append (by decide)]
  rfl

theorem zext32_toNat (a : BitVec 24) : (zext32 a).toNat = a.toNat := by
  rw [zext32, BitVec.toNat_setWidth]
  omega

/-- The Block of 16 bytes that are read is the Block of MEM there. -/
theorem blockOfBytes_readBytes (s : State) (a : Nat) : blockOfBytes (readBytes s a 16) = memBlock s a := by
  refine Vector.ext fun k hk => ?_
  rw [memBlock, Vector.getElem_ofFn]
  exact blockOfBytes_readBytes_getElem s a ⟨k, hk⟩

/-- After a success the host goes on to the commands left (R66). -/
theorem runCommands_cons {i : Instr} {s t : State} (is : List Instr) (h : exec i s = .next t) (herr : t.ERR = 0) :
    runCommands (i :: is) s = runCommands is t := by
  simp [runCommands, h, herr]

/-- After the last command there is nothing to go on to or to stop. -/
theorem runCommands_singleton (i : Instr) (s : State) : runCommands [i] s = exec i s := by
  obtain ⟨t, h⟩ := exec_next i s
  simp [runCommands, h]

/-- The pseudo-commands with a buffer begin by setting the descriptor, which cannot fail (R66, R130, R131). -/
theorem runCommands_setsrc_setlen (a n : BitVec 24) (is : List Instr) (s : State) :
    runCommands (.setsrc a :: .setlen n :: is) s =
      runCommands is { s with SRC := (0 : BitVec 8) ++ a, LEN := (0 : BitVec 8) ++ n, ERR := 0 } := by
  rw [runCommands_cons _ (exec_setsrc a s) rfl, runCommands_cons _ (exec_setlen n _) rfl]
  simp only [zext32_eq_append]
  rfl

theorem exec_kexp_of_fits {s : State} (hlen : s.LEN.toNat = 16) (hfits : s.SRC.toNat + 16 ≤ s.memSize) :
    exec .kexp s = .next (succeed { s with RK := KeyExpand (memBlock s s.SRC.toNat), KV := true }) := by
  rw [exec_kexp, readSource16_eq_ok.2 ⟨hlen, hfits, rfl⟩, blockOfBytes_readBytes]
  rfl

theorem exec_kexp_of_length_ne {s : State} (hlen : s.LEN.toNat ≠ 16) :
    exec .kexp s = .next (raise .unsupportedKeySize (dropKey s)) := by
  rw [exec_kexp, readSource16_eq_error.2 (.inl ⟨hlen, rfl⟩)]
  rfl

/-- Settles O58: the descriptor is set, and KEXP then succeeds, or fails by its length check. -/
theorem loadkeyPseudoCommands : Obligations.LoadkeyPseudoCommands := by
  unfold Obligations.LoadkeyPseudoCommands
  intro a n s
  have hsrc := zext32_toNat a
  have hlen := zext32_toNat n
  rw [zext32_eq_append] at hsrc hlen
  refine ⟨fun hfits => ?_, fun hne => ?_⟩
  · rw [runPseudo, Pseudo.expand, runCommands_setsrc_setlen, runCommands_singleton,
      exec_kexp_of_fits rfl (hsrc.symm ▸ hfits), hsrc]
    rfl
  · rw [runPseudo, Pseudo.expand, runCommands_setsrc_setlen, runCommands_singleton,
      exec_kexp_of_length_ne (hlen.symm ▸ BitVec.toNat_ne.1 hne)]
    rfl

end Sys2Proof.Machine
end

section
/-! GF(2^8) (O8, O9, O10; spec/40_gf_sbox.md R75 to R77, R81, R82): `gmul` is linear in each of its bytes, for `^` and for
`xtime`, and a linear map is known by its value at 1; the laws of R77 compare two such maps. -/

namespace Sys2Proof.Machine

open Claims

/-! ## Bytes -/

/-- What holds of the 256 values holds of every byte: the form in which a fact about a table is checked. -/
theorem forall_byte {P : Byte → Prop} (h : ∀ n : Fin 256, P (BitVec.ofFin n)) (a : Byte) : P a := h a.toFin

/-- Adding `m` if a bit is set is additive in the bit and the value together: set twice, it cancels. -/
theorem ite_xor_additive {w : Nat} (x y m : BitVec w) : ∀ p q : Bool,
    (if (p ^^ q) = true then x ^^^ y ^^^ m else x ^^^ y) =
      (if p = true then x ^^^ m else x) ^^^ (if q = true then y ^^^ m else y)
  | false, false => rfl
  | false, true => BitVec.xor_assoc x y m
  | true, false => by
    change x ^^^ y ^^^ m = x ^^^ m ^^^ y
    ac_rfl
  | true, true => by
    change x ^^^ y = x ^^^ m ^^^ (y ^^^ m)
    calc x ^^^ y = x ^^^ y ^^^ (m ^^^ m) := by rw [BitVec.xor_self, BitVec.xor_zero]
      _ = x ^^^ m ^^^ (y ^^^ m) := by ac_rfl

/-- A byte is its half doubled, which loses no bit, and its low bit. -/
theorem xtime_half_xor_bit : ∀ a : Byte, xtime (a >>> 1) ^^^ (if a.getLsbD 0 then 1 else 0#8) = a :=
  forall_byte (by decide +kernel)

/-- Every byte is built from 0 by doubling and by adding 1 (Horner's scheme). -/
theorem byte_induction {P : Byte → Prop} (zero : P 0) (double : ∀ a, P a → P (xtime a))
    (add_one : ∀ a, P a → P (a ^^^ 1)) (a : Byte) : P a := by
  by_cases ha : a = 0
  · exact ha ▸ zero
  · have ih := double _ (byte_induction zero double add_one (a >>> 1))
    rw [← xtime_half_xor_bit a]
    split
    · exact add_one _ ih
    · rwa [BitVec.xor_zero]
termination_by a.toNat
decreasing_by
  have hpos : a.toNat ≠ 0 := fun h => ha (BitVec.eq_of_toNat_eq h)
  rw [BitVec.toNat_ushiftRight, Nat.shiftRight_eq_div_pow]
  omega

/-! ## Doubling -/

theorem xtime_xor (a b : Byte) : xtime (a ^^^ b) = xtime a ^^^ xtime b := by
  unfold xtime
  rw [BitVec.getLsbD_xor, BitVec.shiftLeft_xor_distrib, ite_xor_additive]

/-- Doubling as arithmetic on the byte's number (R75, R82). -/
theorem xtime_eq_ofNat (a : Byte) :
    xtime a = BitVec.ofNat 8 (2 * a.toNat) ^^^ (if 128 ≤ a.toNat then 0x1B else 0) := by
  have hbit : a.getLsbD 7 = decide (128 ≤ a.toNat) := BitVec.msb_eq_decide a
  have hshift : a <<< 1 = BitVec.ofNat 8 (2 * a.toNat) := by
    apply BitVec.eq_of_toNat_eq
    rw [BitVec.toNat_shiftLeft, Nat.shiftLeft_eq, Nat.mul_comm, BitVec.toNat_ofNat]
  unfold xtime
  simp only [hbit, hshift, decide_eq_true_eq]
  split
  · rfl
  · exact BitVec.xor_zero.symm

/-! ## The loop of `gmul` is linear in each byte -/

theorem gmulLoop_xor_left (n : Nat) (a a' b acc acc' : Byte) :
    gmulLoop n (a ^^^ a') b (acc ^^^ acc') = gmulLoop n a b acc ^^^ gmulLoop n a' b acc' := by
  induction n generalizing a a' b acc acc' with
  | zero => rfl
  | succ n ih =>
    simp only [gmulLoop, xtime_xor, ← ih]
    congr 1
    split
    · ac_rfl
    · rfl

theorem gmulLoop_xor_right (n : Nat) (a b b' acc acc' : Byte) :
    gmulLoop n a (b ^^^ b') (acc ^^^ acc') = gmulLoop n a b acc ^^^ gmulLoop n a b' acc' := by
  induction n generalizing a b b' acc acc' with
  | zero => rfl
  | succ n ih =>
    simp only [gmulLoop, ← ih, BitVec.ushiftRight_xor_distrib, BitVec.getLsbD_xor]
    rw [ite_xor_additive]

theorem gmulLoop_xtime (n : Nat) (a b acc : Byte) :
    gmulLoop n (xtime a) b (xtime acc) = xtime (gmulLoop n a b acc) := by
  induction n generalizing a b acc with
  | zero => rfl
  | succ n ih => simp only [gmulLoop, ← ih, apply_ite xtime, xtime_xor]

theorem gmul_xor_left (a a' b : Byte) : gmul (a ^^^ a') b = gmul a b ^^^ gmul a' b := gmulLoop_xor_left 8 a a' b 0 0

theorem gmul_xor_right (a b b' : Byte) : gmul a (b ^^^ b') = gmul a b ^^^ gmul a b' := gmulLoop_xor_right 8 a b b' 0 0

theorem gmul_xtime_left (a b : Byte) : gmul (xtime a) b = xtime (gmul a b) := gmulLoop_xtime 8 a b 0

theorem gmul_one (a : Byte) : gmul a 1 = a := by simp [gmul, gmulLoop]

theorem one_gmul : ∀ b : Byte, gmul 1 b = b := forall_byte (by decide +kernel)

/-! ## Linear maps of bytes -/

/-- A map that respects `^` and doubling, so multiplication by every polynomial. -/
structure GfLinear (f : Byte → Byte) : Prop where
  map_xor : ∀ a b, f (a ^^^ b) = f a ^^^ f b
  map_xtime : ∀ a, f (xtime a) = xtime (f a)

theorem GfLinear.map_zero {f : Byte → Byte} (hf : GfLinear f) : f 0 = 0 := by
  simpa using hf.map_xor 0 0

/-- Linear maps that agree at 1 agree. -/
theorem GfLinear.eq_of_one {f g : Byte → Byte} (hf : GfLinear f) (hg : GfLinear g) (h : f 1 = g 1) (a : Byte) :
    f a = g a := by
  induction a using byte_induction with
  | zero => rw [hf.map_zero, hg.map_zero]
  | double a ih => rw [hf.map_xtime, hg.map_xtime, ih]
  | add_one a ih => rw [hf.map_xor, hg.map_xor, ih, h]

theorem GfLinear.comp {f g : Byte → Byte} (hf : GfLinear f) (hg : GfLinear g) : GfLinear fun a => f (g a) :=
  ⟨fun a b => by rw [hg.map_xor, hf.map_xor], fun a => by rw [hg.map_xtime, hf.map_xtime]⟩

theorem gfLinear_xtime : GfLinear xtime := ⟨xtime_xor, fun _ => rfl⟩

theorem gfLinear_gmul_left (b : Byte) : GfLinear fun a => gmul a b :=
  ⟨fun a a' => gmul_xor_left a a' b, fun a => gmul_xtime_left a b⟩

theorem gmul_xtime_right (a b : Byte) : gmul a (xtime b) = xtime (gmul a b) :=
  (gfLinear_gmul_left (xtime b)).eq_of_one (gfLinear_xtime.comp (gfLinear_gmul_left b)) (by simp only [one_gmul]) a

theorem gfLinear_gmul_right (a : Byte) : GfLinear fun b => gmul a b := ⟨gmul_xor_right a, gmul_xtime_right a⟩

/-! ## The laws of `gmul` (R77) -/

theorem gmul_zero (a : Byte) : gmul a 0 = 0 := (gfLinear_gmul_right a).map_zero

theorem zero_gmul (b : Byte) : gmul 0 b = 0 := (gfLinear_gmul_left b).map_zero

theorem gmul_comm (a b : Byte) : gmul a b = gmul b a :=
  (gfLinear_gmul_left b).eq_of_one (gfLinear_gmul_right b) ((one_gmul b).trans (gmul_one b).symm) a

theorem gmul_assoc (a b c : Byte) : gmul (gmul a b) c = gmul a (gmul b c) :=
  ((gfLinear_gmul_left c).comp (gfLinear_gmul_left b)).eq_of_one (gfLinear_gmul_left (gmul b c))
    (by simp only [one_gmul]) a

theorem gmul_two (a : Byte) : gmul a 2 = xtime a := by
  calc gmul a (xtime 1) = xtime (gmul a 1) := gmul_xtime_right a 1
    _ = xtime a := by rw [gmul_one]

theorem gmul_three (a : Byte) : gmul a 3 = xtime a ^^^ a := by
  calc gmul a (2 ^^^ 1) = gmul a 2 ^^^ gmul a 1 := gmul_xor_right a 2 1
    _ = xtime a ^^^ a := by rw [gmul_two, gmul_one]

/-- The inverse of the affine map of R80. -/
def affineInv (b : Byte) : Byte := b.rotateLeft 6 ^^^ b.rotateLeft 3 ^^^ b.rotateLeft 1 ^^^ 0x05

theorem affine_affineInv : ∀ b : Byte, affine (affineInv b) = b := forall_byte (by decide +kernel)

/-- The inverse of a byte in GF(2^8), and 0 for 0, read off the S-box (R80). -/
def gfInv (a : Byte) : Byte := affineInv (sBox a)

theorem gmul_gfInv : ∀ a : Byte, a ≠ 0 → gmul a (gfInv a) = 1 := forall_byte (by decide +kernel)

/-- A byte has no other inverse: `y = (i * a) * y = i * (a * y) = i` for an inverse `i`. -/
theorem eq_of_gmul_eq_one {a i y : Byte} (hi : gmul a i = 1) (hy : gmul a y = 1) : y = i := by
  calc y = gmul (gmul i a) y := by rw [gmul_comm i, hi, one_gmul]
    _ = i := by rw [gmul_assoc, hy, gmul_one]

/-- The round constants are the successive doublings (R77, R110). -/
theorem rc_succ (i : Nat) (h1 : 1 ≤ i) (h10 : i < 10) : rc (i + 1) = xtime (rc i) := by
  interval_cases i <;> rfl

/-- Settles O10: in each law the two sides are linear in the same byte and agree at 1. -/
theorem gmulFieldLaws : Obligations.GmulFieldLaws := by
  unfold Obligations.GmulFieldLaws
  exact ⟨fun a => ⟨gmul_zero a, zero_gmul a, gmul_one a, one_gmul a, gmul_two a, gmul_three a⟩, gmul_comm,
    gmul_xor_right, gmul_assoc, fun a ha => ⟨gfInv a, gmul_gfInv a ha, fun _ => eq_of_gmul_eq_one (gmul_gfInv a ha)⟩,
    rfl, rc_succ⟩

/-! ## The product of polynomials (R76): reduction is linear and sends multiples of 0x11B to 0 -/

/-- One step of `polyReduce`: the term `x^k` is cancelled by 0x11B times `x^(k-8)`. -/
def cancelTerm (q : BitVec 16) (k : Nat) : BitVec 16 :=
  if q.getLsbD k then q ^^^ ((0x11B : BitVec 16) <<< (k - 8)) else q

theorem polyReduce_eq_foldl (p : BitVec 16) :
    polyReduce p = ([14, 13, 12, 11, 10, 9, 8].foldl cancelTerm p).setWidth 8 := rfl

theorem cancelTerm_xor (p q : BitVec 16) (k : Nat) : cancelTerm (p ^^^ q) k = cancelTerm p k ^^^ cancelTerm q k := by
  unfold cancelTerm
  rw [BitVec.getLsbD_xor, ite_xor_additive]

theorem foldl_cancelTerm_xor (ks : List Nat) (p q : BitVec 16) :
    ks.foldl cancelTerm (p ^^^ q) = ks.foldl cancelTerm p ^^^ ks.foldl cancelTerm q := by
  induction ks generalizing p q with
  | nil => rfl
  | cons k ks ih => rw [List.foldl_cons, cancelTerm_xor, ih]; rfl

theorem polyReduce_xor (p q : BitVec 16) : polyReduce (p ^^^ q) = polyReduce p ^^^ polyReduce q := by
  simp only [polyReduce_eq_foldl, foldl_cancelTerm_xor, BitVec.setWidth_xor]

/-- A polynomial of degree below 8 is reduced. -/
theorem polyReduce_setWidth (a : Byte) : polyReduce (a.setWidth 16) = a := by
  simp [polyReduce_eq_foldl, cancelTerm]

theorem polyReduce_zero : polyReduce 0#16 = 0#8 := rfl

theorem polyReduce_modulus_shiftLeft {i : Nat} (h : i < 7) : polyReduce ((0x11B : BitVec 16) <<< i) = 0#8 := by
  interval_cases i <;> rfl

/-- Doubling is shifting, and adding 0x11B when the shift made a term `x^8` (R75). -/
theorem setWidth_xtime :
    ∀ a : Byte, (xtime a).setWidth 16 = a.setWidth 16 <<< 1 ^^^ (if a.getLsbD 7 then 0x11B else 0#16) :=
  forall_byte (by decide +kernel)

/-- Shifting once more is doubling first, modulo 0x11B. -/
theorem polyReduce_shiftLeft_succ (a : Byte) {i : Nat} (h : i < 7) :
    polyReduce (a.setWidth 16 <<< (i + 1)) = polyReduce ((xtime a).setWidth 16 <<< i) := by
  rw [setWidth_xtime, BitVec.shiftLeft_xor_distrib, polyReduce_xor, ← BitVec.shiftLeft_add, Nat.add_comm 1]
  split
  · rw [polyReduce_modulus_shiftLeft h, BitVec.xor_zero]
  · rw [BitVec.zero_shiftLeft, polyReduce_zero, BitVec.xor_zero]

theorem polyReduce_shiftLeft (a : Byte) {i : Nat} (h : i ≤ 7) :
    polyReduce (a.setWidth 16 <<< i) = xtime^[i] a := by
  induction i generalizing a with
  | zero => rw [BitVec.shiftLeft_zero, polyReduce_setWidth]; rfl
  | succ i ih => rw [polyReduce_shiftLeft_succ a h, ih _ (by omega), Function.iterate_succ_apply]

/-- One step of `polyProduct`: `x^i` times `a` is added if `b` has the term `x^i`. -/
def addTerm (a b : Byte) (acc : BitVec 16) (i : Nat) : BitVec 16 :=
  if b.getLsbD i then acc ^^^ (a.setWidth 16 <<< i) else acc

theorem polyReduce_addTerm (a b : Byte) (p : BitVec 16) {i : Nat} (h : i ≤ 7) :
    polyReduce (addTerm a b p i) = if b.getLsbD i then polyReduce p ^^^ xtime^[i] a else polyReduce p := by
  rw [addTerm, apply_ite polyReduce, polyReduce_xor, polyReduce_shiftLeft a h]

/-- The loop of `gmul` from its iteration `i` on is the rest of the product, reduced. -/
theorem gmulLoop_eq_polyReduce (a b : Byte) (p : BitVec 16) {n i : Nat} (h : i + n ≤ 8) :
    gmulLoop n (xtime^[i] a) (b >>> i) (polyReduce p) = polyReduce ((List.range' i n).foldl (addTerm a b) p) := by
  induction n generalizing i p with
  | zero => rfl
  | succ n ih =>
    rw [List.range'_succ, List.foldl_cons, ← ih _ (by omega), polyReduce_addTerm a b p (by omega), gmulLoop,
      Function.iterate_succ_apply', ← BitVec.shiftRight_add, BitVec.getLsbD_ushiftRight]
    rfl

theorem gmul_eq_polyReduce (a b : Byte) : gmul a b = polyReduce (polyProduct a b) :=
  gmulLoop_eq_polyReduce a b 0 (n := 8) (i := 0) (by omega)

/-- Settles O8: the loop reduces after each shift, the product of polynomials at its end. -/
theorem gmulIsPolynomialProduct : Obligations.GmulIsPolynomialProduct := by
  unfold Obligations.GmulIsPolynomialProduct
  exact ⟨decode_gmul, fun a b s => ⟨exec_gmul a b s, gmul_eq_polyReduce a b⟩⟩

/-- Settles O9: the bit shifted out is set from 128 on. -/
theorem xtimeDoubles : Obligations.XtimeDoubles := by
  unfold Obligations.XtimeDoubles
  refine ⟨decode_xtime, fun x s => ?_⟩
  rw [← xtime_eq_ofNat]
  exact exec_xtime x s

end Sys2Proof.Machine
end

section
/-! The S-box and the inverse S-box (O11, O12; spec/40_gf_sbox.md R78 to R80, R83, R84). The tables are data, so a fact about
one is checked entry by entry. -/

namespace Sys2Proof.Machine

open Claims

theorem affine_gfInv (x : Byte) : affine (gfInv x) = sBox x := affine_affineInv (sBox x)

/-- Settles O12: the byte with product 1 is `gfInv x`, and so is 0 for 0. -/
theorem sboxIsAffineInverse : Obligations.SboxIsAffineInverse := by
  unfold Obligations.SboxIsAffineInverse
  intro x y h
  have hy : y = gfInv x := by
    rcases h with h | ⟨rfl, rfl⟩
    · have hx : x ≠ 0 := by
        rintro rfl
        exact absurd ((zero_gmul y).symm.trans h) (by decide)
      exact eq_of_gmul_eq_one (gmul_gfInv x hx) h
    · rfl
  rw [hy, affine_gfInv]

theorem invSBox_sBox : Function.LeftInverse invSBox sBox := forall_byte (by decide +kernel)

/-- A permutation of the bytes is undone from both sides (R80, by counting). -/
theorem sBox_invSBox : Function.RightInverse invSBox sBox :=
  invSBox_sBox.rightInverse_of_surjective (Finite.surjective_of_injective invSBox_sBox.injective)

theorem sBox_ne_self : ∀ x : Byte, sBox x ≠ x := forall_byte (by decide +kernel)

theorem sBox_ne_complement : ∀ x : Byte, sBox x ≠ x ^^^ 0xFF := forall_byte (by decide +kernel)

/-- Settles O11: each command is one lookup, and the tables undo each other. -/
theorem sboxAndIsboxCommands : Obligations.SboxAndIsboxCommands := by
  unfold Obligations.SboxAndIsboxCommands
  refine ⟨decode_sbox, decode_isbox, fun x s =>
    ⟨exec_sbox x s, exec_isbox x s, ?_, ?_, sBox_ne_self x, sBox_ne_complement x⟩⟩
  · rw [exec_isbox, invSBox_sBox]
    rfl
  · rw [exec_sbox, sBox_invSBox]
    rfl

end Sys2Proof.Machine
end

section
/-! The state transforms as functions of a Block (spec/41_state_transforms.md R90 to R97): which bytes each moves or
changes, and the function that undoes it. -/

namespace Sys2Proof.Machine

open Function

/-! ## SubBytes (R90, R91) and ShiftRows (R92, R93) -/

theorem InvSubBytes_SubBytes : LeftInverse InvSubBytes SubBytes := fun b =>
  Vector.ext fun i hi => by rw [InvSubBytes_getElem _ i hi, SubBytes_getElem _ i hi, invSBox_sBox]

theorem SubBytes_InvSubBytes : LeftInverse SubBytes InvSubBytes := fun b =>
  Vector.ext fun i hi => by rw [SubBytes_getElem _ i hi, InvSubBytes_getElem _ i hi, sBox_invSBox]

theorem InvShiftRows_ShiftRows : LeftInverse InvShiftRows ShiftRows := fun b =>
  Vector.ext fun i hi => by
    rw [InvShiftRows_getElem _ i hi, ShiftRows_getElem]
    exact getElem_congr_idx (by omega)

theorem ShiftRows_InvShiftRows : LeftInverse ShiftRows InvShiftRows := fun b =>
  Vector.ext fun i hi => by
    rw [ShiftRows_getElem _ i hi, InvShiftRows_getElem]
    exact getElem_congr_idx (by omega)

/-- One changes values, the other positions (R97). -/
theorem ShiftRows_SubBytes (b : Block) : ShiftRows (SubBytes b) = SubBytes (ShiftRows b) :=
  Vector.ext fun i hi => by
    rw [ShiftRows_getElem _ i hi, SubBytes_getElem, SubBytes_getElem _ i hi, ShiftRows_getElem _ i hi]

theorem InvShiftRows_InvSubBytes (b : Block) : InvShiftRows (InvSubBytes b) = InvSubBytes (InvShiftRows b) :=
  Vector.ext fun i hi => by
    rw [InvShiftRows_getElem _ i hi, InvSubBytes_getElem, InvSubBytes_getElem _ i hi, InvShiftRows_getElem _ i hi]

/-- A Block given index by index is given by the table of those indices. -/
theorem toList_eq_map_of_getElem {b s : Block} {table : List (Fin 16)} (hlen : table.length = 16)
    (h : ∀ i : Fin 16, b[i] = s[table[i]]) : b.toList = table.map fun i => s[i] :=
  List.ext_getElem (by simp [hlen]) fun i hi _ => by
    simpa using h ⟨i, by simpa using hi⟩

theorem ShiftRows_toList (s : Block) : (ShiftRows s).toList =
    ([0, 5, 10, 15, 4, 9, 14, 3, 8, 13, 2, 7, 12, 1, 6, 11] : List (Fin 16)).map fun i => s[i] :=
  toList_eq_map_of_getElem rfl fun i => (ShiftRows_getElem s i i.isLt).trans
    (getElem_congr_idx (by revert i; decide))

theorem InvShiftRows_toList (s : Block) : (InvShiftRows s).toList =
    ([0, 13, 10, 7, 4, 1, 14, 11, 8, 5, 2, 15, 12, 9, 6, 3] : List (Fin 16)).map fun i => s[i] :=
  toList_eq_map_of_getElem rfl fun i => (InvShiftRows_getElem s i i.isLt).trans
    (getElem_congr_idx (by revert i; decide))

/-! ## MixColumns (R94, R95): both are products with a matrix over GF(2^8), and the two matrices are inverse -/

theorem two_gmul (a : Byte) : gmul 2 a = xtime a := (gmul_comm 2 a).trans (gmul_two a)

theorem three_gmul (a : Byte) : gmul 3 a = xtime a ^^^ a := (gmul_comm 3 a).trans (gmul_three a)

/-- A 4 by 4 matrix of bytes, to be multiplied by `gmul` and added by `^`. -/
abbrev GfMatrix := Matrix (Fin 4) (Fin 4) Byte

/-- The matrix of R94. -/
def mixMatrix : GfMatrix := !![2, 3, 1, 1; 1, 2, 3, 1; 1, 1, 2, 3; 3, 1, 1, 2]

/-- The matrix of R95. -/
def invMixMatrix : GfMatrix := !![14, 11, 13, 9; 9, 14, 11, 13; 13, 9, 14, 11; 11, 13, 9, 14]

/-- One output row of a matrix product on column `c` (R94, R95). -/
def gfRow (k : Fin 4 → Byte) (s : Block) (c : Nat) : Byte := mulRow (k 0) (k 1) (k 2) (k 3) s c

/-- Each column of the State multiplied by a matrix. -/
def mulColumns (M : GfMatrix) (s : Block) : Block :=
  Vector.ofFn fun i : Fin 16 => gfRow (M (Fin.ofNat 4 i)) s (i.val / 4)

/-- The product of two matrices. -/
def gfMatMul (M N : GfMatrix) : GfMatrix := fun r j =>
  gmul (M r 0) (N 0 j) ^^^ gmul (M r 1) (N 1 j) ^^^ gmul (M r 2) (N 2 j) ^^^ gmul (M r 3) (N 3 j)

theorem MixColumns_eq (s : Block) : MixColumns s = mulColumns mixMatrix s :=
  Vector.ext fun i hi => by
    simp only [MixColumns, mulColumns, Vector.getElem_ofFn]
    interval_cases i <;> rfl

theorem InvMixColumns_eq (s : Block) : InvMixColumns s = mulColumns invMixMatrix s :=
  Vector.ext fun i hi => by
    simp only [InvMixColumns, mulColumns, Vector.getElem_ofFn]
    interval_cases i <;> rfl

theorem gfRow_eq (k : Fin 4 → Byte) (s : Block) (c : Fin 4) : gfRow k s c =
    gmul (k 0) s[4 * c.val] ^^^ gmul (k 1) s[4 * c.val + 1] ^^^ gmul (k 2) s[4 * c.val + 2]
      ^^^ gmul (k 3) s[4 * c.val + 3] := by
  simp [gfRow, mulRow]

theorem mulColumns_getElem (M : GfMatrix) (s : Block) (i : Nat) (h : i < 16) :
    (mulColumns M s)[i] = gfRow (M (Fin.ofNat 4 i)) s (i / 4) := by
  rw [mulColumns, Vector.getElem_ofFn]

/-- The bytes of column `c`, from row 0 to row 3, are the rows of the matrix times the old column. -/
theorem mulColumns_column (M : GfMatrix) (s : Block) (c : Fin 4) :
    (mulColumns M s)[4 * c.val] = gfRow (M 0) s c ∧ (mulColumns M s)[4 * c.val + 1] = gfRow (M 1) s c ∧
    (mulColumns M s)[4 * c.val + 2] = gfRow (M 2) s c ∧ (mulColumns M s)[4 * c.val + 3] = gfRow (M 3) s c := by
  simp only [mulColumns, Vector.getElem_ofFn]
  fin_cases c <;> exact ⟨rfl, rfl, rfl, rfl⟩

/-- A row times a transformed column is the row times the matrix, times the old column. -/
theorem gfRow_mulColumns (M N : GfMatrix) (s : Block) (r c : Fin 4) :
    gfRow (M r) (mulColumns N s) c = gfRow (gfMatMul M N r) s c := by
  obtain ⟨h0, h1, h2, h3⟩ := mulColumns_column N s c
  rw [gfRow_eq, h0, h1, h2, h3]
  simp only [gfRow_eq, gfMatMul, gmul_xor_left, gmul_xor_right, gmul_assoc]
  ac_rfl

theorem mulColumns_mulColumns (M N : GfMatrix) (s : Block) :
    mulColumns M (mulColumns N s) = mulColumns (gfMatMul M N) s :=
  Vector.ext fun i hi => by
    rw [mulColumns_getElem _ _ i hi, mulColumns_getElem _ _ i hi]
    exact gfRow_mulColumns M N s _ ⟨i / 4, by omega⟩

/-- A row of the unit matrix picks its own byte of the column. -/
theorem gfRow_one (s : Block) (r c : Fin 4) : gfRow ((1 : GfMatrix) r) s c = s[4 * c.val + r.val] := by
  have hzero (x : Byte) : gmul 0#8 x = 0#8 := zero_gmul x
  have hone (x : Byte) : gmul 1#8 x = x := one_gmul x
  simp only [gfRow_eq, Matrix.one_apply]
  fin_cases r <;> simp [hzero, hone]

theorem mulColumns_one (s : Block) : mulColumns 1 s = s :=
  Vector.ext fun i hi => by
    rw [mulColumns_getElem _ _ i hi]
    refine (gfRow_one s _ ⟨i / 4, by omega⟩).trans (getElem_congr_idx ?_)
    simp only [Fin.val_ofNat]
    omega

theorem mixMatrix_mul_invMixMatrix : gfMatMul mixMatrix invMixMatrix = 1 := by
  ext r j
  fin_cases r <;> fin_cases j <;> rfl

theorem invMixMatrix_mul_mixMatrix : gfMatMul invMixMatrix mixMatrix = 1 := by
  ext r j
  fin_cases r <;> fin_cases j <;> rfl

theorem InvMixColumns_MixColumns : LeftInverse InvMixColumns MixColumns := fun b => by
  rw [MixColumns_eq, InvMixColumns_eq, mulColumns_mulColumns, invMixMatrix_mul_mixMatrix, mulColumns_one]

theorem MixColumns_InvMixColumns : LeftInverse MixColumns InvMixColumns := fun b => by
  rw [MixColumns_eq, InvMixColumns_eq, mulColumns_mulColumns, mixMatrix_mul_invMixMatrix, mulColumns_one]

end Sys2Proof.Machine
end

section
/-! The commands on the state (O13 to O20; spec/41_state_transforms.md R98 to R106): each success is one function of `S`
and no other change, or one store. -/

namespace Sys2Proof.Machine

open Claims Function

/-! ## Commands that transform `S` -/

/-- A successful command that only transforms `S` by `f`. -/
def transformed (f : Block → Block) (s : State) : State := { s with S := f s.S, ERR := 0 }

@[simp] theorem transformed_RK (f : Block → Block) (s : State) : (transformed f s).RK = s.RK := rfl
@[simp] theorem transformed_KV (f : Block → Block) (s : State) : (transformed f s).KV = s.KV := rfl

/-- A second transform that undoes the first restores `S` (R97). -/
theorem transformed_transformed {f g : Block → Block} (h : LeftInverse g f) (s : State) :
    transformed g (transformed f s) = { s with ERR := 0 } := by
  simp [transformed, h s.S]

theorem exec_undo {i j : Instr} {f g : Block → Block} (h : LeftInverse g f)
    (hi : ∀ s, exec i s = .next (transformed f s)) (hj : ∀ s, exec j s = .next (transformed g s)) (s : State) :
    ∃ t, exec i s = .next t ∧ exec j t = .next { s with ERR := 0 } :=
  ⟨_, hi s, by rw [hj, transformed_transformed h]⟩

/-- Settles O13: byte by byte through the table. -/
theorem subBytesCommands : Obligations.SubBytesCommands := by
  unfold Obligations.SubBytesCommands
  exact ⟨decode_subb, decode_isubb, fun s =>
    ⟨⟨_, exec_subb s, fun i => SubBytes_getElem s.S i i.isLt⟩,
      ⟨_, exec_isubb s, fun i => InvSubBytes_getElem s.S i i.isLt⟩⟩⟩

/-- Settles O14: the index formulas of R92 and R93 tabulated. -/
theorem shiftRowsCommands : Obligations.ShiftRowsCommands := by
  unfold Obligations.ShiftRowsCommands
  exact ⟨decode_shrows, decode_ishrows, fun s =>
    ⟨⟨_, exec_shrows s, ShiftRows_toList s.S⟩, ⟨_, exec_ishrows s, InvShiftRows_toList s.S⟩⟩⟩

/-- Settles O15: the rows of R94's matrix, its products by 2 and 3 written with `xtime`. -/
theorem mixColumnsCommand : Obligations.MixColumnsCommand := by
  unfold Obligations.MixColumnsCommand
  refine ⟨decode_mixc, fun s => ⟨_, exec_mixc s, fun c => ?_⟩⟩
  simpa only [MixColumns_eq, gfRow_eq, mixMatrix, Matrix.of_apply, Matrix.cons_val, one_gmul, two_gmul, three_gmul]
    using mulColumns_column mixMatrix s.S c

/-- Settles O16: the rows of R95's matrix. -/
theorem invMixColumnsCommand : Obligations.InvMixColumnsCommand := by
  unfold Obligations.InvMixColumnsCommand
  refine ⟨decode_imixc, fun s => ⟨_, exec_imixc s, fun c => ?_⟩⟩
  simpa only [InvMixColumns_eq, gfRow_eq, invMixMatrix, Matrix.of_apply, Matrix.cons_val]
    using mulColumns_column invMixMatrix s.S c

/-! ## ARK -/

theorem AddRoundKey_involutive (k : Block) : Involutive (AddRoundKey · k) := fun b => AddRoundKey_AddRoundKey b k

theorem roundKeyAt_of_lt (rk : RoundKeys) {i : BitVec 4} (h : i.toNat < 11) : roundKeyAt rk i = .ok rk[i.toNat] :=
  dif_pos h

theorem exec_ark_of_key {i : BitVec 4} {s : State} (hi : i.toNat < 11) (hkey : s.KV = true) :
    exec (.ark i) s = .next (transformed (AddRoundKey · s.RK[i.toNat]) s) := by
  rw [exec_ark, roundKeyAt_of_lt _ hi, requireKey_of hkey]
  rfl

theorem exec_ark_without_key {i : BitVec 4} {s : State} (hi : i.toNat < 11) (hkey : s.KV = false) :
    exec (.ark i) s = .next (raise .noKey s) := by
  rw [exec_ark, roundKeyAt_of_lt _ hi, requireKey_without hkey]
  rfl

/-- Settles O18: the index of a legal word has a round key, so the key flag decides. -/
theorem arkCommand : Obligations.ArkCommand := by
  unfold Obligations.ArkCommand
  refine ⟨decode_ark, fun i s => ?_⟩
  have hi : (BitVec.ofNat 4 i.val).toNat = i.val := by
    rw [BitVec.toNat_ofNat, Nat.mod_eq_of_lt (by omega)]
  refine ⟨fun hkey => ⟨_, exec_ark_of_key (hi.symm ▸ i.isLt) hkey, fun k => ?_⟩,
    exec_ark_without_key (hi.symm ▸ i.isLt)⟩
  simp only [hi]
  exact xorBlock_getElem s.S s.RK[i] k k.isLt

/-- Settles O17: each transform is undone by its inverse on every Block, and ARK keeps the round key it uses again. -/
theorem transformsInvertible : Obligations.TransformsInvertible := by
  unfold Obligations.TransformsInvertible
  refine ⟨?_, fun i s hi hkey => ?_, fun b => ⟨ShiftRows_SubBytes b, InvShiftRows_InvSubBytes b⟩⟩
  · simp only [List.forall_mem_cons]
    exact ⟨exec_undo InvSubBytes_SubBytes exec_subb exec_isubb, exec_undo SubBytes_InvSubBytes exec_isubb exec_subb,
      exec_undo InvShiftRows_ShiftRows exec_shrows exec_ishrows,
      exec_undo ShiftRows_InvShiftRows exec_ishrows exec_shrows,
      exec_undo InvMixColumns_MixColumns exec_mixc exec_imixc,
      exec_undo MixColumns_InvMixColumns exec_imixc exec_mixc, List.forall_mem_nil _⟩
  · have hlt : i.toNat < 11 := by omega
    refine ⟨_, exec_ark_of_key hlt hkey, ?_⟩
    rw [exec_ark_of_key hlt ((transformed_KV _ s).trans hkey), transformed_RK,
      transformed_transformed (AddRoundKey_involutive _).leftInverse]

/-! ## LDS and STS -/

theorem exec_lds_of_not_fits {a : BitVec 24} {s : State} (h : s.memSize < a.toNat + 16) :
    exec (.lds a) s = .next (raise .memRange s) := by
  rw [exec_lds, immAddr, memRead_of_not_inRange (by omega)]
  rfl

theorem exec_sts_of_not_fits {a : BitVec 24} {s : State} (h : s.memSize < a.toNat + 16) :
    exec (.sts a) s = .next (raise .memRange s) := by
  rw [exec_sts, immAddr, memWrite_of_not_inRange (by rw [bytesOfBlock_length]; omega)]
  rfl

/-- Settles O19: the 16 bytes are read together or not at all. -/
theorem ldsCommand : Obligations.LdsCommand := by
  unfold Obligations.LdsCommand
  exact ⟨decode_lds, fun a s =>
    ⟨fun h => ⟨_, exec_lds_of_fits h, blockOfBytes_readBytes_getElem s a.toNat⟩, exec_lds_of_not_fits⟩⟩

/-- Settles O20: the 16 bytes are stored together, and a store is read where it is and nowhere else. -/
theorem stsCommand : Obligations.StsCommand := by
  unfold Obligations.StsCommand
  refine ⟨decode_sts, fun a s => ⟨fun h => ?_, exec_sts_of_not_fits⟩⟩
  refine ⟨(writeBytes s a.toNat (bytesOfBlock s.S)).MEM, ?_, ?_⟩
  · rw [exec_sts_of_fits h, writeBytes_eq]
    rfl
  · rw [← writeBytes_eq]
    exact ⟨readByte_writeBytes_bytesOfBlock s a.toNat s.S,
      fun x hx => readByte_writeBytes_outside s a.toNat _ x (by rwa [bytesOfBlock_length])⟩

end Sys2Proof.Machine
end

section
/-! Key expansion (O21; spec/42_key_schedule.md R110 to R112): the bytes of each key-word operation, then those of the next
round key, and KEXP over them. -/

namespace Sys2Proof.Machine

open Claims

/-! ## The bytes of the key words -/

@[simp] theorem keyWord_getElem (p : Block) (j n : Nat) (hj : j < 4) (hn : n < 4) :
    (keyWord p j)[n] = p[4 * j + n]'(by omega) := by
  rw [keyWord, Vector.getElem_ofFn, stateByte_eq _ _ _ hn hj]

@[simp] theorem RotWord_getElem (w : KeyWord) (n : Nat) (h : n < 4) :
    (RotWord w)[n] = w[(n + 1) % 4]'(by omega) := by
  simp [RotWord]

@[simp] theorem SubWord_getElem (w : KeyWord) (n : Nat) (h : n < 4) : (SubWord w)[n] = sBox w[n] := by
  simp [SubWord]

@[simp] theorem xorWord_getElem (a b : KeyWord) (n : Nat) (h : n < 4) : (xorWord a b)[n] = a[n] ^^^ b[n] := by
  simp [xorWord]

/-- Only byte 0 of a round-constant word is not zero (R110). -/
theorem Rcon_getElem (i : Nat) (k : Fin 4) : (Rcon i)[k.val] = if k = 0 then rc i else 0 := by
  match k with
  | 0 | 1 | 2 | 3 => rfl

theorem rc_eq_rcTable (i : Fin 10) : rc (i.val + 1) = rcTable[i] := List.getD_eq_getElem rcTable 0 i.isLt

/-- Word `j` of a Block put together from words is the word put there (R111). -/
theorem blockOfWords_getElem (w0 w1 w2 w3 : KeyWord) (k : Fin 4) :
    (blockOfWords w0 w1 w2 w3)[k.val] = w0[k.val] ∧ (blockOfWords w0 w1 w2 w3)[4 + k.val] = w1[k.val] ∧
    (blockOfWords w0 w1 w2 w3)[8 + k.val] = w2[k.val] ∧ (blockOfWords w0 w1 w2 w3)[12 + k.val] = w3[k.val] := by
  simp only [blockOfWords, Vector.getElem_ofFn]
  match k with
  | 0 | 1 | 2 | 3 => exact ⟨rfl, rfl, rfl, rfl⟩

/-! ## The round keys -/

/-- Byte `k` of each word of the next round key: the first word takes the rotated, substituted last word and the round
constant, and each further word takes the new one before it (R111). -/
theorem nextRoundKey_getElem (i : Nat) (p : Block) (k : Fin 4) :
    (nextRoundKey i p)[k.val] = p[k.val] ^^^ sBox (p[12 + (k.val + 1) % 4]) ^^^ (if k = 0 then rc i else 0) ∧
    (nextRoundKey i p)[4 + k.val] = (nextRoundKey i p)[k.val] ^^^ p[4 + k.val] ∧
    (nextRoundKey i p)[8 + k.val] = (nextRoundKey i p)[4 + k.val] ^^^ p[8 + k.val] ∧
    (nextRoundKey i p)[12 + k.val] = (nextRoundKey i p)[8 + k.val] ^^^ p[12 + k.val] := by
  simp [nextRoundKey, blockOfWords_getElem, Rcon_getElem, BitVec.xor_assoc]

theorem KeyExpand_succ (key : Block) (i : Fin 10) :
    (KeyExpand key)[i.val + 1] = nextRoundKey (i.val + 1) (KeyExpand key)[i.val] := by
  rw [KeyExpand_getElem, KeyExpand_getElem, roundKey]

/-! ## KEXP -/

theorem exec_kexp_of_not_fits {s : State} (hlen : s.LEN.toNat = 16) (hfits : s.memSize < s.SRC.toNat + 16) :
    exec .kexp s = .next (raise .memRange (dropKey s)) := by
  rw [exec_kexp, readSource16_eq_error.2 (.inr ⟨hlen, hfits, rfl⟩)]
  rfl

/-- Settles O21: the schedule begins with the key that is read, each round key gives the next, and the two errors are those
of the descriptor. -/
theorem kexpCommand : Obligations.KexpCommand := by
  unfold Obligations.KexpCommand
  refine ⟨decode_kexp, fun s => ⟨fun hlen hfits => ⟨KeyExpand (memBlock s s.SRC.toNat),
      exec_kexp_of_fits (congrArg BitVec.toNat hlen) hfits, fun k => ?_, fun i k => ?_⟩,
    fun hlen => exec_kexp_of_length_ne (BitVec.toNat_ne.1 hlen),
    fun hlen => exec_kexp_of_not_fits (congrArg BitVec.toNat hlen)⟩⟩
  · rw [KeyExpand_zero]
    exact Vector.getElem_ofFn k.isLt
  · have hnext := nextRoundKey_getElem (i.val + 1) (KeyExpand (memBlock s s.SRC.toNat))[i.val] k
    rw [← KeyExpand_succ, rc_eq_rcTable] at hnext
    exact hnext

end Sys2Proof.Machine
end

section
/-! The block engine (O23, O24; spec/43_block_engine.md R120 to R124): decryption takes the rounds of encryption back one at
a time, and the commands of each round transform `S` as the round does. -/

namespace Sys2Proof.Machine

open Function

/-! ## Encryption and decryption undo each other (R124) -/

/-- SubBytes and ShiftRows, with which every round after round 0 begins (R120). -/
def subShift (b : Block) : Block := ShiftRows (SubBytes b)

/-- What undoes `subShift`, with which every round after the first of decryption begins (R121). -/
def invSubShift (b : Block) : Block := InvSubBytes (InvShiftRows b)

theorem invSubShift_subShift : LeftInverse invSubShift subShift := InvShiftRows_ShiftRows.comp InvSubBytes_SubBytes

theorem subShift_invSubShift : LeftInverse subShift invSubShift := SubBytes_InvSubBytes.comp ShiftRows_InvShiftRows

theorem encRound_eq (rk : RoundKeys) (b : Block) (i : Fin 11) :
    encRound rk b i = AddRoundKey (MixColumns (subShift b)) rk[i] := rfl

theorem decRound_eq (rk : RoundKeys) (b : Block) (i : Fin 11) :
    decRound rk b i = InvMixColumns (AddRoundKey (invSubShift b) rk[i]) := rfl

theorem EncryptBlock_eq (rk : RoundKeys) (b : Block) : EncryptBlock rk b =
    AddRoundKey (subShift (([1, 2, 3, 4, 5, 6, 7, 8, 9] : List (Fin 11)).foldl (encRound rk)
      (AddRoundKey b rk[0]))) rk[10] := rfl

theorem DecryptBlock_eq (rk : RoundKeys) (b : Block) : DecryptBlock rk b =
    AddRoundKey (invSubShift (([1, 2, 3, 4, 5, 6, 7, 8, 9] : List (Fin 11)).reverse.foldl (decRound rk)
      (AddRoundKey b rk[10]))) rk[0] := rfl

/-- Round `i` of decryption turns `subShift` of what round `i` of encryption leaves into `subShift` of what it was given. -/
theorem decRound_encRound (rk : RoundKeys) (b : Block) (i : Fin 11) :
    decRound rk (subShift (encRound rk b i)) i = subShift b := by
  rw [decRound_eq, invSubShift_subShift, encRound_eq, AddRoundKey_AddRoundKey, InvMixColumns_MixColumns]

theorem encRound_decRound (rk : RoundKeys) (b : Block) (i : Fin 11) :
    encRound rk (invSubShift (decRound rk b i)) i = invSubShift b := by
  rw [encRound_eq, subShift_invSubShift, decRound_eq, MixColumns_InvMixColumns, AddRoundKey_AddRoundKey]

/-- Where each step of `g`, seen through `e`, takes back the same step of `f`, the steps of `g` in reverse order take back
all of them. -/
theorem foldl_reverse_undo {α ι : Type} {f g : α → ι → α} {e : α → α} (h : ∀ a i, g (e (f a i)) i = e a) (l : List ι)
    (a : α) : l.reverse.foldl g (e (l.foldl f a)) = e a := by
  induction l generalizing a with
  | nil => rfl
  | cons i l ih => rw [List.foldl_cons, List.reverse_cons, List.foldl_append, ih, List.foldl_cons, List.foldl_nil, h]

theorem DecryptBlock_EncryptBlock (rk : RoundKeys) : LeftInverse (DecryptBlock rk) (EncryptBlock rk) := fun b => by
  rw [DecryptBlock_eq, EncryptBlock_eq, AddRoundKey_AddRoundKey, foldl_reverse_undo (decRound_encRound rk),
    invSubShift_subShift, AddRoundKey_AddRoundKey]

theorem EncryptBlock_DecryptBlock (rk : RoundKeys) : LeftInverse (EncryptBlock rk) (DecryptBlock rk) := fun b => by
  have hrounds := foldl_reverse_undo (encRound_decRound rk) ([1, 2, 3, 4, 5, 6, 7, 8, 9] : List (Fin 11)).reverse
    (AddRoundKey b rk[10])
  rw [List.reverse_reverse] at hrounds
  rw [EncryptBlock_eq, DecryptBlock_eq, AddRoundKey_AddRoundKey, hrounds, subShift_invSubShift, AddRoundKey_AddRoundKey]

/-! ## ENC and DEC -/

theorem exec_enc_of_key {s : State} (hkey : s.KV = true) :
    exec .enc s = .next (transformed (EncryptBlock s.RK) s) := by
  rw [exec_enc, requireKey_of hkey]
  rfl

theorem exec_dec_of_key {s : State} (hkey : s.KV = true) :
    exec .dec s = .next (transformed (DecryptBlock s.RK) s) := by
  rw [exec_dec, requireKey_of hkey]
  rfl

theorem exec_enc_without_key {s : State} (hkey : s.KV = false) : exec .enc s = .next (raise .noKey s) := by
  rw [exec_enc, requireKey_without hkey]
  rfl

theorem exec_dec_without_key {s : State} (hkey : s.KV = false) : exec .dec s = .next (raise .noKey s) := by
  rw [exec_dec, requireKey_without hkey]
  rfl

/-- A command that transforms `S` under the loaded key meets that key again after another transform of `S`. -/
theorem exec_transformed_undo {j : Instr} {g : RoundKeys → Block → Block} {f : Block → Block} {s : State}
    (hj : ∀ {t : State}, t.KV = true → exec j t = .next (transformed (g t.RK) t)) (h : LeftInverse (g s.RK) f)
    (hkey : s.KV = true) : exec j (transformed f s) = .next { s with ERR := 0 } := by
  rw [hj ((transformed_KV f s).trans hkey), transformed_RK, transformed_transformed h]

/-- Settles O23: the second command runs under the schedule of the first, whose block function it inverts. -/
theorem encAndDecInvert : Obligations.EncAndDecInvert := by
  unfold Obligations.EncAndDecInvert
  exact fun s hkey =>
    ⟨⟨_, exec_enc_of_key hkey, exec_transformed_undo exec_dec_of_key (DecryptBlock_EncryptBlock s.RK) hkey⟩,
      ⟨_, exec_dec_of_key hkey, exec_transformed_undo exec_enc_of_key (EncryptBlock_DecryptBlock s.RK) hkey⟩⟩

/-! ## The same result by primitive commands (R67) -/

/-- With a key loaded, the commands `is` transform `S` by `f` of the round keys, and the host goes on to the commands after
them. -/
def Performs (is : List Instr) (f : RoundKeys → Block → Block) : Prop :=
  ∀ s : State, s.KV = true → ∀ rest, runCommands (is ++ rest) s = runCommands rest (transformed (f s.RK) s)

namespace Performs

theorem singleton {i : Instr} {f : RoundKeys → Block → Block}
    (h : ∀ s : State, s.KV = true → exec i s = .next (transformed (f s.RK) s)) : Performs [i] f :=
  fun s hkey rest => runCommands_cons rest (h s hkey) rfl

theorem append {is js : List Instr} {f g : RoundKeys → Block → Block} (hi : Performs is f) (hj : Performs js g) :
    Performs (is ++ js) fun rk b => g rk (f rk b) := fun s hkey rest => by
  rw [List.append_assoc, hi s hkey, hj _ ((transformed_KV _ s).trans hkey)]
  rfl

/-- Rounds after a beginning: each goes on with the Block that the ones before it have left. -/
theorem foldl {is : List Instr} {round : Fin 11 → List Instr} {f : RoundKeys → Block → Block}
    {g : RoundKeys → Block → Fin 11 → Block} (his : Performs is f)
    (hround : ∀ i, Performs (round i) fun rk b => g rk b i) (l : List (Fin 11)) :
    Performs (is ++ (l.map round).flatten) fun rk b => l.foldl (g rk) (f rk b) := by
  induction l generalizing is f with
  | nil => exact (List.append_nil is).symm ▸ his
  | cons i l ih =>
    rw [List.map_cons, List.flatten_cons, ← List.append_assoc]
    exact ih (his.append (hround i))

theorem runCommands_eq {is : List Instr} {f : RoundKeys → Block → Block} (h : Performs is f) {s : State}
    (hkey : s.KV = true) : runCommands is s = .next (transformed (f s.RK) s) := by
  simpa [runCommands] using h s hkey []

end Performs

theorem performs_ark (i : Fin 11) : Performs [.ark (BitVec.ofNat 4 i.val)] fun rk b => AddRoundKey b rk[i] :=
  .singleton fun s hkey => by
    have hi : (BitVec.ofNat 4 i.val).toNat = i.val := by
      rw [BitVec.toNat_ofNat, Nat.mod_eq_of_lt (by omega)]
    rw [exec_ark_of_key (hi.symm ▸ i.isLt) hkey]
    simp only [hi]
    rfl

theorem performs_subb : Performs [.subb] fun _ => SubBytes := .singleton fun s _ => exec_subb s

theorem performs_isubb : Performs [.isubb] fun _ => InvSubBytes := .singleton fun s _ => exec_isubb s

theorem performs_shrows : Performs [.shrows] fun _ => ShiftRows := .singleton fun s _ => exec_shrows s

theorem performs_ishrows : Performs [.ishrows] fun _ => InvShiftRows := .singleton fun s _ => exec_ishrows s

theorem performs_mixc : Performs [.mixc] fun _ => MixColumns := .singleton fun s _ => exec_mixc s

theorem performs_imixc : Performs [.imixc] fun _ => InvMixColumns := .singleton fun s _ => exec_imixc s

/-! A round's commands one after the other are the round by the definitions' own order, so each proof below is elaborated
without its goal (`( … :)`) and then compared with it. -/

theorem performs_subShift : Performs [.subb, .shrows] fun _ => subShift := (performs_subb.append performs_shrows :)

theorem performs_invSubShift : Performs [.ishrows, .isubb] fun _ => invSubShift :=
  (performs_ishrows.append performs_isubb :)

theorem performs_rnde (i : Fin 11) : Performs (Pseudo.rnde (BitVec.ofNat 4 i.val)).expand fun rk b => encRound rk b i :=
  ((performs_subShift.append performs_mixc).append (performs_ark i) :)

theorem performs_rndd (i : Fin 11) : Performs (Pseudo.rndd (BitVec.ofNat 4 i.val)).expand fun rk b => decRound rk b i :=
  ((performs_invSubShift.append (performs_ark i)).append performs_imixc :)

theorem performs_encByRounds : Performs encByRounds EncryptBlock :=
  (((performs_ark 0).foldl performs_rnde [1, 2, 3, 4, 5, 6, 7, 8, 9]).append
    (performs_subShift.append (performs_ark 10)) :)

theorem performs_decByRounds : Performs decByRounds DecryptBlock :=
  (((performs_ark 10).foldl performs_rndd [9, 8, 7, 6, 5, 4, 3, 2, 1]).append
    (performs_invSubShift.append (performs_ark 0)) :)

/-- Settles O24: ENC and DEC apply the block functions, and the primitive commands add up to them. -/
theorem encAndDecCommands : Obligations.EncAndDecCommands := by
  unfold Obligations.EncAndDecCommands
  exact ⟨decode_enc, decode_dec, fun s =>
    ⟨fun hkey => ⟨exec_enc_of_key hkey, performs_encByRounds.runCommands_eq hkey,
        exec_dec_of_key hkey, performs_decByRounds.runCommands_eq hkey⟩,
      fun hkey => ⟨exec_enc_without_key hkey, exec_dec_without_key hkey⟩⟩⟩

end Sys2Proof.Machine
end

section
/-! Padding as functions of a byte sequence (O28; spec/44_padding.md R133 to R135, R138): a padding is `p` bytes of value `p`
after the message, and RemovePadding answers exactly the messages that such bytes follow. -/

namespace Sys2Proof.Machine

open Claims

/-! ## Padding a message (R133, R134) -/

theorem padLength_pos (n : Nat) : 1 ≤ padLength n := by unfold padLength; omega

theorem padLength_le (n : Nat) : padLength n ≤ 16 := Nat.sub_le _ _

@[simp] theorem rep_length (v : Byte) (n : Nat) : (rep v n).length = n := List.length_replicate

theorem PadMessage_eq (pt : Bytes) :
    PadMessage pt = pt ++ rep (BitVec.ofNat 8 (padLength pt.length)) (padLength pt.length) := rfl

@[simp] theorem PadMessage_length (pt : Bytes) : (PadMessage pt).length = pt.length + padLength pt.length := by
  rw [PadMessage_eq, List.length_append, rep_length]

theorem PadMessage_getElem_of_lt {pt : Bytes} {k : Nat} (h : k < pt.length) :
    (PadMessage pt)[k]'(by rw [PadMessage_length]; omega) = pt[k] := List.getElem_append_left h

theorem PadMessage_getElem_of_le {pt : Bytes} {k : Nat} (hle : pt.length ≤ k) (h : k < (PadMessage pt).length) :
    (PadMessage pt)[k] = BitVec.ofNat 8 (padLength pt.length) := by
  simp only [PadMessage_eq, List.getElem_append_right hle, rep, List.getElem_replicate]

/-- Whole blocks in front do not change the padding (R134). -/
theorem PadMessage_append {init : Bytes} (h : init.length % 16 = 0) (last : Bytes) :
    PadMessage (init ++ last) = init ++ PadMessage last := by
  have hpad : padLength (init ++ last).length = padLength last.length := by
    rw [padLength, padLength, List.length_append]; omega
  rw [PadMessage_eq, PadMessage_eq, hpad, List.append_assoc]

/-- R133 is R134 for a message that is only its last block; a full one gets 16 padding bytes in both. -/
theorem AddPadding_eq_PadMessage {last : Bytes} (h : last.length ≤ 16) : AddPadding last = PadMessage last := by
  obtain hfull | hlt : last.length = 16 ∨ last.length < 16 := by omega
  · simp [AddPadding, PadMessage, hfull]
  · have hne : ¬ 16 - last.length = 0 := by omega
    simp only [AddPadding, PadMessage, if_neg hne, Nat.mod_eq_of_lt hlt]

/-! ## Removing a padding (R135) -/

theorem RemovePadding_append_rep (pt : Bytes) {p : Nat} (hpos : 1 ≤ p) (hle : p ≤ 16) :
    RemovePadding (pt ++ rep (BitVec.ofNat 8 p) p) = some pt := by
  have hlast : (pt ++ rep (BitVec.ofNat 8 p) p).getLast? = some (BitVec.ofNat 8 p) := by
    simp [rep, List.getLast?_append, List.getLast?_replicate, Nat.ne_of_gt hpos]
  have hval : (BitVec.ofNat 8 p).toNat = p := by rw [BitVec.toNat_ofNat, Nat.mod_eq_of_lt (by omega)]
  have hrange : ¬ (p = 0 ∨ 16 < p) := by omega
  have hlen : (pt ++ rep (BitVec.ofNat 8 p) p).length - p = pt.length := by simp
  have hall : (rep (BitVec.ofNat 8 p) p).all (· == BitVec.ofNat 8 p) = true := by simp [rep]
  simp only [RemovePadding, hlast, hval, hlen, List.drop_left, List.take_left, hall]
  rw [if_neg hrange, if_neg (by simp), if_pos trivial]

/-- If a padding is removed, it was as many bytes as the last byte says, each equal to it. -/
theorem eq_append_rep_of_RemovePadding {buf pt : Bytes} (h : RemovePadding buf = some pt) :
    ∃ p, 1 ≤ p ∧ p ≤ 16 ∧ buf = pt ++ rep (BitVec.ofNat 8 p) p := by
  unfold RemovePadding at h
  split at h
  · cases h
  · rename_i last _
    simp only [Option.ite_none_left_eq_some, Option.ite_none_right_eq_some, Option.some.injEq, List.all_eq_true,
      beq_iff_eq] at h
    obtain ⟨hrange, hlen, hall, rfl⟩ := h
    have hdrop : buf.drop (buf.length - last.toNat) = rep last last.toNat :=
      List.eq_replicate_iff.2 ⟨by rw [List.length_drop]; omega, hall⟩
    refine ⟨last.toNat, by omega, by omega, ?_⟩
    rw [BitVec.ofNat_toNat, BitVec.setWidth_eq, ← hdrop, List.take_append_drop]

/-- R138: what is padded can be unpadded. -/
theorem RemovePadding_PadMessage (pt : Bytes) : RemovePadding (PadMessage pt) = some pt :=
  RemovePadding_append_rep pt (padLength_pos _) (padLength_le _)

/-- Settles O28: AddPadding is PadMessage on a last block, and RemovePadding takes off any run of `p` bytes of value `p`. -/
theorem paddingLaws : Obligations.PaddingLaws := by
  unfold Obligations.PaddingLaws
  refine ⟨fun last hlast => ?_, RemovePadding_PadMessage, fun init last hinit hlast => ?_, fun buf => ?_⟩
  · rw [AddPadding_eq_PadMessage hlast, RemovePadding_PadMessage]
  · rw [AddPadding_eq_PadMessage hlast, PadMessage_append hinit]
  · exact RemovePadding_append_rep buf (p := 1) le_rfl (by decide)

/-! ## Valid paddings, byte by byte -/

section

variable {buf : Bytes} {f : Nat → Byte} (hbuf : ∀ k (hk : k < buf.length), buf[k] = f k)

include hbuf

theorem validPadding_iff {p : Nat} : validPadding f buf.length p ↔
    1 ≤ p ∧ p ≤ 16 ∧ p ≤ buf.length ∧ buf.drop (buf.length - p) = rep (BitVec.ofNat 8 p) p := by
  refine and_congr_right fun _ => and_congr_right fun _ => and_congr_right fun hle =>
    ⟨fun hbytes => ?_, fun hdrop k hk hlt => ?_⟩
  · refine List.ext_getElem (by rw [List.length_drop, rep_length]; omega) fun k hk _ => ?_
    rw [List.length_drop] at hk
    simp only [List.getElem_drop, rep, List.getElem_replicate]
    rw [hbuf, hbytes _ (by omega) (by omega)]
  · have hget : (buf.drop (buf.length - p))[k - (buf.length - p)]? = some (f k) := by
      rw [List.getElem?_drop, Nat.add_sub_cancel' hk, List.getElem?_eq_getElem hlt, hbuf]
    rw [hdrop] at hget
    exact List.eq_of_mem_replicate (List.mem_of_getElem? hget)

theorem RemovePadding_of_validPadding {p : Nat} (h : validPadding f buf.length p) :
    RemovePadding buf = some (buf.take (buf.length - p)) := by
  obtain ⟨hpos, hle, -, hdrop⟩ := (validPadding_iff hbuf).1 h
  conv_lhs => rw [← List.take_append_drop (buf.length - p) buf, hdrop]
  exact RemovePadding_append_rep _ hpos hle

theorem RemovePadding_eq_none (h : ∀ p, ¬ validPadding f buf.length p) : RemovePadding buf = none := by
  refine Option.eq_none_iff_forall_ne_some.2 fun pt hpt => ?_
  obtain ⟨p, hpos, hle, rfl⟩ := eq_append_rep_of_RemovePadding hpt
  exact h p ((validPadding_iff hbuf).2 ⟨hpos, hle, by simp, by simp⟩)

end

end Sys2Proof.Machine
end

section
/-! The descriptor, PAD and UNPAD (O25, O26, O27; spec/44_padding.md R130 to R132, R136, R137): what a command that reads the
source buffer gets, what one that writes its result at `DST` leaves, and the two padding commands between them. -/

namespace Sys2Proof.Machine

open Claims

/-- Settles O25: each command only sets its register, to the immediate with 8 zero bits before it. -/
theorem descriptorCommands : Obligations.DescriptorCommands := by
  unfold Obligations.DescriptorCommands
  refine ⟨decode_setsrc, decode_setlen, decode_setdst, fun x s => ?_⟩
  rw [← zext32_eq_append]
  exact ⟨exec_setsrc x s, exec_setlen x s, exec_setdst x s⟩

/-! ## The source buffer and the result (R40, R187) -/

theorem readSource_of_fits {s : State} (h : fits s s.SRC.toNat s.LEN.toNat) :
    readSource s = .ok (readBytes s s.SRC.toNat s.LEN.toNat) := readSource_eq_ok.2 ⟨h, rfl⟩

theorem readSource_of_not_fits {s : State} (h : ¬ fits s s.SRC.toNat s.LEN.toNat) : readSource s = .error .memRange :=
  memRead_of_not_inRange h

/-- MEM after a result is stored at `DST`. -/
def resultMEM (s : State) (out : Bytes) : Memory := (writeBytes s s.DST.toNat out).MEM

theorem complete_writeResult_of_fits {s : State} {out : Bytes} (h : s.DST.toNat + out.length ≤ s.memSize) :
    complete clearOlen s (writeResult s out) =
      .next { s with MEM := resultMEM s out, OLEN := BitVec.ofNat 32 out.length, ERR := 0 } := by
  rw [writeResult_eq_ok.2 ⟨.inr h, rfl⟩, writeBytes_eq]
  rfl

theorem complete_writeResult_of_not_fits {s : State} {out : Bytes} (hne : out.length ≠ 0)
    (h : s.memSize < s.DST.toNat + out.length) :
    complete clearOlen s (writeResult s out) = .next (failedOutput s 9) := by
  rw [writeResult_eq_error.2 ⟨hne, h, rfl⟩]
  rfl

theorem readByte_resultMEM_inside (s : State) {out : Bytes} {k : Nat} (h : k < out.length) :
    readByte { s with MEM := resultMEM s out } (s.DST.toNat + k) = out[k] := by
  rw [resultMEM, ← writeBytes_eq, readByte_writeBytes_inside _ _ _ _ h]

theorem sameOutside_resultMEM (s : State) (out : Bytes) :
    sameOutside s { s with MEM := resultMEM s out } s.DST.toNat out.length := fun x hx => by
  rw [resultMEM, ← writeBytes_eq, readByte_writeBytes_outside _ _ _ _ hx]

/-! ## PAD -/

section

variable {s : State}

theorem exec_pad_of_long (h : 16 < s.LEN.toNat) : exec .pad s = .next (failedOutput s 10) := by
  rw [exec_pad, srcLen, raiseIf_eq_error.2 ⟨decide_eq_true h, rfl⟩]
  rfl

/-- PAD of at most 16 bytes ends as its source buffer and its result at `DST` do. -/
theorem exec_pad_of_short (h : s.LEN.toNat ≤ 16) : exec .pad s =
    complete clearOlen s (readSource s >>= fun last => writeResult s (AddPadding last)) := by
  rw [exec_pad, srcLen, raiseIf_eq_ok (u := ()).2 (decide_eq_false (Nat.not_lt.2 h)), except_ok_bind]

theorem exec_pad_of_source_not_fits (hlen : s.LEN.toNat ≤ 16) (h : ¬ fits s s.SRC.toNat s.LEN.toNat) :
    exec .pad s = .next (failedOutput s 9) := by
  rw [exec_pad_of_short hlen, readSource_of_not_fits h]
  rfl

theorem exec_pad_of_source_fits (hlen : s.LEN.toNat ≤ 16) (h : fits s s.SRC.toNat s.LEN.toNat) : exec .pad s =
    complete clearOlen s (writeResult s (PadMessage (readBytes s s.SRC.toNat s.LEN.toNat))) := by
  rw [exec_pad_of_short hlen, readSource_of_fits h, except_ok_bind,
    AddPadding_eq_PadMessage (by rwa [readBytes_length])]

/-- A last block is padded to one block, a full one to two (R133). -/
theorem add_padLength_of_le {n : Nat} (h : n ≤ 16) : n + padLength n = if n = 16 then 32 else 16 := by
  unfold padLength
  split <;> omega

end

/-- Settles O26: the result is the padded source buffer, whose bytes are known one by one. -/
theorem padCommand : Obligations.PadCommand := by
  unfold Obligations.PadCommand
  refine ⟨decode_pad, fun s => ?_⟩
  have hout : (PadMessage (readBytes s s.SRC.toNat s.LEN.toNat)).length = s.LEN.toNat + padLength s.LEN.toNat := by
    rw [PadMessage_length, readBytes_length]
  refine ⟨fun n hlen hsrc hn hdst => ?_, exec_pad_of_long, exec_pad_of_source_not_fits, fun hlen hsrc hdst => ?_⟩
  · rw [← add_padLength_of_le hlen, ← hout] at hn
    subst hn
    refine ⟨_, (exec_pad_of_source_fits hlen hsrc).trans (complete_writeResult_of_fits hdst), fun k hk => ?_,
      fun k hk hlt => ?_, sameOutside_resultMEM s _⟩
    · rw [readByte_resultMEM_inside s (by omega), PadMessage_getElem_of_lt (by rwa [readBytes_length]),
        readBytes_getElem]
    · rw [readByte_resultMEM_inside s hlt, PadMessage_getElem_of_le (by rwa [readBytes_length]), readBytes_length,
        hout, Nat.add_sub_cancel_left]
  · have hpos := padLength_pos s.LEN.toNat
    rw [← add_padLength_of_le hlen, ← hout] at hdst
    rw [exec_pad_of_source_fits hlen hsrc, complete_writeResult_of_not_fits (by omega) hdst]

/-! ## UNPAD -/

section

variable {s : State}

theorem exec_unpad_of_empty (h : s.LEN.toNat = 0) : exec .unpad s = .next (failedOutput s 10) := by
  rw [exec_unpad, srcLen, raiseIf_eq_error.2 ⟨beq_iff_eq.2 h, rfl⟩]
  rfl

/-- UNPAD of at least one byte ends as its source buffer and its validation do. -/
theorem exec_unpad_of_pos (h : 0 < s.LEN.toNat) : exec .unpad s = complete clearOlen s (do
    let buf ← readSource s
    let r ← paddedOrRaise (RemovePadding buf)
    return { s with OLEN := BitVec.ofNat 32 r.length }) := by
  rw [exec_unpad, srcLen, raiseIf_eq_ok (u := ()).2 (beq_eq_false_iff_ne.2 h.ne'), except_ok_bind]

theorem exec_unpad_of_not_fits (hlen : 0 < s.LEN.toNat) (h : s.memSize < s.SRC.toNat + s.LEN.toNat) :
    exec .unpad s = .next (failedOutput s 9) := by
  rw [exec_unpad_of_pos hlen, readSource_of_not_fits (by unfold fits; omega)]
  rfl

section

variable (hlen : 0 < s.LEN.toNat) (h : s.SRC.toNat + s.LEN.toNat ≤ s.memSize)

include hlen h

theorem exec_unpad_of_padded {pt : Bytes} (hpt : RemovePadding (readBytes s s.SRC.toNat s.LEN.toNat) = some pt) :
    exec .unpad s = .next { s with OLEN := BitVec.ofNat 32 pt.length, ERR := 0 } := by
  rw [exec_unpad_of_pos hlen, readSource_of_fits (.inr h), except_ok_bind, paddedOrRaise_eq_ok.2 hpt]
  rfl

theorem exec_unpad_of_not_padded (hnone : RemovePadding (readBytes s s.SRC.toNat s.LEN.toNat) = none) :
    exec .unpad s = .next (failedOutput s 5) := by
  rw [exec_unpad_of_pos hlen, readSource_of_fits (.inr h), except_ok_bind, hnone]
  rfl

end

end

/-- Settles O27: the source buffer ends in a valid padding exactly if RemovePadding takes one off. -/
theorem unpadCommand : Obligations.UnpadCommand := by
  unfold Obligations.UnpadCommand
  refine ⟨decode_unpad, fun s => ⟨exec_unpad_of_empty, exec_unpad_of_not_fits, fun hlen hsrc => ?_⟩⟩
  have hbytes := readBytes_getElem s s.SRC.toNat s.LEN.toNat
  have hlength := readBytes_length s s.SRC.toNat s.LEN.toNat
  refine ⟨fun p hp => ?_, fun hnone => ?_⟩
  · have hpt := RemovePadding_of_validPadding hbytes (hlength.symm ▸ hp)
    rw [exec_unpad_of_padded hlen hsrc hpt, List.length_take, hlength, Nat.min_eq_left (Nat.sub_le _ _)]
  · exact exec_unpad_of_not_padded hlen hsrc (RemovePadding_eq_none hbytes (hlength.symm ▸ hnone))

end Sys2Proof.Machine
end

section
/-! The counter and the CTR keystream as functions of byte sequences (O30; spec/45_modes.md R146, R152): CtrInc adds one
to a big-endian number, and CtrStream exclusive-ORs byte `k` of the data with byte `k` of the keystream until the counter
has passed its last value. -/

namespace Sys2Proof.Machine

open Claims

/-! ## Big-endian numbers -/

theorem bigEndian_cons (b : Byte) (bs : Bytes) : bigEndian (b :: bs) = b.toNat * 256 ^ bs.length + bigEndian bs := by
  have hfold (l : Bytes) (n : Nat) : l.foldl (fun n b => n * 256 + b.toNat) n = n * 256 ^ l.length + bigEndian l := by
    induction l generalizing n with
    | nil => simp [bigEndian]
    | cons b bs ih =>
      rw [bigEndian, List.foldl_cons, List.foldl_cons, ih, ih (0 * 256 + b.toNat), List.length_cons]
      ring
  rw [bigEndian, List.foldl_cons, Nat.zero_mul, Nat.zero_add, hfold]

theorem bigEndian_lt (l : Bytes) : bigEndian l < 256 ^ l.length := by
  induction l with
  | nil => exact Nat.one_pos
  | cons b bs ih =>
    calc bigEndian (b :: bs) < (b.toNat + 1) * 256 ^ bs.length := by rw [bigEndian_cons, Nat.succ_mul]; omega
      _ ≤ 256 ^ (b :: bs).length := by
        rw [List.length_cons, Nat.pow_succ']; exact Nat.mul_le_mul_right _ b.isLt

/-- Byte `i` of a big-endian number is its digit of weight `256 ^ (n - 1 - i)`. -/
theorem getElem_eq_bigEndian_div (l : Bytes) (i : Nat) (h : i < l.length) :
    l[i] = BitVec.ofNat 8 (bigEndian l / 256 ^ (l.length - 1 - i)) := by
  induction l generalizing i with
  | nil => simp at h
  | cons b bs ih =>
    rw [bigEndian_cons, List.length_cons, Nat.add_sub_cancel]
    cases i with
    | zero =>
      rw [Nat.sub_zero, Nat.add_comm, Nat.add_mul_div_right _ _ (by positivity), Nat.div_eq_of_lt (bigEndian_lt bs)]
      simp
    | succ i =>
      rw [List.length_cons] at h
      have hpow : b.toNat * 256 ^ bs.length = b.toNat * 256 ^ i * 256 * 256 ^ (bs.length - (i + 1)) := by
        rw [Nat.mul_assoc _ _ 256, ← Nat.pow_succ, Nat.mul_assoc, ← Nat.pow_add, Nat.add_sub_cancel' (by omega)]
      have hexp : bs.length - 1 - i = bs.length - (i + 1) := by omega
      rw [List.getElem_cons_succ, ih i (by omega), hexp, hpow, Nat.add_comm (_ * _),
        Nat.add_mul_div_right _ _ (by positivity)]
      exact BitVec.eq_of_toNat_eq (by simp)

theorem blockOfBytes_eq_counterBlock {l : Bytes} (h : l.length = 16) : blockOfBytes l = counterBlock (bigEndian l) :=
  Vector.ext fun i hi => by
    rw [blockOfBytes_getElem _ _ hi, List.getD_eq_getElem _ _ (by omega), getElem_eq_bigEndian_div, h, counterBlock,
      Vector.getElem_ofFn]

/-! ## CtrInc (R146) -/

theorem incBytes_length (c : Bytes) : (incBytes c).1.length = c.length := by
  induction c with
  | nil => rfl
  | cons b bs ih =>
    rw [incBytes, apply_ite Prod.fst, apply_ite List.length]
    simp [ih]

/-- What a carry adds to a number of `n` bytes that has wrapped: the weight of the byte before them. -/
def carryWeight (carry : Bool) (n : Nat) : Nat := if carry then 256 ^ n else 0

/-- The sum and its carry are the number plus one: a byte that takes the carry grows by one, or wraps and hands it
on. -/
theorem bigEndian_incBytes (c : Bytes) :
    carryWeight (incBytes c).2 c.length + bigEndian (incBytes c).1 = bigEndian c + 1 := by
  induction c with
  | nil => rfl
  | cons b bs ih =>
    rw [incBytes, bigEndian_cons, List.length_cons]
    cases hcarry : (incBytes bs).2 with
    | false =>
      simp only [hcarry, carryWeight, bigEndian_cons, incBytes_length, Bool.false_eq_true, if_false] at ih ⊢
      omega
    | true =>
      simp only [hcarry, carryWeight, bigEndian_cons, incBytes_length, if_true] at ih ⊢
      by_cases hb : b + 1 = 0
      · have hmax : b.toNat = 255 := by bv_omega
        have hwrap : (b + 1).toNat = 0 := congrArg BitVec.toNat hb
        simp only [hmax, hwrap, beq_iff_eq.2 hb, if_true, Nat.pow_succ]
        omega
      · have hsucc : (b + 1).toNat = b.toNat + 1 := by bv_omega
        simp only [hsucc, beq_eq_false_iff_ne.2 hb, Bool.false_eq_true, if_false, Nat.succ_mul]
        omega

theorem incBytes_replicate (n : Nat) : incBytes (List.replicate n 0xFF) = (List.replicate n 0x00, true) := by
  induction n with
  | zero => rfl
  | succ n ih => rw [List.replicate_succ, incBytes, ih]; rfl

theorem eq_replicate_of_carry {c : Bytes} (h : (incBytes c).2 = true) : c = List.replicate c.length 0xFF := by
  induction c with
  | nil => rfl
  | cons b bs ih =>
    rw [incBytes] at h
    split at h
    · rename_i hbs
      have hb : b = 0xFF := by
        rw [beq_iff_eq] at h
        bv_omega
      rw [List.length_cons, List.replicate_succ, ← ih hbs, hb]
    · cases h

theorem bigEndian_CtrInc (c : Bytes) : bigEndian (CtrInc c) = bigEndian c + 1 := by
  rw [← bigEndian_incBytes]
  cases hcarry : (incBytes c).2 <;> simp [CtrInc, carryWeight, hcarry, bigEndian_cons, incBytes_length]

/-- Settles O30: the sum with its carry is the number plus one, and there is a carry exactly out of bytes all 0xFF. -/
theorem ctrIncAddsOne : Obligations.CtrIncAddsOne := by
  unfold Obligations.CtrIncAddsOne
  refine fun c hlen => ⟨bigEndian_CtrInc c, fun hne => ?_, ?_⟩
  · have hcarry : (incBytes c).2 = false := Bool.eq_false_iff.2 fun h => hne (hlen ▸ eq_replicate_of_carry h)
    simp [CtrInc, hcarry, incBytes_length, hlen]
  · rintro rfl
    rw [CtrInc, incBytes_replicate]
    rfl

/-! ## CtrStream (R152) -/

/-- Below the last counter value the next one is again 16 bytes. -/
theorem CtrInc_length_eq_iff (c : Bytes) : (CtrInc c).length = c.length ↔ bigEndian c + 1 < 256 ^ c.length := by
  constructor
  · intro h
    have := bigEndian_lt (CtrInc c)
    rwa [bigEndian_CtrInc, h] at this
  · intro h
    rw [← bigEndian_incBytes] at h
    cases hcarry : (incBytes c).2 with
    | false => simp [CtrInc, hcarry, incBytes_length]
    | true => simp [carryWeight, hcarry] at h

/-- Each byte of the data exclusive-ORed with its byte of the keystream from counter `n` on. -/
def keystreamed (rk : RoundKeys) (n : Nat) (data : Bytes) : Bytes := data.mapIdx fun k b => b ^^^ streamByte rk n k

@[simp] theorem keystreamed_length (rk : RoundKeys) (n : Nat) (data : Bytes) :
    (keystreamed rk n data).length = data.length := List.length_mapIdx

theorem keystreamed_getElem (rk : RoundKeys) (n : Nat) (data : Bytes) (k : Nat) (h : k < data.length) :
    (keystreamed rk n data)[k]'(by simpa using h) = data[k] ^^^ streamByte rk n k := List.getElem_mapIdx

theorem keystreamed_keystreamed (rk : RoundKeys) (n : Nat) (data : Bytes) :
    keystreamed rk n (keystreamed rk n data) = data := by
  refine List.ext_getElem (by simp) fun k _ h => ?_
  rw [keystreamed_getElem _ _ _ _ (by simpa using h), keystreamed_getElem _ _ _ _ h, BitVec.xor_assoc,
    BitVec.xor_self, BitVec.xor_zero]

theorem streamByte_add_sixteen (rk : RoundKeys) (n k : Nat) : streamByte rk n (k + 16) = streamByte rk (n + 1) k := by
  rw [streamByte, streamByte, Nat.add_mod_right, Nat.add_div_right _ (by decide), Nat.add_right_comm, Nat.add_assoc]

/-- Up to 16 bytes take the bytes of one keystream block. -/
theorem xorBytes_EncryptBlock (rk : RoundKeys) (n : Nat) {blk : Bytes} (h : blk.length ≤ 16) :
    xorBytes blk (bytesOfBlock (EncryptBlock rk (counterBlock n))) = keystreamed rk n blk := by
  refine List.ext_getElem (by simp [h]) fun k _ hk => ?_
  rw [keystreamed_length] at hk
  have hlt : k < 16 := by omega
  rw [keystreamed_getElem _ _ _ _ hk, streamByte, Nat.div_eq_of_lt hlt, Nat.mod_eq_of_lt hlt, Nat.add_zero,
    List.getD_eq_getElem _ _ (by simpa using hlt)]
  simp only [xorBytes, bytesOfBlock, List.getElem_zipWith]

/-- Bytes after a whole block take the keystream of the next counter on. -/
theorem keystreamed_append (rk : RoundKeys) (n : Nat) {l : Bytes} (h : l.length = 16) (r : Bytes) :
    keystreamed rk n (l ++ r) = keystreamed rk n l ++ keystreamed rk (n + 1) r := by
  simp only [keystreamed, List.mapIdx_append, h, streamByte_add_sixteen]

theorem keystreamed_take_append_drop (rk : RoundKeys) (n : Nat) (data : Bytes) :
    keystreamed rk n (data.take 16) ++ keystreamed rk (n + 1) (data.drop 16) = keystreamed rk n data := by
  obtain h | h := Nat.le_total data.length 16
  · rw [List.take_of_length_le h, List.drop_eq_nil_of_le h]
    exact List.append_nil _
  · rw [← keystreamed_append rk n (by simpa using h), List.take_append_drop]

theorem chunks_eq_cons {data : Bytes} (h : data ≠ []) : chunks data = data.take 16 :: chunks (data.drop 16) := by
  have hlen := List.length_pos_iff.2 h
  have hcount : (data.length + 15) / 16 = ((data.drop 16).length + 15) / 16 + 1 := by rw [List.length_drop]; omega
  rw [chunks, hcount, List.range_succ_eq_map, List.map_cons, List.map_map, chunks]
  congr 1
  · exact List.map_congr_left fun j _ => by
      simp only [chunkAt, Function.comp, List.drop_drop]
      congr 2
      omega

/-- A counter of 16 bytes gives one block of the keystream and is increased. -/
theorem ctrLoop_cons {rk : RoundKeys} {ctr blk : Bytes} (hctr : ctr.length = 16) (hblk : blk.length ≤ 16)
    (rest : List Bytes) : ctrLoop rk ctr (blk :: rest) =
      ctrLoop rk (CtrInc ctr) rest >>= fun tail => .ok (keystreamed rk (bigEndian ctr) blk ++ tail) := by
  rw [ctrLoop, hctr, blockOfBytes_eq_counterBlock hctr, xorBytes_EncryptBlock rk _ hblk]
  rfl

/-- A counter of 17 bytes stops the stream at the next piece. -/
theorem ctrLoop_cons_of_length_ne {rk : RoundKeys} {ctr : Bytes} (h : ctr.length ≠ 16) (blk : Bytes)
    (rest : List Bytes) : ctrLoop rk ctr (blk :: rest) = .error .counterOverflow := by
  simp [ctrLoop, h]

theorem blocksFor_eq_zero_iff {n : Nat} : blocksFor n = 0 ↔ n = 0 := by unfold blocksFor; omega

theorem blocksFor_drop (data : Bytes) : blocksFor (data.drop 16).length = blocksFor data.length - 1 := by
  rw [List.length_drop]; unfold blocksFor; omega

/-- From the counter `ctr` on, `n` bytes of data end before the counter passes its last value. -/
abbrev CounterLasts (ctr : Bytes) (n : Nat) : Prop := bigEndian ctr + blocksFor n ≤ 2 ^ 128

/-- The stream reaches the end of the data exactly if the counter lasts that long (R152). -/
theorem CtrStream_eq (rk : RoundKeys) {ctr : Bytes} (hctr : ctr.length = 16) (data : Bytes) :
    CtrStream rk ctr data =
      if CounterLasts ctr data.length then .ok (keystreamed rk (bigEndian ctr) data) else .error .counterOverflow := by
  unfold CtrStream CounterLasts
  induction hn : blocksFor data.length generalizing ctr data with
  | zero =>
    obtain rfl : data = [] := List.length_eq_zero_iff.1 (blocksFor_eq_zero_iff.1 hn)
    have hmax : bigEndian ctr < 256 ^ 16 := hctr ▸ bigEndian_lt ctr
    rw [if_pos (by omega)]
    rfl
  | succ n ih =>
    have hrest : blocksFor (data.drop 16).length = n := by rw [blocksFor_drop, hn, Nat.add_sub_cancel]
    rw [chunks_eq_cons (by rintro rfl; cases hn), ctrLoop_cons hctr (List.length_take_le _ _)]
    by_cases hlast : bigEndian ctr + 1 < 256 ^ 16
    · have hinc : (CtrInc ctr).length = 16 := by rwa [← hctr, CtrInc_length_eq_iff, hctr]
      rw [ih hinc _ hrest, bigEndian_CtrInc, Nat.add_right_comm, Nat.add_assoc,
        ← keystreamed_take_append_drop rk _ data]
      split <;> rfl
    · have hinc : (CtrInc ctr).length ≠ 16 := by rwa [← hctr, Ne, CtrInc_length_eq_iff, hctr]
      cases n with
      | zero =>
        have hnil : data.drop 16 = [] := List.length_eq_zero_iff.1 (blocksFor_eq_zero_iff.1 hrest)
        have hmax : bigEndian ctr < 256 ^ 16 := hctr ▸ bigEndian_lt ctr
        rw [if_pos (by omega), ← keystreamed_take_append_drop rk _ data, hnil]
        rfl
      | succ n =>
        have hmore : data.drop 16 ≠ [] := fun h => by rw [h] at hrest; cases hrest
        rw [if_neg (by omega), chunks_eq_cons hmore, ctrLoop_cons_of_length_ne hinc]
        rfl

end Sys2Proof.Machine
end

section
/-! The mode functions and what undoes them (O39; spec/45_modes.md R149 to R155, R158): lengths, the blocks of a
ciphertext, and decryption of what was encrypted. -/

namespace Sys2Proof.Machine

open Claims

theorem PadMessage_length_mod (pt : Bytes) : (PadMessage pt).length % 16 = 0 := by
  rw [PadMessage_length, padLength]
  omega

/-! ## ECB (R149, R150) -/

@[simp] theorem EcbEncrypt_length (rk : RoundKeys) (pt : Bytes) :
    (EcbEncrypt rk pt).length = pt.length + padLength pt.length := by
  rw [EcbEncrypt, concatBlocks_length, List.length_map, wholeBlocks_length, ← PadMessage_length,
    Nat.mul_div_cancel' (Nat.dvd_of_mod_eq_zero (PadMessage_length_mod pt))]

theorem wholeBlocks_EcbEncrypt (rk : RoundKeys) (pt : Bytes) :
    wholeBlocks (EcbEncrypt rk pt) = (wholeBlocks (PadMessage pt)).map (EncryptBlock rk) := wholeBlocks_concatBlocks _

theorem ecbPlain_EcbEncrypt (rk : RoundKeys) (pt : Bytes) : ecbPlain rk (EcbEncrypt rk pt) = PadMessage pt := by
  rw [ecbPlain, wholeBlocks_EcbEncrypt, List.map_map, (DecryptBlock_EncryptBlock rk).comp_eq_id, List.map_id,
    concatBlocks_wholeBlocks (PadMessage_length_mod pt)]

theorem EcbDecrypt_EcbEncrypt (rk : RoundKeys) (pt : Bytes) : EcbDecrypt rk (EcbEncrypt rk pt) = some pt := by
  rw [EcbDecrypt, ecbPlain_EcbEncrypt, RemovePadding_PadMessage]

/-! ## CBC (R151, R155) -/

@[simp] theorem cbcChain_length (rk : RoundKeys) (prev : Block) (ps : List Block) :
    (cbcChain rk prev ps).length = ps.length := by
  induction ps generalizing prev with
  | nil => rfl
  | cons p ps ih => rw [cbcChain, List.length_cons, ih, List.length_cons]

/-- Each block of the chain is the encryption of the message's block exclusive-ORed with the block before it. -/
theorem cbcChain_getElem (rk : RoundKeys) (prev : Block) (ps : List Block) (j : Nat) (h : j < ps.length) :
    (prev :: cbcChain rk prev ps)[j + 1]'(by simpa using h) =
      EncryptBlock rk (xorBlock ps[j] ((prev :: cbcChain rk prev ps)[j]'(by simp; omega))) := by
  induction ps generalizing prev j with
  | nil => simp at h
  | cons p ps ih =>
    cases j with
    | zero => rfl
    | succ j => exact ih _ j (by simpa using h)

/-- Decrypting each block of a chain and exclusive-ORing it with the one before takes the chain back. -/
theorem zipWith_cbcChain (rk : RoundKeys) (prev : Block) (ps : List Block) :
    List.zipWith (fun b prev => xorBlock (DecryptBlock rk b) prev) (cbcChain rk prev ps)
      (prev :: cbcChain rk prev ps) = ps := by
  induction ps generalizing prev with
  | nil => rfl
  | cons p ps ih => rw [cbcChain, List.zipWith_cons_cons, ih, DecryptBlock_EncryptBlock, xorBlock_xorBlock]

@[simp] theorem CbcEncrypt_length (rk : RoundKeys) (iv : Block) (pt : Bytes) :
    (CbcEncrypt rk iv pt).length = 16 + pt.length + padLength pt.length := by
  rw [CbcEncrypt, List.length_append, bytesOfBlock_length, concatBlocks_length, cbcChain_length, wholeBlocks_length,
    Nat.mul_div_cancel' (Nat.dvd_of_mod_eq_zero (PadMessage_length_mod pt)), PadMessage_length, Nat.add_assoc]

theorem wholeBlocks_CbcEncrypt (rk : RoundKeys) (iv : Block) (pt : Bytes) :
    wholeBlocks (CbcEncrypt rk iv pt) = iv :: cbcChain rk iv (wholeBlocks (PadMessage pt)) := by
  rw [CbcEncrypt, wholeBlocks_append, wholeBlocks_concatBlocks]

theorem cbcPlain_CbcEncrypt (rk : RoundKeys) (iv : Block) (pt : Bytes) :
    cbcPlain rk (CbcEncrypt rk iv pt) = PadMessage pt := by
  rw [cbcPlain, wholeBlocks_CbcEncrypt, List.tail_cons, zipWith_cbcChain,
    concatBlocks_wholeBlocks (PadMessage_length_mod pt)]

theorem CbcDecrypt_CbcEncrypt (rk : RoundKeys) (iv : Block) (pt : Bytes) :
    CbcDecrypt rk (CbcEncrypt rk iv pt) = some pt := by
  rw [CbcDecrypt, cbcPlain_CbcEncrypt, RemovePadding_PadMessage]

/-! ## CTR (R153, R154) -/

theorem CtrEncrypt_eq (rk : RoundKeys) (nonce : Block) (pt : Bytes) : CtrEncrypt rk nonce pt =
    if CounterLasts (bytesOfBlock nonce) pt.length then
      .ok (bytesOfBlock nonce ++ keystreamed rk (bigEndian (bytesOfBlock nonce)) pt)
    else .error .counterOverflow := by
  rw [CtrEncrypt, CtrStream_eq rk (bytesOfBlock_length nonce)]
  split <;> rfl

theorem CtrDecrypt_append (rk : RoundKeys) (nonce : Block) (data : Bytes) :
    CtrDecrypt rk (bytesOfBlock nonce ++ data) =
      if CounterLasts (bytesOfBlock nonce) data.length then .ok (keystreamed rk (bigEndian (bytesOfBlock nonce)) data)
      else .error .counterOverflow := by
  rw [CtrDecrypt, List.take_left' (bytesOfBlock_length nonce), List.drop_left' (bytesOfBlock_length nonce),
    CtrStream_eq rk (bytesOfBlock_length nonce)]

theorem CtrEncrypt_eq_ok {rk : RoundKeys} {nonce : Block} {pt ct : Bytes} :
    CtrEncrypt rk nonce pt = .ok ct ↔ CounterLasts (bytesOfBlock nonce) pt.length ∧
      ct = bytesOfBlock nonce ++ keystreamed rk (bigEndian (bytesOfBlock nonce)) pt := by
  rw [CtrEncrypt_eq]
  by_cases h : CounterLasts (bytesOfBlock nonce) pt.length
  · rw [if_pos h, Except.ok.injEq, eq_comm, and_iff_right h]
  · rw [if_neg h]
    exact iff_of_false nofun fun hct => h hct.left

/-- The keystream of the same counters cancels. -/
theorem CtrDecrypt_CtrEncrypt {rk : RoundKeys} {nonce : Block} {pt ct : Bytes} (h : CtrEncrypt rk nonce pt = .ok ct) :
    CtrDecrypt rk ct = .ok pt := by
  obtain ⟨hlasts, rfl⟩ := CtrEncrypt_eq_ok.1 h
  rw [CtrDecrypt_append, keystreamed_length, if_pos hlasts, keystreamed_keystreamed]

/-- Settles O39: each decryption brings back what was padded or streamed, and a nonce alone is 16 bytes. -/
theorem modeRoundTrips : Obligations.ModeRoundTrips := by
  unfold Obligations.ModeRoundTrips
  refine fun rk iv pt => ⟨EcbDecrypt_EcbEncrypt rk pt, CbcDecrypt_CbcEncrypt rk iv pt,
    fun _ ct => CtrDecrypt_CtrEncrypt, congrArg Except.ok (List.append_nil _), ?_⟩
  rw [bytesOfBlock_length]
  rfl

end Sys2Proof.Machine
end

section
/-! What the mode commands share (O29; spec/45_modes.md R147, R148; 20_memory.md R36, R40): the Blocks of a source buffer
and of a result, how a command ends in its result, and the two commands that load `IV`. -/

namespace Sys2Proof.Machine

open Claims

/-! ## Blocks and bytes of buffers -/

theorem memBlock_getElem (s : State) (a i : Nat) (h : i < 16) : (memBlock s a)[i] = readByte s (a + i) :=
  Vector.getElem_ofFn h

theorem bytesOfBlock_memBlock (s : State) (a : Nat) : bytesOfBlock (memBlock s a) = readBytes s a 16 := by
  rw [← blockOfBytes_readBytes, bytesOfBlock_blockOfBytes (readBytes_length s a 16)]

theorem readBytes_add (s : State) (a m n : Nat) : readBytes s a (m + n) = readBytes s a m ++ readBytes s (a + m) n := by
  induction m generalizing a with
  | zero => simp [readBytes]
  | succ m ih => rw [Nat.add_right_comm, readBytes, readBytes, ih, List.cons_append, Nat.add_assoc, Nat.add_comm 1]

/-- Byte `i` of whole Block `j` is byte `16j + i` of the buffer (R36). -/
theorem wholeBlocks_getElem_getElem (l : Bytes) (j i : Nat) (hj : j < (wholeBlocks l).length) (hi : i < 16) :
    (wholeBlocks l)[j][i] = l[16 * j + i]'(by rw [wholeBlocks_length] at hj; omega) := by
  rw [wholeBlocks_length] at hj
  rw [wholeBlocks_getElem, blockOfBytes_getElem _ _ hi, chunkAt, List.getD_eq_getElem _ _ (by simp; omega),
    List.getElem_take, List.getElem_drop]

theorem concatBlocks_getElem (bs : List Block) (k : Nat) (h : k < (concatBlocks bs).length) :
    (concatBlocks bs)[k] = (bs[k / 16]'(by rw [concatBlocks_length] at h; omega)).toList.getD (k % 16) 0 := by
  have hmod : k % 16 < 16 := Nat.mod_lt _ (by decide)
  have hget := wholeBlocks_getElem_getElem (concatBlocks bs) (k / 16) (k % 16)
    (by rw [wholeBlocks_length]; rw [concatBlocks_length] at *; omega) hmod
  simp only [wholeBlocks_concatBlocks, Nat.div_add_mod] at hget
  rw [← hget, List.getD_eq_getElem _ _ (by simpa using hmod), Vector.getElem_toList]

theorem wholeBlocks_readBytes_getElem (s : State) (a n j : Nat) (h : j < (wholeBlocks (readBytes s a n)).length) :
    (wholeBlocks (readBytes s a n))[j] = memBlock s (a + 16 * j) :=
  Vector.ext fun i hi => by
    rw [wholeBlocks_getElem_getElem _ _ _ h hi, readBytes_getElem, memBlock_getElem _ _ _ hi, Nat.add_assoc]

/-! ## The result at `DST` (R16, R40) -/

section

variable {s : State} {out : Bytes}

theorem complete_writeResult_of_result_fits (h : fits s s.DST.toNat out.length) :
    complete clearOlen s (writeResult s out) =
      .next { s with MEM := resultMEM s out, OLEN := BitVec.ofNat 32 out.length, ERR := 0 } := by
  rw [writeResult_eq_ok.2 ⟨h, rfl⟩, writeBytes_eq]
  rfl

variable (s) in
theorem memBlock_resultMEM {j : Nat} (h : j < (wholeBlocks out).length) :
    memBlock { s with MEM := resultMEM s out } (s.DST.toNat + 16 * j) = (wholeBlocks out)[j] :=
  Vector.ext fun i hi => by
    have hlt : 16 * j + i < out.length := by rw [wholeBlocks_length] at h; omega
    rw [wholeBlocks_getElem_getElem _ _ _ h hi, memBlock_getElem _ _ _ hi, Nat.add_assoc,
      readByte_resultMEM_inside s hlt]

/-- A command that ends in the bytes `f 0 .. f (n-1)` as its result, with room for them. -/
theorem completes_with_bytes {i : Instr} {f : Nat → Byte} {n : Nat}
    (hexec : exec i s = complete clearOlen s (writeResult s out)) (hlen : out.length = n)
    (hout : ∀ k (hk : k < out.length), out[k] = f k) (h : fits s s.DST.toNat n) :
    ∃ m, exec i s = .next { s with MEM := m, OLEN := BitVec.ofNat 32 n, ERR := 0 } ∧
      (∀ k < n, readByte { s with MEM := m } (s.DST.toNat + k) = f k) ∧
      sameOutside s { s with MEM := m } s.DST.toNat n := by
  subst hlen
  exact ⟨_, hexec.trans (complete_writeResult_of_result_fits h),
    fun k hk => (readByte_resultMEM_inside s hk).trans (hout k hk), sameOutside_resultMEM s out⟩

/-- A command that ends in a result of `n` bytes, without room for them. -/
theorem fails_without_room {i : Instr} {n : Nat} (hexec : exec i s = complete clearOlen s (writeResult s out))
    (hlen : out.length = n) (h : ¬ fits s s.DST.toNat n) : exec i s = .next (failedOutput s 9) := by
  unfold fits at h
  exact hexec.trans (complete_writeResult_of_not_fits (by omega) (by omega))

theorem not_fits_of_lt {a n : Nat} (hpos : 0 < n) (h : s.memSize < a + n) : ¬ fits s a n := by
  unfold fits
  omega

end

/-! ## LDIV and LDNC (R147, R148) -/

/-- Loading `IV` from the descriptor, another length than 16 being the error `e`. -/
def loadIV (e : ErrKind) (s : State) : Host.Outcome State Fault Refusal :=
  complete dropIV s (readSource16 s e >>= fun b => .ok { s with IV := b, IVOK := true })

theorem exec_ldiv_eq_loadIV (s : State) : exec .ldiv s = loadIV .invalidIVLength s := exec_ldiv s

theorem exec_ldnc_eq_loadIV (s : State) : exec .ldnc s = loadIV .invalidNonceLength s := exec_ldnc s

section

variable {e : ErrKind} {s : State}

theorem loadIV_of_fits (hlen : s.LEN.toNat = 16) (h : s.SRC.toNat + 16 ≤ s.memSize) :
    loadIV e s = .next { s with IV := memBlock s s.SRC.toNat, IVOK := true, ERR := 0 } := by
  rw [loadIV, readSource16_eq_ok.2 ⟨hlen, h, rfl⟩, blockOfBytes_readBytes]
  rfl

theorem loadIV_of_length_ne (hlen : s.LEN.toNat ≠ 16) : loadIV e s = .next (raise e (dropIV s)) := by
  rw [loadIV, readSource16_eq_error.2 (.inl ⟨hlen, rfl⟩)]
  rfl

theorem loadIV_of_not_fits (hlen : s.LEN.toNat = 16) (h : s.memSize < s.SRC.toNat + 16) :
    loadIV e s = .next (raise .memRange (dropIV s)) := by
  rw [loadIV, readSource16_eq_error.2 (.inr ⟨hlen, h, rfl⟩)]
  rfl

end

/-- Settles O29: both commands load `IV` the same way, each with its own length error. -/
theorem ivCommands : Obligations.IvCommands := by
  unfold Obligations.IvCommands
  refine ⟨decode_ldiv, decode_ldnc, fun s i e hi => ?_⟩
  obtain ⟨k, hexec, rfl⟩ : ∃ k, exec i s = loadIV k s ∧ ErrKind.code k = e := by
    rcases hi with ⟨rfl, rfl⟩ | ⟨rfl, rfl⟩
    · exact ⟨_, exec_ldiv_eq_loadIV s, rfl⟩
    · exact ⟨_, exec_ldnc_eq_loadIV s, rfl⟩
  rw [hexec]
  exact ⟨fun hlen => loadIV_of_fits (congrArg BitVec.toNat hlen),
    fun hlen => loadIV_of_length_ne (BitVec.toNat_ne.1 hlen),
    fun hlen => loadIV_of_not_fits (congrArg BitVec.toNat hlen)⟩

end Sys2Proof.Machine
end

section
/-! MENC (O31 to O34; spec/45_modes.md R156): the guards in their order, then each mode's ciphertext of the source buffer
at `DST`. -/

namespace Sys2Proof.Machine

open Claims

/-! ## Guards -/

theorem selectMode_of_le {m : Byte} (h : m.toNat ≤ 2) : ∃ c, selectMode m = .ok c := by
  cases hm : selectMode m with
  | ok c => exact ⟨c, rfl⟩
  | error e => exact absurd (selectMode_eq_error.1 hm).1 (by omega)

theorem requireIV_of {c : CipherMode} {s : State} (h : c = .ecb ∨ s.IVOK = true) : requireIV c s = .ok () := by
  rcases h with rfl | h
  · rfl
  · cases c <;> simp [requireIV, h]

/-- The bytes of the source buffer. -/
def sourceBytes (s : State) : Bytes := readBytes s s.SRC.toNat s.LEN.toNat

@[simp] theorem sourceBytes_length (s : State) : (sourceBytes s).length = s.LEN.toNat := readBytes_length _ _ _

theorem sourceBytes_getElem (s : State) (k : Nat) (h : k < (sourceBytes s).length) :
    (sourceBytes s)[k] = readByte s (s.SRC.toNat + k) := readBytes_getElem _ _ _ _ h

section

variable {s : State} {m : Byte} {c : CipherMode}

/-! ## MENC from guard to guard (R189) -/

theorem exec_menc_of_illegal (h : 2 < m.toNat) : exec (.menc m) s = .next (failedOutput s 6) := by
  rw [exec_menc, selectMode_eq_error.2 ⟨h, rfl⟩]
  rfl

theorem exec_menc_without_key (h : m.toNat ≤ 2) (hkey : s.KV = false) :
    exec (.menc m) s = .next (failedOutput s 7) := by
  obtain ⟨c, hm⟩ := selectMode_of_le h
  rw [exec_menc, hm, except_ok_bind, requireKey_without hkey]
  rfl

variable (hm : selectMode m = .ok c) (hkey : s.KV = true)

include hm hkey

theorem exec_menc_of_requireIV_error {e : ErrKind} (h : requireIV c s = .error e) :
    exec (.menc m) s = .next (failedOutput s e.code) := by
  rw [exec_menc, hm, except_ok_bind, requireKey_of hkey, except_ok_bind, h]
  rfl

variable (hiv : c = .ecb ∨ s.IVOK = true)

include hiv

theorem exec_menc_of_source_not_fits (h : ¬ fits s s.SRC.toNat s.LEN.toNat) :
    exec (.menc m) s = .next (failedOutput s 9) := by
  rw [exec_menc, hm, except_ok_bind, requireKey_of hkey, except_ok_bind, requireIV_of hiv, except_ok_bind,
    readSource_of_not_fits h]
  rfl

theorem exec_menc_of_source_fits (h : fits s s.SRC.toNat s.LEN.toNat) : exec (.menc m) s =
    complete clearOlen s (modeEncrypt c s.RK s.IV (sourceBytes s) >>= writeResult s) := by
  rw [exec_menc, hm, except_ok_bind, requireKey_of hkey, except_ok_bind, requireIV_of hiv, except_ok_bind,
    readSource_of_fits h]
  rfl

end

/-! ## Each mode's ciphertext -/

/-- What MENC CTR writes: the nonce, then the keystreamed source buffer (R153). -/
def ctrResult (s : State) : Bytes :=
  bytesOfBlock s.IV ++ keystreamed s.RK (bigEndian (bytesOfBlock s.IV)) (sourceBytes s)

theorem ctrResult_length (s : State) : (ctrResult s).length = 16 + s.LEN.toNat := by
  rw [ctrResult, List.length_append, bytesOfBlock_length, keystreamed_length, sourceBytes_length]

theorem ctrResult_getElem (s : State) (k : Nat) (h : k < s.LEN.toNat) :
    (ctrResult s)[16 + k]'(by rw [ctrResult_length]; omega) =
      readByte s (s.SRC.toNat + k) ^^^ streamByte s.RK (bigEndian (bytesOfBlock s.IV)) k := by
  simp only [ctrResult]
  rw [List.getElem_append_right (by simp)]
  simp only [bytesOfBlock_length, Nat.add_sub_cancel_left]
  rw [keystreamed_getElem _ _ _ _ (by simpa using h), sourceBytes_getElem]

section

variable {s : State} (hkey : s.KV = true) (hsrc : fits s s.SRC.toNat s.LEN.toNat)

include hkey hsrc

theorem exec_menc_ecb : exec (.menc 0) s = complete clearOlen s (writeResult s (EcbEncrypt s.RK (sourceBytes s))) :=
  exec_menc_of_source_fits (c := .ecb) rfl hkey (.inl rfl) hsrc

variable (hiv : s.IVOK = true)

include hiv

theorem exec_menc_cbc :
    exec (.menc 1) s = complete clearOlen s (writeResult s (CbcEncrypt s.RK s.IV (sourceBytes s))) :=
  exec_menc_of_source_fits (c := .cbc) rfl hkey (.inr hiv) hsrc

theorem exec_menc_ctr_of_lasts (h : CounterLasts (bytesOfBlock s.IV) s.LEN.toNat) :
    exec (.menc 2) s = complete clearOlen s (writeResult s (ctrResult s)) := by
  rw [exec_menc_of_source_fits rfl hkey (.inr hiv) hsrc, modeEncrypt, CtrEncrypt_eq, sourceBytes_length, if_pos h]
  rfl

theorem exec_menc_ctr_of_not_lasts (h : ¬ CounterLasts (bytesOfBlock s.IV) s.LEN.toNat) :
    exec (.menc 2) s = .next (failedOutput s 11) := by
  rw [exec_menc_of_source_fits rfl hkey (.inr hiv) hsrc, modeEncrypt, CtrEncrypt_eq, sourceBytes_length, if_neg h]
  rfl

end

/-! ## The results -/

theorem wholeBlocks_PadMessage_length (pt : Bytes) : (wholeBlocks (PadMessage pt)).length = pt.length / 16 + 1 := by
  rw [wholeBlocks_length, PadMessage_length, padLength]
  omega

theorem wholeBlocks_PadMessage_getElem (s : State) (j : Nat)
    (h : j < (wholeBlocks (PadMessage (sourceBytes s))).length) :
    (wholeBlocks (PadMessage (sourceBytes s)))[j] = paddedBlock s j :=
  Vector.ext fun i hi => by
    rw [wholeBlocks_getElem_getElem _ _ _ h hi, paddedBlock, Vector.getElem_ofFn]
    split
    next hlt => rw [PadMessage_getElem_of_lt (by simpa using hlt), sourceBytes_getElem]
    next hge => rw [PadMessage_getElem_of_le (by simpa using hge), sourceBytes_length]

/-- Settles O31: the result is the encrypted blocks of the padded source buffer. -/
theorem mencEcbCompletes : Obligations.MencEcbCompletes := by
  unfold Obligations.MencEcbCompletes
  refine ⟨decode_menc, fun s hkey hsrc hdst => ?_⟩
  have hlen := EcbEncrypt_length s.RK (sourceBytes s)
  rw [sourceBytes_length] at hlen
  rw [← hlen] at hdst ⊢
  refine ⟨_, (exec_menc_ecb hkey hsrc).trans (complete_writeResult_of_fits hdst), fun j hj => ?_,
    sameOutside_resultMEM s _⟩
  have hj' : j < (wholeBlocks (PadMessage (sourceBytes s))).length := by
    rwa [wholeBlocks_PadMessage_length, sourceBytes_length]
  rw [memBlock_resultMEM s (by rw [wholeBlocks_EcbEncrypt, List.length_map]; exact hj')]
  simp only [wholeBlocks_EcbEncrypt, List.getElem_map, wholeBlocks_PadMessage_getElem]

/-- Settles O32: the result is the IV and the chain that it starts. -/
theorem mencCbcCompletes : Obligations.MencCbcCompletes := by
  unfold Obligations.MencCbcCompletes
  intro s hkey hiv hsrc hdst
  have hlen := CbcEncrypt_length s.RK s.IV (sourceBytes s)
  rw [sourceBytes_length] at hlen
  rw [← hlen] at hdst ⊢
  have hcount : (wholeBlocks (CbcEncrypt s.RK s.IV (sourceBytes s))).length = s.LEN.toNat / 16 + 2 := by
    rw [wholeBlocks_CbcEncrypt, List.length_cons, cbcChain_length, wholeBlocks_PadMessage_length, sourceBytes_length]
  have hblock (j : Nat) (hj : j < s.LEN.toNat / 16 + 2) := memBlock_resultMEM s (hcount.symm ▸ hj)
  simp only [wholeBlocks_CbcEncrypt] at hblock
  refine ⟨_, (exec_menc_cbc hkey hsrc hiv).trans (complete_writeResult_of_fits hdst), hblock 0 (by omega),
    fun j hj => ?_, sameOutside_resultMEM s _⟩
  rw [hblock (j + 1) (by omega), hblock j (by omega), cbcChain_getElem, wholeBlocks_PadMessage_getElem]
  rwa [wholeBlocks_PadMessage_length, sourceBytes_length]

/-- Settles O33: the result is the nonce and the keystreamed source buffer. -/
theorem mencCtrCompletes : Obligations.MencCtrCompletes := by
  unfold Obligations.MencCtrCompletes
  intro s hkey hiv hsrc hlasts hdst
  have hblocks : wholeBlocks (ctrResult s) = s.IV :: wholeBlocks _ := wholeBlocks_append s.IV _
  have hnonce := memBlock_resultMEM s (out := ctrResult s) (j := 0) (by rw [hblocks]; exact Nat.succ_pos _)
  simp only [hblocks] at hnonce
  have hlen := ctrResult_length s
  rw [← hlen] at hdst ⊢
  refine ⟨_, (exec_menc_ctr_of_lasts hkey hsrc hiv hlasts).trans (complete_writeResult_of_fits hdst),
    hnonce, fun k hk => ?_, sameOutside_resultMEM s _⟩
  rw [Nat.add_assoc, readByte_resultMEM_inside s (by omega), ctrResult_getElem s k hk]

/-- Settles O34: each guard fails when those before it let the command through, and then the result does not fit. -/
theorem mencErrors : Obligations.MencErrors := by
  unfold Obligations.MencErrors
  refine fun s => ⟨fun m => exec_menc_of_illegal, fun m => exec_menc_without_key, fun hkey hiv => ⟨?_, ?_⟩,
    fun m hm hkey hiv hsrc => ?_, fun hkey hiv hsrc hlasts => ?_, fun hkey hsrc hdst => ?_,
    fun hkey hiv hsrc hdst => ?_, fun hkey hiv hsrc hlasts hdst => ?_⟩
  · exact exec_menc_of_requireIV_error (m := 1) (c := .cbc) rfl hkey (by rw [requireIV, hiv]; rfl)
  · exact exec_menc_of_requireIV_error (m := 2) (c := .ctr) rfl hkey (by rw [requireIV, hiv]; rfl)
  · obtain ⟨c, hc⟩ := selectMode_of_le hm
    refine exec_menc_of_source_not_fits hc hkey (hiv.imp_left ?_) hsrc
    rintro rfl
    exact (Except.ok.inj hc).symm
  · exact exec_menc_ctr_of_not_lasts hkey hsrc hiv (Nat.not_le.2 hlasts)
  · exact fails_without_room (exec_menc_ecb hkey hsrc) (by rw [EcbEncrypt_length, sourceBytes_length])
      (not_fits_of_lt (Nat.add_pos_right _ (padLength_pos _)) hdst)
  · exact fails_without_room (exec_menc_cbc hkey hsrc hiv) (by rw [CbcEncrypt_length, sourceBytes_length])
      (not_fits_of_lt (Nat.add_pos_right _ (padLength_pos _)) hdst)
  · exact fails_without_room (exec_menc_ctr_of_lasts hkey hsrc hiv hlasts) (ctrResult_length s)
      (not_fits_of_lt (by omega) hdst)

end Sys2Proof.Machine
end

section
/-! MDEC (O35 to O38; spec/45_modes.md R157): the guards in their order, then each mode's plaintext of the source buffer
at `DST`; ECB and CBC end alike, by taking a padding off what the blocks decrypt to. -/

namespace Sys2Proof.Machine

open Claims

/-! ## Lengths of a ciphertext -/

/-- The lengths that MDEC takes in each mode (R157). -/
def isCipherLength : CipherMode → Nat → Prop
  | .ecb, n => 0 < n ∧ n % 16 = 0
  | .cbc, n => 32 ≤ n ∧ n % 16 = 0
  | .ctr, n => 16 < n

theorem checkCipherLength_ecb (n : Nat) : checkCipherLength .ecb n =
    if n = 0 then .error .ciphertextTooShort else if n % 16 ≠ 0 then .error .badLength else .ok () := by
  simp only [checkCipherLength, raiseIf, beq_iff_eq, bne_iff_ne]
  split <;> rfl

theorem checkCipherLength_cbc (n : Nat) : checkCipherLength .cbc n =
    if n < 32 then .error .ciphertextTooShort else if n % 16 ≠ 0 then .error .badLength else .ok () := by
  simp only [checkCipherLength, raiseIf, decide_eq_true_eq, bne_iff_ne]
  split <;> rfl

theorem checkCipherLength_ctr (n : Nat) :
    checkCipherLength .ctr n = if n ≤ 16 then .error .ciphertextTooShort else .ok () := by
  simp only [checkCipherLength, raiseIf, decide_eq_true_eq]

theorem checkCipherLength_of {c : CipherMode} {n : Nat} (h : isCipherLength c n) : checkCipherLength c n = .ok () := by
  cases c with
  | ecb => rw [checkCipherLength_ecb, if_neg h.1.ne', if_neg (not_not.2 h.2)]
  | cbc => rw [checkCipherLength_cbc, if_neg (Nat.not_lt.2 h.1), if_neg (not_not.2 h.2)]
  | ctr => rw [checkCipherLength_ctr, if_neg (Nat.not_le.2 h)]

/-! ## MDEC from guard to guard (R189) -/

section

variable {s : State} {m : Byte} {c : CipherMode}

theorem exec_mdec_of_illegal (h : 2 < m.toNat) : exec (.mdec m) s = .next (failedOutput s 6) := by
  rw [exec_mdec, selectMode_eq_error.2 ⟨h, rfl⟩]
  rfl

theorem exec_mdec_without_key (h : m.toNat ≤ 2) (hkey : s.KV = false) :
    exec (.mdec m) s = .next (failedOutput s 7) := by
  obtain ⟨c, hm⟩ := selectMode_of_le h
  rw [exec_mdec, hm, except_ok_bind, requireKey_without hkey]
  rfl

variable (hm : selectMode m = .ok c) (hkey : s.KV = true)

include hm hkey

theorem exec_mdec_of_length_error {e : ErrKind} (h : checkCipherLength c s.LEN.toNat = .error e) :
    exec (.mdec m) s = .next (failedOutput s e.code) := by
  rw [exec_mdec, hm, except_ok_bind, requireKey_of hkey, except_ok_bind, srcLen, h]
  rfl

variable (hlen : isCipherLength c s.LEN.toNat)

include hlen

theorem exec_mdec_of_source_not_fits (h : ¬ fits s s.SRC.toNat s.LEN.toNat) :
    exec (.mdec m) s = .next (failedOutput s 9) := by
  rw [exec_mdec, hm, except_ok_bind, requireKey_of hkey, except_ok_bind, srcLen, checkCipherLength_of hlen,
    except_ok_bind, readSource_of_not_fits h]
  rfl

theorem exec_mdec_of_source_fits (h : fits s s.SRC.toNat s.LEN.toNat) :
    exec (.mdec m) s = complete clearOlen s (modeDecrypt c s.RK (sourceBytes s) >>= writeResult s) := by
  rw [exec_mdec, hm, except_ok_bind, requireKey_of hkey, except_ok_bind, srcLen, checkCipherLength_of hlen,
    except_ok_bind, readSource_of_fits h]
  rfl

end

/-! ## What ends in a padding (R135) -/

section

variable {s : State} {i : Instr} {plain : Bytes} {f : Nat → Byte} {n : Nat}
  (hexec : exec i s = complete clearOlen s (paddedOrRaise (RemovePadding plain) >>= writeResult s))
  (hlen : plain.length = n) (hplain : ∀ k (hk : k < plain.length), plain[k] = f k)

include hexec hlen hplain

theorem exec_of_validPadding {p : Nat} (hp : validPadding f n p) :
    exec i s = complete clearOlen s (writeResult s (plain.take (n - p))) := by
  subst hlen
  rw [hexec, RemovePadding_of_validPadding hplain hp]
  rfl

theorem exec_unpadded_completes {p : Nat} (hp : validPadding f n p) (h : fits s s.DST.toNat (n - p)) :
    ∃ m, exec i s = .next { s with MEM := m, OLEN := BitVec.ofNat 32 (n - p), ERR := 0 } ∧
      (∀ k < n - p, readByte { s with MEM := m } (s.DST.toNat + k) = f k) ∧
      sameOutside s { s with MEM := m } s.DST.toNat (n - p) := by
  refine completes_with_bytes (exec_of_validPadding hexec hlen hplain hp) ?_ (fun k hk => ?_) h
  · rw [List.length_take, hlen, Nat.min_eq_left (Nat.sub_le _ _)]
  · rw [List.getElem_take, hplain]

theorem exec_unpadded_of_not_fits {p : Nat} (hp : validPadding f n p) (h : ¬ fits s s.DST.toNat (n - p)) :
    exec i s = .next (failedOutput s 9) := by
  refine fails_without_room (exec_of_validPadding hexec hlen hplain hp) ?_ h
  rw [List.length_take, hlen, Nat.min_eq_left (Nat.sub_le _ _)]

theorem exec_of_not_validPadding (h : ∀ p, ¬ validPadding f n p) : exec i s = .next (failedOutput s 5) := by
  subst hlen
  rw [hexec, RemovePadding_eq_none hplain h]
  rfl

end

/-! ## ECB and CBC (R150, R155) -/

section

variable {s : State}

theorem wholeBlocks_sourceBytes_getElem (s : State) (j : Nat) (h : j < (wholeBlocks (sourceBytes s)).length) :
    (wholeBlocks (sourceBytes s))[j] = memBlock s (s.SRC.toNat + 16 * j) := wholeBlocks_readBytes_getElem s _ _ j h

theorem ecbPlain_sourceBytes_length (h : s.LEN.toNat % 16 = 0) :
    (ecbPlain s.RK (sourceBytes s)).length = s.LEN.toNat := by
  rw [ecbPlain, concatBlocks_length, List.length_map, wholeBlocks_length, sourceBytes_length]
  omega

theorem ecbPlain_sourceBytes_getElem (k : Nat) (h : k < (ecbPlain s.RK (sourceBytes s)).length) :
    (ecbPlain s.RK (sourceBytes s))[k] = ecbByte s k := by
  simp only [ecbPlain, concatBlocks_getElem, List.getElem_map, wholeBlocks_sourceBytes_getElem, ecbByte]

theorem cbcPlain_sourceBytes_length (h : s.LEN.toNat % 16 = 0) :
    (cbcPlain s.RK (sourceBytes s)).length = s.LEN.toNat - 16 := by
  simp only [cbcPlain, concatBlocks_length, List.length_zipWith, List.length_tail, wholeBlocks_length,
    sourceBytes_length]
  omega

theorem cbcPlain_sourceBytes_getElem (k : Nat) (h : k < (cbcPlain s.RK (sourceBytes s)).length) :
    (cbcPlain s.RK (sourceBytes s))[k] = cbcByte s k := by
  have hmod : k % 16 < 16 := Nat.mod_lt _ (by decide)
  simp only [cbcPlain, concatBlocks_getElem, List.getElem_zipWith, List.getElem_tail, wholeBlocks_sourceBytes_getElem,
    cbcByte]
  rw [List.getD_eq_getElem _ _ (by simpa using hmod), List.getD_eq_getElem _ _ (by simpa using hmod),
    Vector.getElem_toList, Vector.getElem_toList, xorBlock_getElem _ _ _ hmod, memBlock_getElem _ _ _ hmod,
    Nat.add_assoc, Nat.div_add_mod]

theorem exec_mdec_ecb (hkey : s.KV = true) (hlen : 0 < s.LEN.toNat) (hmod : s.LEN.toNat % 16 = 0)
    (hsrc : s.SRC.toNat + s.LEN.toNat ≤ s.memSize) : exec (.mdec 0) s =
      complete clearOlen s (paddedOrRaise (RemovePadding (ecbPlain s.RK (sourceBytes s))) >>= writeResult s) :=
  exec_mdec_of_source_fits (c := .ecb) rfl hkey ⟨hlen, hmod⟩ (.inr hsrc)

theorem exec_mdec_cbc (hkey : s.KV = true) (hlen : 32 ≤ s.LEN.toNat) (hmod : s.LEN.toNat % 16 = 0)
    (hsrc : s.SRC.toNat + s.LEN.toNat ≤ s.memSize) : exec (.mdec 1) s =
      complete clearOlen s (paddedOrRaise (RemovePadding (cbcPlain s.RK (sourceBytes s))) >>= writeResult s) :=
  exec_mdec_of_source_fits (c := .cbc) rfl hkey ⟨hlen, hmod⟩ (.inr hsrc)

end

/-- Settles O35: the decrypted bytes are `ecbByte`, and their padding comes off. -/
theorem mdecEcbCompletes : Obligations.MdecEcbCompletes := by
  unfold Obligations.MdecEcbCompletes
  exact ⟨decode_mdec, fun s p hkey hlen hmod hsrc => exec_unpadded_completes (exec_mdec_ecb hkey hlen hmod hsrc)
    (ecbPlain_sourceBytes_length hmod) ecbPlain_sourceBytes_getElem⟩

/-- Settles O36: the decrypted bytes are `cbcByte`, and their padding comes off. -/
theorem mdecCbcCompletes : Obligations.MdecCbcCompletes := by
  unfold Obligations.MdecCbcCompletes
  exact fun s p hkey hlen hmod hsrc => exec_unpadded_completes (exec_mdec_cbc hkey hlen hmod hsrc)
    (cbcPlain_sourceBytes_length hmod) cbcPlain_sourceBytes_getElem

/-! ## CTR (R154) -/

section

variable {s : State} (hkey : s.KV = true) (hlen : 16 < s.LEN.toNat) (hsrc : s.SRC.toNat + s.LEN.toNat ≤ s.memSize)

/-- The source buffer after its first 16 bytes, which are the counter. -/
def streamedBytes (s : State) : Bytes := readBytes s (s.SRC.toNat + 16) (s.LEN.toNat - 16)

theorem streamedBytes_length (s : State) : (streamedBytes s).length = s.LEN.toNat - 16 := readBytes_length _ _ _

theorem sourceBytes_eq_append (hlen : 16 < s.LEN.toNat) :
    sourceBytes s = bytesOfBlock (memBlock s s.SRC.toNat) ++ streamedBytes s := by
  rw [bytesOfBlock_memBlock, streamedBytes, ← readBytes_add, Nat.add_sub_cancel' hlen.le, sourceBytes]

include hkey hlen hsrc

theorem exec_mdec_ctr_of_lasts (h : CounterLasts (bytesOfBlock (memBlock s s.SRC.toNat)) (s.LEN.toNat - 16)) :
    exec (.mdec 2) s = complete clearOlen s (writeResult s
      (keystreamed s.RK (bigEndian (bytesOfBlock (memBlock s s.SRC.toNat))) (streamedBytes s))) := by
  rw [exec_mdec_of_source_fits (c := .ctr) rfl hkey hlen (.inr hsrc), sourceBytes_eq_append hlen, modeDecrypt,
    CtrDecrypt_append, streamedBytes_length, if_pos h]
  rfl

theorem exec_mdec_ctr_of_not_lasts (h : ¬ CounterLasts (bytesOfBlock (memBlock s s.SRC.toNat)) (s.LEN.toNat - 16)) :
    exec (.mdec 2) s = .next (failedOutput s 11) := by
  rw [exec_mdec_of_source_fits (c := .ctr) rfl hkey hlen (.inr hsrc), sourceBytes_eq_append hlen, modeDecrypt,
    CtrDecrypt_append, streamedBytes_length, if_neg h]
  rfl

end

/-- Settles O37: the result is the keystreamed source buffer after its counter. -/
theorem mdecCtrCompletes : Obligations.MdecCtrCompletes := by
  unfold Obligations.MdecCtrCompletes
  intro s hkey hlen hsrc hlasts hdst
  refine completes_with_bytes (exec_mdec_ctr_of_lasts hkey hlen hsrc hlasts) ?_ (fun k hk => ?_) (.inr hdst)
  · rw [keystreamed_length, streamedBytes_length]
  · rw [keystreamed_length] at hk
    rw [keystreamed_getElem _ _ _ _ hk]
    exact congrArg (· ^^^ _) (readBytes_getElem _ _ _ _ hk)

/-- Settles O38: each guard fails when those before it let the command through, then the padding or the counter, and
last the result that does not fit. -/
theorem mdecErrors : Obligations.MdecErrors := by
  unfold Obligations.MdecErrors
  intro s
  refine ⟨fun m => exec_mdec_of_illegal, fun m => exec_mdec_without_key, fun hkey hlen => ?_, fun hkey hlen => ?_,
    fun hkey hlen => ?_, fun hkey hmod => ?_, fun hkey hlen hmod => ?_, fun hkey hsrc => ?_, fun hkey hsrc => ?_,
    fun hkey hsrc => ?_⟩
  · exact exec_mdec_of_length_error (m := 0) (c := .ecb) rfl hkey (by rw [checkCipherLength_ecb, if_pos hlen])
  · exact exec_mdec_of_length_error (m := 1) (c := .cbc) rfl hkey (by rw [checkCipherLength_cbc, if_pos hlen])
  · exact exec_mdec_of_length_error (m := 2) (c := .ctr) rfl hkey (by rw [checkCipherLength_ctr, if_pos hlen])
  · exact exec_mdec_of_length_error (m := 0) (c := .ecb) rfl hkey
      (by rw [checkCipherLength_ecb, if_neg (by omega), if_pos hmod])
  · exact exec_mdec_of_length_error (m := 1) (c := .cbc) rfl hkey
      (by rw [checkCipherLength_cbc, if_neg (Nat.not_lt.2 hlen), if_pos hmod])
  · have hsource (hpos : 0 < s.LEN.toNat) := not_fits_of_lt hpos hsrc
    exact ⟨fun hlen hmod => exec_mdec_of_source_not_fits (c := .ecb) rfl hkey ⟨hlen, hmod⟩ (hsource hlen),
      fun hlen hmod => exec_mdec_of_source_not_fits (c := .cbc) rfl hkey ⟨hlen, hmod⟩ (hsource (by omega)),
      fun hlen => exec_mdec_of_source_not_fits (c := .ctr) rfl hkey hlen (hsource (by omega))⟩
  · exact ⟨fun hlen hmod => exec_of_not_validPadding (exec_mdec_ecb hkey hlen hmod hsrc)
        (ecbPlain_sourceBytes_length hmod) ecbPlain_sourceBytes_getElem,
      fun hlen hmod => exec_of_not_validPadding (exec_mdec_cbc hkey hlen hmod hsrc)
        (cbcPlain_sourceBytes_length hmod) cbcPlain_sourceBytes_getElem,
      fun hlen hlasts => exec_mdec_ctr_of_not_lasts hkey hlen hsrc (Nat.not_le.2 hlasts)⟩
  · exact ⟨fun p hlen hmod => exec_unpadded_of_not_fits (exec_mdec_ecb hkey hlen hmod hsrc)
        (ecbPlain_sourceBytes_length hmod) ecbPlain_sourceBytes_getElem,
      fun p hlen hmod => exec_unpadded_of_not_fits (exec_mdec_cbc hkey hlen hmod hsrc)
        (cbcPlain_sourceBytes_length hmod) cbcPlain_sourceBytes_getElem,
      fun hlen hlasts hdst => fails_without_room (exec_mdec_ctr_of_lasts hkey hlen hsrc hlasts)
        (by rw [keystreamed_length, streamedBytes_length]) (not_fits_of_lt (Nat.sub_pos_of_lt hlen) hdst)⟩

end Sys2Proof.Machine
end

section
/-! ENCRYPT and DECRYPT through MEM (O40; spec/45_modes.md R158; 30_encoding.md R68): a mode's ciphertext, read back from
where it was stored, passes MDEC's length check and decrypts to the message. -/

namespace Sys2Proof.Machine

open Claims

/-! ## The modes together (R156, R157) -/

section

variable {c : CipherMode} {rk : RoundKeys} {iv : Block} {pt ct : Bytes} (h : modeEncrypt c rk iv pt = .ok ct)

include h

theorem modeEncrypt_length_le : ct.length ≤ pt.length + 32 := by
  have hpad := padLength_le pt.length
  cases c with
  | ecb => rw [← Except.ok.inj h, EcbEncrypt_length]; omega
  | cbc => rw [← Except.ok.inj h, CbcEncrypt_length]; omega
  | ctr =>
    obtain ⟨-, rfl⟩ := CtrEncrypt_eq_ok.1 h
    rw [List.length_append, bytesOfBlock_length, keystreamed_length]
    omega

/-- Only the nonce alone, CTR's ciphertext of the empty message, is no length that MDEC takes. -/
theorem isCipherLength_modeEncrypt (hne : c = .ctr → pt ≠ []) : isCipherLength c ct.length := by
  have hpad : padLength pt.length = 16 - pt.length % 16 := rfl
  cases c with
  | ecb => rw [← Except.ok.inj h, EcbEncrypt_length]; constructor <;> omega
  | cbc => rw [← Except.ok.inj h, CbcEncrypt_length]; constructor <;> omega
  | ctr =>
    obtain ⟨-, rfl⟩ := CtrEncrypt_eq_ok.1 h
    have hpos := List.length_pos_iff.2 (hne rfl)
    rw [List.length_append, bytesOfBlock_length, keystreamed_length]
    exact Nat.lt_add_of_pos_right hpos

theorem modeDecrypt_modeEncrypt : modeDecrypt c rk ct = .ok pt := by
  cases c with
  | ecb => rw [← Except.ok.inj h, modeDecrypt, EcbDecrypt_EcbEncrypt]; rfl
  | cbc => rw [← Except.ok.inj h, modeDecrypt, CbcDecrypt_CbcEncrypt]; rfl
  | ctr => exact CtrDecrypt_CtrEncrypt h

end

theorem selectMode_eq_ctr_iff {m : Byte} {c : CipherMode} (h : selectMode m = .ok c) : c = .ctr ↔ m = 2 := by
  rcases selectMode_eq_ok.1 h with ⟨rfl, rfl⟩ | ⟨rfl, rfl⟩ | ⟨rfl, rfl⟩ <;> decide

/-! ## The two pseudo-commands (R68) -/

/-- The descriptor as ENCRYPT and DECRYPT set it, by commands that cannot fail. -/
def described (src len dst : BitVec 24) (s : State) : State :=
  { s with SRC := zext32 src, LEN := zext32 len, DST := zext32 dst, ERR := 0 }

theorem runCommands_described (src len dst : BitVec 24) (i : Instr) (s : State) :
    runCommands [.setsrc src, .setlen len, .setdst dst, i] s = exec i (described src len dst s) := by
  rw [runCommands_cons _ (exec_setsrc src s) rfl, runCommands_cons _ (exec_setlen len _) rfl,
    runCommands_cons _ (exec_setdst dst _) rfl, runCommands_singleton]
  rfl

theorem runPseudo_encrypt (m : Byte) (src len dst : BitVec 24) (s : State) :
    runPseudo (.encrypt m src len dst) s = exec (.menc m) (described src len dst s) :=
  runCommands_described src len dst (.menc m) s

theorem runPseudo_decrypt (m : Byte) (src len dst : BitVec 24) (s : State) :
    runPseudo (.decrypt m src len dst) s = exec (.mdec m) (described src len dst s) :=
  runCommands_described src len dst (.mdec m) s

/-- The state after a result is written. -/
def withResult (s : State) (out : Bytes) : State :=
  { s with MEM := resultMEM s out, OLEN := BitVec.ofNat 32 out.length, ERR := 0 }

/-- If MENC succeeds, its guards let it through and its ciphertext is the result. -/
theorem exec_menc_success {m : Byte} {s t : State} (h : exec (.menc m) s = .next t) (herr : t.ERR = 0) :
    ∃ c ct, selectMode m = .ok c ∧ s.KV = true ∧ modeEncrypt c s.RK s.IV (sourceBytes s) = .ok ct ∧
      fits s s.DST.toNat ct.length ∧ t = withResult s ct := by
  rw [exec_menc] at h
  rcases complete_cases h with ⟨u, hu, rfl⟩ | ⟨e, -, rfl⟩
  · simp only [except_bind_eq_ok] at hu
    obtain ⟨c, hm, _, hkey, _, -, pt, hsrc, ct, hct, hres⟩ := hu
    obtain ⟨-, rfl⟩ := readSource_eq_ok.1 hsrc
    obtain ⟨hfits, rfl⟩ := writeResult_eq_ok.1 hres
    refine ⟨c, ct, hm, requireKey_eq_ok.1 hkey, hct, hfits, ?_⟩
    rw [writeBytes_eq]
    rfl
  · exact absurd herr (code_ne_zero e)

section

variable (src len dst : BitVec 24) (s : State)

theorem described_SRC : (described src len dst s).SRC.toNat = src.toNat := zext32_toNat src

theorem described_LEN : (described src len dst s).LEN.toNat = len.toNat := zext32_toNat len

theorem described_DST : (described src len dst s).DST.toNat = dst.toNat := zext32_toNat dst

end

/-! ## MDEC of what MENC has stored -/

section

variable {s : State} {ct : Bytes} {src len : BitVec 24} (dst : BitVec 24) (hlen : len.toNat = ct.length)

include hlen

theorem sourceBytes_described_withResult (hsrc : src.toNat = s.DST.toNat) :
    sourceBytes (described src len dst (withResult s ct)) = ct := by
  have hpow : (described src len dst (withResult s ct)).powerOns = (writeBytes s s.DST.toNat ct).powerOns :=
    (writeBytes_powerOns s _ ct).symm
  rw [sourceBytes, described_SRC, described_LEN, hsrc, hlen,
    readBytes_congr (s := writeBytes s s.DST.toNat ct) (t := described src len dst (withResult s ct)) rfl hpow,
    readBytes_writeBytes_self]

variable {m : Byte} {c : CipherMode} (hm : selectMode m = .ok c) (hkey : s.KV = true)
  (hct : modeEncrypt c s.RK s.IV (sourceBytes s) = .ok ct)

include hm hkey hct

/-- MDEC of the stored ciphertext ends in the message as its result. -/
theorem exec_mdec_of_modeEncrypt (hsrc : src.toNat = s.DST.toNat) (hfits : fits s s.DST.toNat ct.length)
    (hne : c = .ctr → sourceBytes s ≠ []) :
    exec (.mdec m) (described src len dst (withResult s ct)) =
      complete clearOlen (described src len dst (withResult s ct))
        (writeResult (described src len dst (withResult s ct)) (sourceBytes s)) := by
  have hread := sourceBytes_described_withResult dst hlen hsrc
  rw [exec_mdec_of_source_fits (s := described src len dst (withResult s ct)) hm hkey, hread]
  · exact congrArg (fun r => complete _ _ (r >>= _)) (modeDecrypt_modeEncrypt hct)
  · rw [← sourceBytes_length, hread]
    exact isCipherLength_modeEncrypt hct hne
  · rw [described_SRC, described_LEN, hsrc, hlen]
    exact hfits

/-- The nonce alone is too short (R157, R158). -/
theorem exec_mdec_of_modeEncrypt_empty (hctr : c = .ctr) (hnil : sourceBytes s = []) :
    exec (.mdec m) (described src len dst (withResult s ct)) =
      .next (failedOutput (described src len dst (withResult s ct)) 4) := by
  subst hctr
  obtain ⟨-, hnonce⟩ := CtrEncrypt_eq_ok.1 hct
  have hshort : ct.length = 16 := by
    rw [hnonce, hnil, List.length_append, bytesOfBlock_length, keystreamed_length, List.length_nil]
  refine exec_mdec_of_length_error (s := described src len dst (withResult s ct)) hm hkey
    (e := .ciphertextTooShort) ?_
  rw [described_LEN, hlen, checkCipherLength_ctr, if_pos hshort.le]

end

theorem olen_setWidth_toNat {n : Nat} (h32 : n < 2 ^ 32) (h24 : (BitVec.ofNat 32 n).toNat < 2 ^ 24) :
    ((BitVec.ofNat 32 n).setWidth 24).toNat = n := by
  rw [BitVec.toNat_setWidth, Nat.mod_eq_of_lt h24, BitVec.toNat_ofNat, Nat.mod_eq_of_lt h32]

/-- Settles O40: DECRYPT finds the ciphertext where ENCRYPT stored it, under the same key. -/
theorem messageRoundTrip : Obligations.MessageRoundTrip := by
  unfold Obligations.MessageRoundTrip
  intro s t mode src len dst out henc herr holen hout
  rw [runPseudo_encrypt] at henc
  obtain ⟨c, ct, hm, hkey, hct, hfits, rfl⟩ := exec_menc_success henc herr
  generalize hs' : described src len dst s = s' at *
  have hptlen : (sourceBytes s').length = len.toNat := by rw [sourceBytes_length, ← hs', described_LEN]
  have hctlen := modeEncrypt_length_le hct
  have hdst : dst.toNat = s'.DST.toNat := by rw [← hs', described_DST]
  have holen' := olen_setWidth_toNat (n := ct.length) (by omega) holen
  rw [runPseudo_decrypt]
  by_cases hempty : mode = 2 ∧ len = 0
  · obtain ⟨hmode, rfl⟩ := hempty
    exact ⟨_, exec_mdec_of_modeEncrypt_empty out holen' hm hkey hct ((selectMode_eq_ctr_iff hm).2 hmode)
      (List.length_eq_zero_iff.1 hptlen), fun _ => rfl, fun h => absurd ⟨hmode, rfl⟩ h⟩
  · have hne (hc : c = .ctr) : sourceBytes s' ≠ [] := fun hnil => by
      rw [hnil] at hptlen
      exact hempty ⟨(selectMode_eq_ctr_iff hm).1 hc, BitVec.eq_of_toNat_eq hptlen.symm⟩
    have hget (k : Nat) (hk : k < (sourceBytes s').length) : (sourceBytes s')[k] = readByte s (src.toNat + k) := by
      rw [sourceBytes_getElem, ← hs', described_SRC]
      exact readByte_congr rfl rfl _
    obtain ⟨m, hexec, hbytes, -⟩ :=
      completes_with_bytes (exec_mdec_of_modeEncrypt out holen' hm hkey hct hdst hfits hne) hptlen hget
        (by rw [described_DST]; subst hs'; exact hout)
    rw [described_DST] at hbytes
    refine ⟨_, hexec, fun h => absurd h hempty, fun _ => ⟨rfl, ?_, hbytes⟩⟩
    rw [BitVec.toNat_ofNat, Nat.mod_eq_of_lt (by omega)]

end Sys2Proof.Machine
end

section
/-! What the oracle of a schedule answers to a forged block (O42; spec/46_oracle_attack.md R171, R173 to R175): the query's
one block decrypts to the intermediate bytes exclusive-ORed with the forged ones, and the answer is whether these bytes end in
a valid padding. -/

namespace Sys2Proof.Machine

open Claims

/-! ## Valid paddings (R135) -/

theorem RemovePadding_isSome_iff {buf : Bytes} {f : Nat → Byte} (hbuf : ∀ k (hk : k < buf.length), buf[k] = f k) :
    (RemovePadding buf).isSome = true ↔ ∃ p, validPadding f buf.length p := by
  constructor
  · intro hsome
    by_contra hno
    rw [RemovePadding_eq_none hbuf (not_exists.1 hno)] at hsome
    cases hsome
  · rintro ⟨p, hp⟩
    rw [RemovePadding_of_validPadding hbuf hp]
    rfl

/-- The last byte of a valid padding is its length, so the length is no free choice. -/
theorem validPadding_eq_of_last {f : Nat → Byte} {n p q : Nat} (hp : validPadding f n p) (hq : q ≤ 16)
    (hlast : f (n - 1) = BitVec.ofNat 8 q) : p = q := by
  obtain ⟨hpos, hle, hn, hrun⟩ := hp
  have hval := congrArg BitVec.toNat ((hrun (n - 1) (by omega) (by omega)).symm.trans hlast)
  rwa [BitVec.toNat_ofNat, BitVec.toNat_ofNat, Nat.mod_eq_of_lt (by omega), Nat.mod_eq_of_lt (by omega)] at hval

/-! ## The oracle on a forged block -/

/-- Byte `k` of what a query decrypts to: the intermediate byte exclusive-ORed with the forged one (R174 `W ^ forged`). -/
def unmasked (w : Block) (forged : Bytes) (k : Nat) : Byte := (bytesOfBlock w).getD k 0 ^^^ forged.getD k 0

theorem cbcPlain_forged (rk : RoundKeys) (clast : Block) {forged : Bytes} (h : forged.length = 16) :
    cbcPlain rk (forged ++ bytesOfBlock clast) =
      bytesOfBlock (xorBlock (DecryptBlock rk clast) (blockOfBytes forged)) := by
  have hblocks : wholeBlocks (forged ++ bytesOfBlock clast) = [blockOfBytes forged, clast] := by
    conv_lhs => rw [← bytesOfBlock_blockOfBytes h, ← List.append_nil (bytesOfBlock clast)]
    rw [wholeBlocks_append, wholeBlocks_append]
    rfl
  simp [cbcPlain, hblocks]

/-- The oracle says ok to a forged block when what it decrypts to ends in a valid padding of any length (R171, R174). -/
theorem oracleOf_forged (rk : RoundKeys) (clast : Block) {forged : Bytes} (h : forged.length = 16) :
    oracleOf rk (forged ++ bytesOfBlock clast) = true ↔
      ∃ p, validPadding (unmasked (DecryptBlock rk clast) forged) 16 p := by
  have hbytes (k : Nat) (hk : k < (cbcPlain rk (forged ++ bytesOfBlock clast)).length) :
      (cbcPlain rk (forged ++ bytesOfBlock clast))[k] = unmasked (DecryptBlock rk clast) forged k := by
    simp only [cbcPlain_forged rk clast h] at hk ⊢
    rw [bytesOfBlock_length] at hk
    rw [bytesOfBlock_getElem, xorBlock_getElem _ _ _ hk, blockOfBytes_getElem _ _ hk, unmasked,
      List.getD_eq_getElem (bytesOfBlock _) _ (by simpa using hk), bytesOfBlock_getElem]
  have hlen : isCbcLength (forged ++ bytesOfBlock clast).length = true := by simp [h, isCbcLength]
  have hplain : (cbcPlain rk (forged ++ bytesOfBlock clast)).length = 16 := by simp [cbcPlain_forged rk clast h]
  rw [oracleOf, hlen, Bool.true_and, CbcDecrypt, RemovePadding_isSome_iff hbytes, hplain]

/-! ## The forged bytes (R173, R174) -/

/-- The intermediate bytes from position `n` on: what is solved before position `n - 1` is attacked. -/
def solvedFrom (w : Block) (n : Nat) : Bytes := (bytesOfBlock w).drop n

@[simp] theorem solvedFrom_sixteen (w : Block) : solvedFrom w 16 = [] := List.drop_eq_nil_of_le (by simp)

theorem solvedFrom_eq_cons (w : Block) {z : Nat} (hz : z < 16) : solvedFrom w z = w[z] :: solvedFrom w (z + 1) := by
  rw [solvedFrom, List.drop_eq_getElem_cons (by simpa using hz), bytesOfBlock_getElem, ← solvedFrom]

@[simp] theorem solvedFrom_length (w : Block) (n : Nat) : (solvedFrom w n).length = 16 - n := by simp [solvedFrom]

section

variable {cprev w : Block} {z : Nat} {v : Byte}

theorem forge_solvedFrom_length (hz : z < 16) : (forge cprev z v (solvedFrom w (z + 1))).length = 16 :=
  forge_length _ _ _ _ (by rw [solvedFrom_length]; omega)

/-- The bytes before the candidate are the first `z` real ones. -/
theorem take_bytesOfBlock_length (hz : z < 16) : ((bytesOfBlock cprev).take z).length = z := by
  rw [List.length_take, bytesOfBlock_length, Nat.min_eq_left hz.le]

/-- Step 3: at `z` the query decrypts to the intermediate byte exclusive-ORed with the candidate. -/
theorem unmasked_forge_self (hz : z < 16) : unmasked w (forge cprev z v (solvedFrom w (z + 1))) z = w[z] ^^^ v := by
  have hforge : (forge cprev z v (solvedFrom w (z + 1))).getD z 0 = v := by
    rw [forge, List.getD_append_right _ _ _ _ (take_bytesOfBlock_length hz).le, take_bytesOfBlock_length hz, Nat.sub_self]
    rfl
  rw [unmasked, hforge, List.getD_eq_getElem _ _ (by simpa using hz), bytesOfBlock_getElem]

/-- Step 2: above `z` the query decrypts to the target padding length. -/
theorem unmasked_forge_of_gt {k : Nat} (hz : z < k) (hk : k < 16) :
    unmasked w (forge cprev z v (solvedFrom w (z + 1))) k = BitVec.ofNat 8 (16 - z) := by
  obtain ⟨j, rfl⟩ := Nat.exists_eq_add_of_lt hz
  have hlen := take_bytesOfBlock_length (cprev := cprev) (hz.trans hk)
  have hforge : (forge cprev z v (solvedFrom w (z + 1))).getD (z + j + 1) 0 =
      (bytesOfBlock w).getD (z + j + 1) 0 ^^^ BitVec.ofNat 8 (16 - z) := by
    have hidx : z + j + 1 - z = j + 1 := by omega
    rw [forge, List.getD_append_right _ _ _ _ (by omega), hlen, hidx, List.getD_cons_succ,
      List.getD_eq_getElem _ _ (by simp; omega), List.getElem_map]
    simp only [solvedFrom, List.getElem_drop, Nat.add_right_comm]
    rw [List.getD_eq_getElem _ _ (by simpa using hk)]
  rw [unmasked, hforge]
  simp

end

/-- The probe changes byte 14 of what the query decrypts to (R174). -/
theorem unmasked_probe_self (w : Block) {forged : Bytes} (h : forged.length = 16) :
    unmasked w (probe forged) 14 = unmasked w forged 14 ^^^ 1 := by
  have hprobe : (probe forged).getD 14 0 = forged.getD 14 0 ^^^ 1 := by simp [probe, h]
  rw [unmasked, hprobe, unmasked, BitVec.xor_assoc]

theorem unmasked_probe_of_ne (w : Block) (forged : Bytes) {k : Nat} (hk : k ≠ 14) :
    unmasked w (probe forged) k = unmasked w forged k := by
  simp [unmasked, probe, List.getD_eq_getElem?_getD, List.getElem?_set_ne hk.symm]

/-! ## One candidate (R174, R175) -/

theorem accepts_eval (f : Bytes → Bool) (cprev : Block) (clast : Bytes) (z : Nat) (solved : Bytes) (v : Byte) :
    (accepts cprev clast z solved v).eval f = (f (forge cprev z v solved ++ clast) &&
      (z != 15 || f (probe (forge cprev z v solved) ++ clast))) := by
  rw [accepts, Proc.eval_ask]
  cases f (forge cprev z v solved ++ clast) with
  | false => rfl
  | true =>
    by_cases hz : z = 15
    · subst hz
      rfl
    · simp [hz]

section

variable {f : Nat → Byte} {z : Nat}

/-- A padding whose bytes above `z` are the target length is valid exactly when the byte at `z` is too (R175). -/
theorem exists_validPadding_iff (hz : z < 15) (habove : ∀ k, z < k → k < 16 → f k = BitVec.ofNat 8 (16 - z)) :
    (∃ p, validPadding f 16 p) ↔ f z = BitVec.ofNat 8 (16 - z) := by
  constructor
  · rintro ⟨p, hp⟩
    obtain rfl := validPadding_eq_of_last hp (by omega) (habove 15 hz (by decide))
    obtain ⟨-, -, -, hrun⟩ := hp
    exact hrun z (by omega) (by omega)
  · refine fun hz' => ⟨16 - z, by omega, by omega, by omega, fun k hk hk' => ?_⟩
    obtain rfl | hlt : k = z ∨ z < k := by omega
    · exact hz'
    · exact habove k hlt hk'

/-- R174: two paddings that agree at byte 15 and not at byte 14 are both valid only if they are one byte long. -/
theorem validPadding_both_iff {g : Nat → Byte} (h15 : g 15 = f 15) (h14 : g 14 ≠ f 14) :
    ((∃ p, validPadding f 16 p) ∧ ∃ p, validPadding g 16 p) ↔ f 15 = 1 := by
  constructor
  · rintro ⟨⟨p, hpos, hle, -, hf⟩, q, hq⟩
    have hlast := hf 15 (by omega) (by decide)
    obtain rfl := validPadding_eq_of_last hq hle (h15.trans hlast)
    obtain ⟨-, -, -, hg⟩ := hq
    obtain rfl | hlong : q = 1 ∨ 2 ≤ q := by omega
    · exact hlast
    · exact absurd ((hg 14 (by omega) (by decide)).trans (hf 14 (by omega) (by decide)).symm) h14
  · intro h1
    have hone {e : Nat → Byte} (he : e 15 = 1) : ∃ p, validPadding e 16 p :=
      ⟨1, le_rfl, by decide, by decide, fun k hk hlt => by rwa [show k = 15 by omega]⟩
    exact ⟨hone h1, hone (h15.trans h1)⟩

end

theorem xor_eq_iff_eq_xor (a b c : Byte) : a ^^^ b = c ↔ b = a ^^^ c := by
  constructor <;> rintro rfl <;> simp

/-- Below 15 the byte at `z` decides; at 15 the probe rejects the longer paddings (R174, R175). -/
theorem accepts_iff (rk : RoundKeys) (cprev clast : Block) {z : Nat} (hz : z < 16) (v : Byte) :
    (accepts cprev (bytesOfBlock clast) z (solvedFrom (DecryptBlock rk clast) (z + 1)) v).eval (oracleOf rk) = true ↔
      v = (DecryptBlock rk clast)[z] ^^^ BitVec.ofNat 8 (16 - z) := by
  generalize hw : DecryptBlock rk clast = w
  have hlen := forge_solvedFrom_length (cprev := cprev) (w := w) (v := v) hz
  have hself := unmasked_forge_self (cprev := cprev) (w := w) (v := v) hz
  rw [accepts_eval, Bool.and_eq_true, Bool.or_eq_true, oracleOf_forged rk clast hlen, hw, bne_iff_ne]
  refine Iff.trans ?_ (xor_eq_iff_eq_xor w[z] v _)
  obtain hlt | rfl : z < 15 ∨ z = 15 := by omega
  · rw [exists_validPadding_iff hlt fun k hk hk' => unmasked_forge_of_gt hk hk', hself]
    exact and_iff_left (.inl hlt.ne)
  · rw [oracleOf_forged rk clast ((probe_length _).trans hlen), hw, or_iff_right (by simp),
      validPadding_both_iff (unmasked_probe_of_ne w _ (by decide)), hself]
    · rfl
    · rw [unmasked_probe_self w hlen]
      simp

/-- Settles O42: the bytes solved above `z` are the intermediate block's. -/
theorem oneCandidateAccepted : Obligations.OneCandidateAccepted := by
  unfold Obligations.OneCandidateAccepted
  exact fun rk cprev clast z v => accepts_iff rk cprev clast z.isLt v

end Sys2Proof.Machine
end

section
/-! The attack against an oracle that answers as a function does (O43, O45, O59; spec/46_oracle_attack.md R172, R173,
R175 to R177, R179): each position is the first accepted candidate, and against a schedule's oracle each block is solved. -/

namespace Sys2Proof.Machine

/-! ## One position: result and queries (R173, R179) -/

section

variable (f : Bytes → Bool) (cprev : Block) (clast : Bytes) (z : Nat) (solved : Bytes)

/-- A position is solved by the first candidate that is accepted, and by none if none is (R173, R177). -/
theorem solveByte_eval (vs : List Byte) : (solveByte cprev clast z solved vs).eval f =
    (vs.find? fun v => (accepts cprev clast z solved v).eval f).map (· ^^^ BitVec.ofNat 8 (16 - z)) := by
  induction vs with
  | nil => rfl
  | cons v vs ih =>
    rw [solveByte, Proc.eval_bind, List.find?_cons]
    cases (accepts cprev clast z solved v).eval f with
    | true => rfl
    | false => exact ih

/-- What an accepted candidate costs: at position 15 the confirming query is a second one (R174). -/
def queriesAt (z : Nat) : Nat := if z = 15 then 2 else 1

theorem one_le_queriesAt (z : Nat) : 1 ≤ queriesAt z := by unfold queriesAt; split <;> decide

/-- A candidate to which the oracle says no at once costs that one query. -/
theorem accepts_cost (v : Byte) : (accepts cprev clast z solved v).cost f =
    if f (forge cprev z v solved ++ clast) then queriesAt z else 1 := by
  rw [accepts, Proc.cost_ask, queriesAt]
  cases f (forge cprev z v solved ++ clast) with
  | false => rfl
  | true => by_cases hz : z = 15 <;> simp [hz]

theorem accepts_cost_le (v : Byte) : (accepts cprev clast z solved v).cost f ≤ queriesAt z := by
  rw [accepts_cost]
  split
  · exact le_rfl
  · exact one_le_queriesAt z

theorem accepts_cost_of_accepted {v : Byte} (h : (accepts cprev clast z solved v).eval f = true) :
    (accepts cprev clast z solved v).cost f = queriesAt z := by
  rw [accepts_eval, Bool.and_eq_true] at h
  rw [accepts_cost, if_pos h.1]

theorem solveByte_cost_le (vs : List Byte) :
    (solveByte cprev clast z solved vs).cost f ≤ vs.length * queriesAt z := by
  induction vs with
  | nil => exact Nat.zero_le _
  | cons v vs ih =>
    have hv := accepts_cost_le f cprev clast z solved v
    rw [solveByte, Proc.cost_bind, List.length_cons, Nat.succ_mul]
    cases (accepts cprev clast z solved v).eval f with
    | true => simp; omega
    | false => simp; omega

theorem le_solveByte_cost {vs : List Byte} {b : Byte} (h : (solveByte cprev clast z solved vs).eval f = some b) :
    queriesAt z ≤ (solveByte cprev clast z solved vs).cost f := by
  induction vs with
  | nil => cases h
  | cons v vs ih =>
    rw [solveByte, Proc.eval_bind] at h
    rw [solveByte, Proc.cost_bind]
    cases hv : (accepts cprev clast z solved v).eval f with
    | true => rw [accepts_cost_of_accepted f cprev clast z solved hv]; exact Nat.le_add_right _ _
    | false => rw [hv] at h; exact (ih h).trans (Nat.le_add_left _ _)

end

theorem mem_candidates (v : Byte) : v ∈ candidates :=
  List.mem_map.2 ⟨v.toNat, List.mem_range.2 v.isLt, BitVec.ofNat_toNat ..⟩

@[simp] theorem candidates_length : candidates.length = 256 := by simp [candidates]

/-! ## One block (R173, R175, R179) -/

section

variable (rk : RoundKeys) (cprev clast : Block)

theorem solveByte_oracleOf {z : Nat} (hz : z < 16) :
    (solveByte cprev (bytesOfBlock clast) z (solvedFrom (DecryptBlock rk clast) (z + 1)) candidates).eval (oracleOf rk) =
      some (DecryptBlock rk clast)[z] := by
  have hiff := accepts_iff rk cprev clast hz
  rw [solveByte_eval]
  cases hfind : List.find? _ candidates with
  | none => exact absurd ((hiff _).2 rfl) (List.find?_eq_none.1 hfind _ (mem_candidates _))
  | some v =>
    have haccepted := List.find?_some hfind
    rw [(hiff v).1 haccepted]
    simp

/-- The accepted candidates' queries of the positions below `n`. -/
def queriesBelow (n : Nat) : Nat := ∑ z ∈ Finset.range n, queriesAt z

/-- From any position down the block is solved, every position with one to 256 candidates tried. -/
theorem solveFrom_oracleOf {n : Nat} (hn : n ≤ 16) :
    let p := solveFrom cprev (bytesOfBlock clast) n (solvedFrom (DecryptBlock rk clast) n)
    p.eval (oracleOf rk) = some (bytesOfBlock (DecryptBlock rk clast)) ∧
      queriesBelow n ≤ p.cost (oracleOf rk) ∧ p.cost (oracleOf rk) ≤ 256 * queriesBelow n := by
  induction n with
  | zero => exact ⟨rfl, Nat.zero_le _, Nat.zero_le _⟩
  | succ z ih =>
    obtain ⟨heval, hge, hle⟩ := ih (by omega)
    have hsolve := solveByte_oracleOf rk cprev clast (z := z) hn
    rw [solvedFrom_eq_cons _ hn] at heval hge hle
    have hge' := le_solveByte_cost _ _ _ _ _ hsolve
    have hle' := solveByte_cost_le (oracleOf rk) cprev (bytesOfBlock clast) z
      (solvedFrom (DecryptBlock rk clast) (z + 1)) candidates
    rw [candidates_length] at hle'
    simp only [solveFrom, Proc.eval_bind, Proc.cost_bind, hsolve]
    rw [queriesBelow, Finset.sum_range_succ, ← queriesBelow]
    exact ⟨heval, by omega, by omega⟩

theorem attackBlock_oracleOf :
    (attackBlock cprev clast).eval (oracleOf rk) = some (xorBlock (DecryptBlock rk clast) cprev) ∧
      17 ≤ (attackBlock cprev clast).cost (oracleOf rk) ∧
      (attackBlock cprev clast).cost (oracleOf rk) ≤ 16 * 256 + 256 := by
  obtain ⟨heval, hcost⟩ := solveFrom_oracleOf rk cprev clast (n := 16) le_rfl
  have hsum : queriesBelow 16 = 17 := by decide
  rw [solvedFrom_sixteen] at heval hcost
  rw [hsum] at hcost
  simp only [attackBlock, Proc.eval_bind, Proc.cost_bind, heval, Proc.eval_done, Proc.cost_done, Option.map_some,
    blockOfBytes_bytesOfBlock]
  exact ⟨trivial, hcost⟩

/-! ## Every block (R172, R176, R177) -/

theorem attackPairs_oracleOf (l : List (Block × Block)) :
    (attackPairs l).eval (oracleOf rk) = some (l.map fun p => xorBlock (DecryptBlock rk p.2) p.1) := by
  induction l with
  | nil => rfl
  | cons p rest ih => simp [attackPairs, ih, (attackBlock_oracleOf rk p.1 p.2).1]

/-- The attack gives what CbcDecrypt gives, from the answers alone (R176, R177). -/
theorem attack_oracleOf (ct : Bytes) :
    (attack ct).eval (oracleOf rk) = (CbcDecrypt rk ct).elim .invalidPadding .recovered := by
  have hplain : concatBlocks ((List.zip (wholeBlocks ct) (wholeBlocks ct).tail).map
      fun p => xorBlock (DecryptBlock rk p.2) p.1) = cbcPlain rk ct := by
    rw [cbcPlain, List.zipWith_comm, List.zip, List.map_zipWith]
  rw [attack, Proc.eval_bind, attackPairs_oracleOf, Proc.eval_done, assemble, hplain, CbcDecrypt]
  cases RemovePadding (cbcPlain rk ct) <;> rfl

end

/-- Settles O59: block by block, and by assembling the blocks. -/
theorem attackEqualsDecryption : Obligations.AttackEqualsDecryption := by
  unfold Obligations.AttackEqualsDecryption
  refine fun rk => ⟨attackBlock_oracleOf rk, fun ct _ _ => ?_⟩
  rw [attack_oracleOf]
  cases CbcDecrypt rk ct <;> rfl

/-- Settles O43: the attack gives what CbcDecrypt gives, which is the message. -/
theorem attackRecoversPlaintext : Obligations.AttackRecoversPlaintext := by
  unfold Obligations.AttackRecoversPlaintext
  intro rk iv pt
  rw [attack_oracleOf, CbcDecrypt_CbcEncrypt, Option.elim_some]

/-! ## An oracle that always fails (R177) -/

/-- The function by which an oracle that always fails answers. -/
def deaf (_ : Bytes) : Bool := false

theorem accepts_deaf (cprev : Block) (clast : Bytes) (z : Nat) (solved : Bytes) (v : Byte) :
    (accepts cprev clast z solved v).eval deaf = false := rfl

theorem attackBlock_deaf (cprev clast : Block) : (attackBlock cprev clast).eval deaf = none := by
  have hfirst : (solveByte cprev (bytesOfBlock clast) 15 [] candidates).eval deaf = none := by
    rw [solveByte_eval, List.find?_eq_none.2 fun v _ => by rw [accepts_deaf]; decide]
    rfl
  rw [attackBlock, Proc.eval_bind, solveFrom, Proc.eval_bind, hfirst]
  rfl

/-- Whatever the other pairs give, the first one gives nothing. -/
theorem attackPairs_deaf (p : Block × Block) (rest : List (Block × Block)) :
    (attackPairs (p :: rest)).eval deaf = none := by
  rw [attackPairs, Proc.eval_bind]
  cases (attackPairs rest).eval deaf with
  | none => rfl
  | some ps => rw [Proc.eval_bind, attackBlock_deaf]; rfl

theorem attack_deaf {ct : Bytes} (h : 32 ≤ ct.length) : (attack ct).eval deaf = .noCandidate := by
  have hlen : 2 ≤ (wholeBlocks ct).length := by rw [wholeBlocks_length]; omega
  obtain ⟨b, c, rest, hct⟩ : ∃ b c rest, wholeBlocks ct = b :: c :: rest := by
    match wholeBlocks ct, hlen with
    | b :: c :: rest, _ => exact ⟨b, c, rest, rfl⟩
  rw [attack, hct, Proc.eval_bind, List.tail_cons, List.zip_cons_cons, attackPairs_deaf]
  rfl

/-- Settles O45: such an oracle answers as `deaf` does, whatever state it hands on. -/
theorem attackStopsOnDeafOracle : Obligations.AttackStopsOnDeafOracle := by
  unfold Obligations.AttackStopsOnDeafOracle
  intro σ o s ct hdeaf hlen _
  rw [← attack_deaf hlen]
  exact (Proc.run_eq_eval (I := fun _ => True) (fun u q _ _ => ⟨hdeaf u q, trivial⟩) (attack_asks ct) trivial).1

end Sys2Proof.Machine
end

section
/-! TRYDEC as the oracle (O41, O44; spec/46_oracle_attack.md R171; 30_encoding.md R68, R195): what MDEC CBC leaves after a
query, what the host learns from it, and the attack over it. -/

namespace Sys2Proof.Machine

open Claims

/-! ## MDEC in CBC (R155, R157) -/

/-- A length that CbcDecrypt does not take is an error of MDEC's. -/
theorem exec_mdec_cbc_of_not_length {s : State} (hkey : s.KV = true) (hlen : isCbcLength s.LEN.toNat = false) :
    ∃ e : ErrKind, exec (.mdec 1) s = .next (failedOutput s e.code) := by
  obtain ⟨e, he⟩ : ∃ e, checkCipherLength .cbc s.LEN.toNat = .error e := by
    rw [checkCipherLength_cbc]
    by_cases h32 : s.LEN.toNat < 32
    · exact ⟨_, if_pos h32⟩
    · have hmod : s.LEN.toNat % 16 ≠ 0 := by simpa [isCbcLength, Nat.not_lt.1 h32] using hlen
      exact ⟨_, by rw [if_neg h32, if_pos hmod]⟩
  exact ⟨e, exec_mdec_of_length_error rfl hkey he⟩

/-- Where its source and its result have room, MDEC in CBC leaves in `ERR` whether CbcDecrypt succeeds, and writes at most the
bytes of a result. -/
theorem exec_mdec_cbc_answers {s : State} (hkey : s.KV = true) (hsrc : s.SRC.toNat + s.LEN.toNat ≤ s.memSize)
    (hdst : s.DST.toNat + (s.LEN.toNat - 16) ≤ s.memSize) :
    ∃ t, exec (.mdec 1) s = .next t ∧ (t.ERR == 0) = oracleOf s.RK (sourceBytes s) ∧
      sameOutside s t s.DST.toNat (s.LEN.toNat - 16) := by
  rw [oracleOf, sourceBytes_length]
  cases hlen : isCbcLength s.LEN.toNat with
  | false =>
    obtain ⟨e, he⟩ := exec_mdec_cbc_of_not_length hkey hlen
    exact ⟨_, he, beq_eq_false_iff_ne.2 (code_ne_zero e), fun _ _ => rfl⟩
  | true =>
    obtain ⟨h32, hmod⟩ : 32 ≤ s.LEN.toNat ∧ s.LEN.toNat % 16 = 0 := by simpa [isCbcLength] using hlen
    rw [exec_mdec_cbc hkey h32 hmod hsrc, CbcDecrypt]
    cases hpt : RemovePadding (cbcPlain s.RK (sourceBytes s)) with
    | none => exact ⟨_, rfl, rfl, fun _ _ => rfl⟩
    | some pt =>
      have hle := (RemovePadding_length_le hpt).trans (cbcPlain_sourceBytes_length hmod).le
      exact ⟨_, complete_writeResult_of_fits (by omega), rfl, fun x hx => sameOutside_resultMEM s pt x (by omega)⟩

/-! ## TRYDEC (R68, R195) -/

section

variable (src len scratch : BitVec 24) (s : State)

theorem runPseudo_trydec : runPseudo (.trydec src len scratch) s = exec (.mdec 1) (described src len scratch s) :=
  runCommands_described src len scratch (.mdec 1) s

theorem sourceBytes_described : sourceBytes (described src len scratch s) = readBytes s src.toNat len.toNat := by
  rw [sourceBytes, described_SRC, described_LEN]
  exact readBytes_congr (s := s) (t := described src len scratch s) rfl rfl _ _

/-- The host's report is whether MDEC's `ERR` is 0. -/
theorem tryDec_eq {t : State} (h : exec (.mdec 1) (described src len scratch s) = .next t) :
    tryDec src len scratch s = (t.ERR == 0, t) := by
  rw [tryDec, runPseudo_trydec, h]

end

/-- TRYDEC writes no cipher state, and a failure no memory (R171). -/
theorem runPseudo_trydec_frame {s t : State} {src len scratch : BitVec 24}
    (h : runPseudo (.trydec src len scratch) s = .next t) :
    (t.RK = s.RK ∧ t.KV = s.KV ∧ t.IV = s.IV ∧ t.IVOK = s.IVOK ∧ t.S = s.S ∧ t.R = s.R) ∧
    (t.ERR ≠ 0 → t.MEM = s.MEM ∧ t.OLEN = 0) := by
  rw [runPseudo_trydec] at h
  have hframe := exec_frame h
  refine ⟨⟨hframe.RK nofun, hframe.KV nofun, hframe.IV rfl, hframe.IVOK rfl, hframe.S rfl, hframe.R rfl⟩,
    fun herr => ?_⟩
  rcases exec_cases h with hzero | ⟨e, rfl⟩
  · exact absurd hzero herr
  · exact ⟨rfl, rfl⟩

/-! ## The query (R171) -/

/-- The core serves as the oracle of a schedule: the key is loaded, and MEM has `n` bytes. -/
structure Serves (rk : RoundKeys) (n : Nat) (s : State) : Prop where
  KV : s.KV = true
  RK : s.RK = rk
  memSize : s.memSize = n

section

variable {rk : RoundKeys} {n : Nat} {s : State} (hs : Serves rk n s)

include hs

theorem Serves.putQuery (src : BitVec 24) (ct : Bytes) : Serves rk n (putQuery src ct s) := by
  rw [Machine.putQuery]
  split
  · exact ⟨(writeBytes_KV ..).trans hs.KV, (writeBytes_RK ..).trans hs.RK, (writeBytes_memSize ..).trans hs.memSize⟩
  · exact hs

theorem Serves.askQuery (src scratch : BitVec 24) (k : Nat) : Serves rk n (askQuery src scratch k s).2 := by
  rw [Machine.askQuery]
  split
  · obtain ⟨t, ht⟩ := exec_next (.mdec 1) (described src (BitVec.ofNat 24 k) scratch s)
    have hframe := exec_frame ht
    rw [tryDec_eq src _ scratch s ht]
    exact ⟨(hframe.KV nofun).trans hs.KV, (hframe.RK nofun).trans hs.RK, hframe.memSize.trans hs.memSize⟩
  · exact hs

variable {src scratch : BitVec 24} {ct : Bytes} (hlen : ct.length < 2 ^ 24) (hsrc : src.toNat + ct.length ≤ n)

include hlen hsrc

theorem Serves.queryFits : queryFits s src ct.length = true :=
  (queryFits_iff s src _).2 ⟨hlen, .inr (hs.memSize.symm ▸ hsrc)⟩

variable (hscratch : scratch.toNat + (ct.length - 16) ≤ n)

include hscratch

/-- TRYDEC of a query that stands at its place answers as the oracle does, and writes at most its result (R171). -/
theorem Serves.askQuery_of_stored (hstored : readBytes s src.toNat ct.length = ct) :
    (Machine.askQuery src scratch ct.length s).1 = oracleOf rk ct ∧
      sameOutside s (Machine.askQuery src scratch ct.length s).2 scratch.toNat (ct.length - 16) := by
  have hfits := hs.queryFits hlen hsrc
  obtain ⟨hkey, rfl, rfl⟩ := hs
  have hcount : (BitVec.ofNat 24 ct.length).toNat = ct.length := by rw [BitVec.toNat_ofNat, Nat.mod_eq_of_lt hlen]
  have hrun := exec_mdec_cbc_answers (s := described src (BitVec.ofNat 24 ct.length) scratch s) hkey
  rw [sourceBytes_described, described_SRC, described_LEN, described_DST, hcount, hstored] at hrun
  obtain ⟨t, ht, hanswer, hframe⟩ := hrun hsrc hscratch
  rw [Machine.askQuery, hfits, if_pos rfl, tryDec_eq src _ scratch s ht]
  exact ⟨hanswer, hframe⟩

theorem machineOracle_eq_oracleOf : (machineOracle src scratch s ct).1 = oracleOf rk ct :=
  ((hs.putQuery src ct).askQuery_of_stored hlen hsrc hscratch (putQuery_of_fits (hs.queryFits hlen hsrc)).1).1

end

/-- Settles O41: MDEC's error code is 0 exactly when CbcDecrypt succeeds. -/
theorem tryDecIsTheOracle : Obligations.TryDecIsTheOracle := by
  unfold Obligations.TryDecIsTheOracle
  exact ⟨fun s src scratch ct hkey hlen hsrc hscratch =>
    machineOracle_eq_oracleOf ⟨hkey, rfl, rfl⟩ hlen hsrc hscratch, fun _ _ _ _ _ => runPseudo_trydec_frame⟩

/-- Settles O44: every query finds the core as the one before left it, the key still loaded. -/
theorem attackOnTheMachine : Obligations.AttackOnTheMachine := by
  unfold Obligations.AttackOnTheMachine
  intro s src scratch iv pt hkey hsrc hscratch
  rw [← attackRecoversPlaintext s.RK iv pt]
  refine (Proc.run_eq_eval (I := Serves s.RK s.memSize) (fun t q ht hq => ?_) (attack_asks _) ⟨hkey, rfl, rfl⟩).1
  exact ⟨machineOracle_eq_oracleOf ht (by omega) (by omega) (by omega), (ht.putQuery src q).askQuery src scratch _⟩

end Sys2Proof.Machine
end

section
/-! Attacks that take turns on one core (O60; spec/46_oracle_attack.md R178): what one turn keeps of its own thread and of the
others, the two ways to keep a placed query (buffers of its own, or no turn in between), and turns that end every thread. -/

namespace Sys2Proof.Machine

open Claims

/-! ## A thread's turn -/

section

variable {α : Type} {th : Thread α} {q : Bytes} {next : Bool → Proc α}

theorem Thread.put_of_done {r : α} (h : th.proc = .done r) (s : State) : th.put s = (th, s) := by
  simp [Thread.put, h]

theorem Thread.put_of_ask (h : th.proc = .ask q next) (s : State) :
    th.put s = ({ th with placed := true }, putQuery th.src q s) := by simp [Thread.put, h]

theorem Thread.ask_of_done {r : α} (h : th.proc = .done r) (s : State) : th.ask s = (th, s) := by
  simp [Thread.ask, h]

theorem Thread.ask_of_not_placed (h : th.placed = false) (s : State) : th.ask s = (th, s) := by
  cases hproc : th.proc <;> simp [Thread.ask, h, hproc]

theorem Thread.ask_of_placed (h : th.proc = .ask q next) (hplaced : th.placed = true) (s : State) :
    th.ask s = ({ th with proc := next (askQuery th.src th.scratch q.length s).1, placed := false },
      (askQuery th.src th.scratch q.length s).2) := by simp [Thread.ask, h, hplaced]

end

/-- A thread on its way to the result `a`, with room for 32-byte queries and their results. -/
structure Thread.Going {α : Type} (rk : RoundKeys) (n : Nat) (a : α) (th : Thread α) : Prop where
  eval : th.proc.eval (oracleOf rk) = a
  asks : th.proc.Asks (fun q => q.length = 32)
  src : th.src.toNat + 32 ≤ n
  scratch : th.scratch.toNat + 16 ≤ n

/-- If the thread has put its query, the query still stands at its `src`. -/
def Thread.Ready {α : Type} (th : Thread α) (s : State) : Prop :=
  th.placed = true → ∀ q next, th.proc = .ask q next → readBytes s th.src.toNat q.length = q

/-- What a turn of `th` on `s` may leave, on the thread's way to `a`: the core serves on, and no run of 32 bytes apart from the
thread's buffers has changed. -/
structure Thread.Takes {α : Type} (rk : RoundKeys) (n : Nat) (a : α) (th : Thread α) (s : State)
    (r : Thread α × State) : Prop where
  serves : Serves rk n r.2
  going : r.1.Going rk n a
  src : r.1.src = th.src
  scratch : r.1.scratch = th.scratch
  ready : r.1.Ready r.2
  frame : ∀ b, apart th.src.toNat 32 b 32 → apart th.scratch.toNat 16 b 32 → readBytes r.2 b 32 = readBytes s b 32

section

variable {α : Type} {rk : RoundKeys} {n : Nat} {a : α} {th : Thread α} {s : State}

theorem Thread.Ready.of_readBytes_eq {t : State} (hready : th.Ready s) (hgoing : th.Going rk n a)
    (h : readBytes t th.src.toNat 32 = readBytes s th.src.toNat 32) : th.Ready t := by
  intro hplaced q next hproc
  have hasks := hgoing.asks
  rw [hproc] at hasks
  obtain ⟨hlen, -⟩ := hasks
  rw [hlen, h, ← hlen]
  exact hready hplaced q next hproc

theorem readBytes_eq_of_sameOutside {t : State} {x k b : Nat} (h : sameOutside s t x k) (hapart : apart x k b 32) :
    readBytes t b 32 = readBytes s b 32 := by
  refine List.ext_getElem (by simp) fun i hi _ => ?_
  rw [readBytes_length] at hi
  rw [readBytes_getElem, readBytes_getElem]
  exact h _ (by unfold apart at hapart; omega)

theorem Thread.Takes.refl (hs : Serves rk n s) (hgoing : th.Going rk n a) (hready : th.Ready s) :
    th.Takes rk n a s (th, s) := ⟨hs, hgoing, rfl, rfl, hready, fun _ _ _ => rfl⟩

theorem Thread.Takes.trans {r r' : Thread α × State} (h : th.Takes rk n a s r) (h' : r.1.Takes rk n a r.2 r') :
    th.Takes rk n a s r' where
  serves := h'.serves
  going := h'.going
  src := h'.src.trans h.src
  scratch := h'.scratch.trans h.scratch
  ready := h'.ready
  frame b hsrc hscratch :=
    (h'.frame b (h.src.symm ▸ hsrc) (h.scratch.symm ▸ hscratch)).trans (h.frame b hsrc hscratch)

variable (hs : Serves rk n s) (hgoing : th.Going rk n a)

include hs hgoing

theorem Thread.Takes.put : th.Takes rk n a s (th.put s) := by
  cases hproc : th.proc with
  | done r =>
    rw [Thread.put_of_done hproc]
    exact .refl hs hgoing fun _ _ _ hask => nomatch hproc.symm.trans hask
  | ask q next =>
    obtain ⟨heval, hasks, hsrc, hscratch⟩ := hgoing
    have hlen : q.length = 32 := by
      rw [hproc] at hasks
      exact hasks.1
    obtain ⟨hstored, hframe⟩ := putQuery_of_fits (hs.queryFits (src := th.src) (ct := q) (by omega) (hlen.symm ▸ hsrc))
    rw [Thread.put_of_ask hproc]
    refine ⟨hs.putQuery th.src q, ⟨heval, hasks, hsrc, hscratch⟩, rfl, rfl, fun _ q' next' hq => ?_, fun b hb _ => ?_⟩
    · obtain ⟨rfl, -⟩ := Proc.ask.inj (hproc.symm.trans hq)
      exact hstored
    · exact readBytes_eq_of_sameOutside hframe (hlen.symm ▸ hb)

theorem Thread.Takes.ask (hready : th.Ready s) : th.Takes rk n a s (th.ask s) := by
  cases hproc : th.proc with
  | done r =>
    rw [Thread.ask_of_done hproc]
    exact .refl hs hgoing hready
  | ask q next =>
    cases hplaced : th.placed with
    | false =>
      rw [Thread.ask_of_not_placed hplaced]
      exact .refl hs hgoing hready
    | true =>
      obtain ⟨heval, hasks, hsrc, hscratch⟩ := hgoing
      rw [hproc] at heval hasks
      obtain ⟨hlen, hnext⟩ := hasks
      obtain ⟨hanswer, hframe⟩ := hs.askQuery_of_stored (scratch := th.scratch) (by omega) (hlen.symm ▸ hsrc)
        (hlen.symm ▸ hscratch) (hready hplaced q next hproc)
      rw [Thread.ask_of_placed hproc hplaced]
      refine ⟨hs.askQuery th.src th.scratch _, ⟨?_, hnext _, hsrc, hscratch⟩, rfl, rfl, nofun, fun b _ hb => ?_⟩
      · rw [hanswer]
        exact heval
      · exact readBytes_eq_of_sameOutside hframe (hlen.symm ▸ hb)

end

/-- A whole query: the thread puts it and asks before another thread's turn (R178). -/
def Thread.query {α : Type} (th : Thread α) (s : State) : Thread α × State := (th.put s).1.ask (th.put s).2

/-- A whole query brings the thread to what follows on its answer. -/
theorem Thread.query_of_ask {α : Type} {th : Thread α} {q : Bytes} {next : Bool → Proc α} (h : th.proc = .ask q next)
    (s : State) : (th.query s).1.proc = next (machineOracle th.src th.scratch s q).1 := by
  rw [Thread.query, Thread.put_of_ask h]
  exact congrArg (·.1.proc) (Thread.ask_of_placed (th := { th with placed := true }) h rfl _)

/-- Putting the query makes it stand, so a whole query needs nothing of an earlier one. -/
theorem Thread.Takes.query {α : Type} {rk : RoundKeys} {n : Nat} {a : α} {th : Thread α} {s : State}
    (hs : Serves rk n s) (hgoing : th.Going rk n a) : th.Takes rk n a s (th.query s) :=
  have hput := Thread.Takes.put hs hgoing
  hput.trans (.ask hput.serves hput.going hput.ready)

/-! ## All threads, with whole queries -/

section

variable {α : Type} {rk : RoundKeys} {n : Nat} {goal : Nat → α} {ths : List (Thread α)} {s : State} {j : Nat}

/-- Everything a turn of thread `j` can do: nothing where there is none, else its act, the other threads left as they are. -/
theorem onThread_cases (act : Thread α → State → Thread α × State) (j : Nat) (ths : List (Thread α)) (s : State) :
    (ths[j]? = none ∧ onThread act j ths s = (ths, s)) ∨
    ∃ th, ths[j]? = some th ∧ (onThread act j ths s).2 = (act th s).2 ∧
      ∀ i th', (onThread act j ths s).1[i]? = some th' → (j = i ∧ th' = (act th s).1) ∨ (j ≠ i ∧ ths[i]? = some th') := by
  cases hth : ths[j]? with
  | none => exact .inl ⟨rfl, by rw [onThread, hth]⟩
  | some th =>
    obtain ⟨hself, hstate⟩ := onThread_self act hth s
    refine .inr ⟨th, rfl, hstate, fun i th' hi => ?_⟩
    obtain rfl | hij := eq_or_ne j i
    · exact .inl ⟨rfl, Option.some.inj (hi.symm.trans hself)⟩
    · exact .inr ⟨hij, (onThread_other act hij ths s).symm.trans hi⟩

/-- Every thread `j` is on its way to `goal j`, on a core that serves. -/
structure AllGoing {α : Type} (rk : RoundKeys) (n : Nat) (goal : Nat → α) (r : List (Thread α) × State) : Prop where
  serves : Serves rk n r.2
  going : ∀ (j : Nat) (th : Thread α), r.1[j]? = some th → th.Going rk n (goal j)

theorem AllGoing.onThread {act : Thread α → State → Thread α × State} (h : AllGoing rk n goal (ths, s))
    (hact : ∀ th, ths[j]? = some th → th.Takes rk n (goal j) s (act th s)) :
    AllGoing rk n goal (onThread act j ths s) := by
  rcases onThread_cases act j ths s with ⟨-, hnone⟩ | ⟨th, hth, hstate, hthreads⟩
  · rw [hnone]
    exact h
  · have htakes := hact th hth
    refine ⟨hstate ▸ htakes.serves, fun i th' hi => ?_⟩
    rcases hthreads i th' hi with ⟨rfl, rfl⟩ | ⟨-, hi'⟩
    · exact htakes.going
    · exact h.going i th' hi'

/-- Whole turns are whole queries, one after another. -/
theorem takeTurns_wholeTurns_cons (j : Nat) (js : List Nat) (ths : List (Thread α)) (s : State) :
    takeTurns (wholeTurns (j :: js)) ths s =
      takeTurns (wholeTurns js) (onThread Thread.query j ths s).1 (onThread Thread.query j ths s).2 := by
  have hquery : onThread Thread.ask j (onThread Thread.put j ths s).1 (onThread Thread.put j ths s).2 =
      onThread Thread.query j ths s := by
    cases hth : ths[j]? with
    | none => simp [onThread, hth]
    | some th =>
      have hj : j < ths.length := (List.getElem?_eq_some_iff.1 hth).1
      simp [onThread, hj, Thread.query]
  rw [← hquery]
  rfl

theorem AllGoing.wholeTurns (js : List Nat) (h : AllGoing rk n goal (ths, s)) :
    AllGoing rk n goal (takeTurns (wholeTurns js) ths s) := by
  induction js generalizing ths s with
  | nil => exact h
  | cons j js ih =>
    rw [takeTurns_wholeTurns_cons]
    exact ih (h.onThread fun th hth => .query h.serves (h.going j th hth))

end

/-! ## All threads, with buffers of their own -/

section

variable {rk : RoundKeys} {n : Nat} {goal : Nat → Option Block} {ths : List (Thread (Option Block))} {s : State}

/-- On top of `AllGoing`, every placed query stands, in buffers that no other thread writes (R178). -/
structure AllReady (rk : RoundKeys) (n : Nat) (goal : Nat → Option Block)
    (r : List (Thread (Option Block)) × State) : Prop extends AllGoing rk n goal r where
  ready : ∀ (j : Nat) (th : Thread (Option Block)), r.1[j]? = some th → th.Ready r.2
  own : ownBuffers r.1

theorem AllReady.onThread {act : Thread (Option Block) → State → Thread (Option Block) × State} {j : Nat}
    (h : AllReady rk n goal (ths, s)) (hact : ∀ th, ths[j]? = some th → th.Takes rk n (goal j) s (act th s)) :
    AllReady rk n goal (onThread act j ths s) := by
  rcases onThread_cases act j ths s with ⟨-, hnone⟩ | ⟨th, hth, hstate, hthreads⟩
  · rw [hnone]
    exact h
  · have htakes := hact th hth
    have hbuffers (i : Nat) (a : Thread (Option Block)) (ha : (Machine.onThread act j ths s).1[i]? = some a) :
        ∃ b, ths[i]? = some b ∧ a.src = b.src ∧ a.scratch = b.scratch := by
      rcases hthreads i a ha with ⟨rfl, rfl⟩ | ⟨-, ha'⟩
      · exact ⟨th, hth, htakes.src, htakes.scratch⟩
      · exact ⟨a, ha', rfl, rfl⟩
    refine ⟨h.toAllGoing.onThread hact, fun i th' hi => ?_, fun i k a b hi hk hik => ?_⟩
    · rw [hstate]
      rcases hthreads i th' hi with ⟨rfl, rfl⟩ | ⟨hij, hi'⟩
      · exact htakes.ready
      · obtain ⟨hsrc, hscratch⟩ := h.own j i th th' hth hi' hij
        exact (h.ready i th' hi').of_readBytes_eq (h.going i th' hi') (htakes.frame _ hsrc hscratch)
    · obtain ⟨a', ha, hasrc, hascratch⟩ := hbuffers i a hi
      obtain ⟨b', hb, hbsrc, -⟩ := hbuffers k b hk
      rw [hasrc, hascratch, hbsrc]
      exact h.own i k a' b' ha hb hik

theorem AllReady.takeTurn (turn : Turn) (h : AllReady rk n goal (ths, s)) :
    AllReady rk n goal (takeTurn turn ths s) := by
  cases turn with
  | put j => exact h.onThread fun th hth => .put h.serves (h.going j th hth)
  | ask j => exact h.onThread fun th hth => .ask h.serves (h.going j th hth) (h.ready j th hth)

theorem AllReady.takeTurns (turns : List Turn) (h : AllReady rk n goal (ths, s)) :
    AllReady rk n goal (takeTurns turns ths s) := by
  induction turns generalizing ths s with
  | nil => exact h
  | cons turn turns ih => exact ih (h.takeTurn turn)

end

/-! ## Every thread ends -/

section

variable {α : Type}

/-- The thread's procedure has come to its result. -/
def Thread.Ended (th : Thread α) : Prop := ∃ r, th.proc = .done r

theorem onThread_length (act : Thread α → State → Thread α × State) (j : Nat) (ths : List (Thread α)) (s : State) :
    (onThread act j ths s).1.length = ths.length := by
  unfold onThread
  split <;> simp

theorem takeTurns_length (turns : List Turn) (ths : List (Thread α)) (s : State) :
    (takeTurns turns ths s).1.length = ths.length := by
  induction turns generalizing ths s with
  | nil => rfl
  | cons turn turns ih =>
    rw [takeTurns, ih]
    cases turn <;> exact onThread_length ..

theorem takeTurns_wholeTurns_other {i j : Nat} (hij : j ≠ i) (k : Nat) (ths : List (Thread α)) (s : State) :
    (takeTurns (wholeTurns (List.replicate k j)) ths s).1[i]? = ths[i]? := by
  induction k generalizing ths s with
  | zero => rfl
  | succ k ih => rw [List.replicate_succ, takeTurns_wholeTurns_cons, ih, onThread_other _ hij]

/-- Every answer leads to a smaller tree of queries, so one thread ends by enough whole queries of its own. -/
theorem exists_wholeTurns_end_one (j : Nat) (ths : List (Thread α)) (s : State) :
    ∃ k, ∀ th, (takeTurns (wholeTurns (List.replicate k j)) ths s).1[j]? = some th → th.Ended := by
  cases hth : ths[j]? with
  | none => exact ⟨0, fun th h => nomatch hth.symm.trans h⟩
  | some th =>
    generalize hproc : th.proc = p
    induction p generalizing ths s th with
    | done r =>
      refine ⟨0, fun th' h => ⟨r, ?_⟩⟩
      cases hth.symm.trans h
      exact hproc
    | ask q next ih =>
      have hself := (onThread_self Thread.query hth s).1
      obtain ⟨k, hk⟩ := ih _ (onThread Thread.query j ths s).1 (onThread Thread.query j ths s).2 _ hself
        (Thread.query_of_ask hproc s)
      refine ⟨k + 1, ?_⟩
      rwa [List.replicate_succ, takeTurns_wholeTurns_cons]

theorem wholeTurns_append (js ks : List Nat) : wholeTurns (js ++ ks) = wholeTurns js ++ wholeTurns ks := by
  simp [wholeTurns]

theorem exists_wholeTurns_end_below (m : Nat) (ths : List (Thread α)) (s : State) :
    ∃ more, ∀ i < m, ∀ th, (takeTurns (wholeTurns more) ths s).1[i]? = some th → th.Ended := by
  induction m with
  | zero => exact ⟨[], nofun⟩
  | succ m ih =>
    obtain ⟨more, hmore⟩ := ih
    obtain ⟨k, hk⟩ := exists_wholeTurns_end_one m (takeTurns (wholeTurns more) ths s).1
      (takeTurns (wholeTurns more) ths s).2
    refine ⟨more ++ List.replicate k m, fun i hi th hth => ?_⟩
    rw [wholeTurns_append, takeTurns_append] at hth
    obtain rfl | hne := eq_or_ne m i
    · exact hk th hth
    · rw [takeTurns_wholeTurns_other hne] at hth
      exact hmore i (by omega) th hth

theorem exists_wholeTurns_end (ths : List (Thread α)) (s : State) :
    ∃ more, ∀ th ∈ (takeTurns (wholeTurns more) ths s).1, th.Ended := by
  obtain ⟨more, hmore⟩ := exists_wholeTurns_end_below ths.length ths s
  refine ⟨more, fun th hth => ?_⟩
  obtain ⟨i, hi⟩ := List.mem_iff_getElem?.1 hth
  refine hmore i ?_ th hi
  rw [← takeTurns_length (wholeTurns more) ths s]
  exact (List.getElem?_eq_some_iff.1 hi).1

end

/-- The block that thread `j`'s attack is to give. -/
def blockOfPair (rk : RoundKeys) (pairs : List (Block × Block)) (j : Nat) : Option Block :=
  pairs[j]?.map fun p => xorBlock (DecryptBlock rk p.2) p.1

theorem attackBlock_going {ths : List (Thread (Option Block))} {pairs : List (Block × Block)} (rk : RoundKeys) {n : Nat}
    (hprocs : ths.map (·.proc) = pairs.map fun p => attackBlock p.1 p.2)
    (hfits : ∀ th ∈ ths, th.src.toNat + 32 ≤ n ∧ th.scratch.toNat + 16 ≤ n) (j : Nat) (th : Thread (Option Block))
    (hth : ths[j]? = some th) : th.Going rk n (blockOfPair rk pairs j) := by
  have hproc := congrArg (·[j]?) hprocs
  simp only [List.getElem?_map, hth, Option.map_some] at hproc
  obtain ⟨p, hp, hattack⟩ := Option.map_eq_some_iff.1 hproc.symm
  obtain ⟨hsrc, hscratch⟩ := hfits th (List.mem_of_getElem? hth)
  refine ⟨?_, hattack ▸ attackBlock_asks p.1 p.2, hsrc, hscratch⟩
  rw [← hattack, (attackBlock_oracleOf rk p.1 p.2).1, blockOfPair, hp]
  rfl

/-- Settles O60: with its own buffers every placed query stands, a whole query is placed and asked in one go. -/
theorem interleavedAttacksAgree : Obligations.InterleavedAttacksAgree := by
  unfold Obligations.InterleavedAttacksAgree
  intro s ths pairs hkey hprocs hths turns hturns
  have hstart : AllGoing s.RK s.memSize (blockOfPair s.RK pairs) (ths, s) :=
    ⟨⟨hkey, rfl, rfl⟩, attackBlock_going s.RK hprocs fun th hth => (hths th hth).2⟩
  have hend : AllGoing s.RK s.memSize (blockOfPair s.RK pairs) (takeTurns turns ths s) := by
    rcases hturns with hown | ⟨js, rfl⟩
    · have hready : AllReady s.RK s.memSize (blockOfPair s.RK pairs) (ths, s) :=
        ⟨hstart, fun j th hth hplaced => (nomatch (hths th (List.mem_of_getElem? hth)).1.symm.trans hplaced), hown⟩
      exact (hready.takeTurns turns).toAllGoing
    · exact hstart.wholeTurns js
  refine ⟨fun j th p r hth hp hproc => ?_, ?_⟩
  · have heval := (hend.going j th hth).eval
    rw [hproc, blockOfPair, hp] at heval
    exact heval
  · obtain ⟨more, hmore⟩ := exists_wholeTurns_end (takeTurns turns ths s).1 (takeTurns turns ths s).2
    exact ⟨more, by rwa [takeTurns_append]⟩

end Sys2Proof.Machine
end

section
/-! How a command ends (O46 to O48; spec/60_exceptions.md R187, R188, R193): one walk over the commands says of each that its
pseudocode raises only the errors listed for it, and that its success leaves `ESTICKY`. -/

namespace Sys2Proof.Machine

open Claims

/-! ## Errors of pseudocode -/

/-- A line of the pseudocode of command `i` raises only errors that are listed for `i`.  (ARK 11 to 15, which no word decodes
to, is left out.) -/
def RaisesListed {α : Type} (i : Instr) (x : Except ErrKind α) : Prop :=
  i.wf = true → ∀ e, x = .error e → e.code ∈ errorsOf i

/-- The pseudocode of command `i` raises only errors that are listed for `i`, and when it succeeds it has left `ESTICKY`,
which CLRE alone writes. -/
structure EndsAsListed (i : Instr) (s : State) (r : Except ErrKind State) : Prop where
  errors : RaisesListed i r
  sticky : i ≠ .clre → ∀ u, r = .ok u → u.ESTICKY = s.ESTICKY

namespace RaisesListed

variable {α β : Type} {i : Instr} {s : State}

theorem ok (a : α) : RaisesListed i (.ok a) := by
  intro _ e he
  cases he

theorem bind {x : Except ErrKind α} {f : α → Except ErrKind β} (hx : RaisesListed i x)
    (hf : ∀ a, x = .ok a → RaisesListed i (f a)) : RaisesListed i (x >>= f) := by
  intro hwf e he
  rcases except_bind_eq_error.1 he with hfirst | ⟨a, ha, hrest⟩
  · exact hx hwf e hfirst
  · exact hf a ha hwf e hrest

/-- If only one error can be raised, it is enough that this one is listed. -/
theorem of_only {x : Except ErrKind α} (k : ErrKind) (honly : ∀ e, x = .error e → e = k)
    (hk : k.code ∈ errorsOf i) : RaisesListed i x := by
  intro _ e he
  rwa [honly e he]

theorem error {k : ErrKind} (hk : k.code ∈ errorsOf i) : RaisesListed i (.error k : Except ErrKind α) :=
  of_only k (fun _ he => (Except.error.inj he).symm) hk

theorem raiseIf {c : Bool} {k : ErrKind} (hk : k.code ∈ errorsOf i) : RaisesListed i (raiseIf c k) :=
  of_only k (fun _ he => (raiseIf_eq_error.1 he).2) hk

theorem memRead (h : 9 ∈ errorsOf i) (a n : Nat) : RaisesListed i (memRead s a n) := by
  rcases memRead_cases s a n with ⟨-, hok⟩ | ⟨-, -, herror⟩
  · rw [hok]
    exact ok _
  · rw [herror]
    exact error (k := .memRange) h

theorem readSource (h : 9 ∈ errorsOf i) : RaisesListed i (readSource s) := memRead h _ _

theorem readSource16 {k : ErrKind} (hk : k.code ∈ errorsOf i) (h : 9 ∈ errorsOf i) :
    RaisesListed i (readSource16 s k) :=
  bind (raiseIf hk) fun _ _ => bind (memRead h _ _) fun _ _ => ok _

theorem requireKey (h : 7 ∈ errorsOf i) : RaisesListed i (requireKey s) := raiseIf h

theorem selectMode {m : Byte} (h : 6 ∈ errorsOf i) : RaisesListed i (selectMode m) :=
  of_only .invalidMode (fun _ he => (selectMode_eq_error.1 he).2) h

/-- A legal index has a round key (R57, R98). -/
theorem roundKeyAt (rk : RoundKeys) (k : BitVec 4) : RaisesListed (.ark k) (roundKeyAt rk k) := by
  intro hwf
  have hk : k.toNat ≤ 10 := by simpa [Instr.wf] using hwf
  rw [roundKeyAt_of_lt rk (by omega)]
  exact ok _ hwf

theorem paddedOrRaise (h : 5 ∈ errorsOf i) (r : Option Bytes) : RaisesListed i (paddedOrRaise r) := by
  cases r with
  | none => exact error (k := .invalidPadding) h
  | some pt => exact ok pt

/-! ### The modes (R156, R157): what a mode raises is listed for its own selector -/

theorem ctrLoop (h : 11 ∈ errorsOf i) (rk : RoundKeys) (ctr : Bytes) (pieces : List Bytes) :
    RaisesListed i (ctrLoop rk ctr pieces) := by
  induction pieces generalizing ctr with
  | nil => exact ok _
  | cons piece rest ih =>
    by_cases hctr : ctr.length = 16
    · simp only [Machine.ctrLoop, hctr, bne_self_eq_false, Bool.false_eq_true, if_false]
      exact bind (ih _) fun _ _ => ok _
    · rw [ctrLoop_cons_of_length_ne hctr]
      exact error (k := .counterOverflow) h

theorem CtrStream (h : 11 ∈ errorsOf i) (rk : RoundKeys) (ctr data : Bytes) : RaisesListed i (CtrStream rk ctr data) :=
  ctrLoop h rk ctr (chunks data)

variable {m : Byte} {c : CipherMode} (hc : Machine.selectMode m = .ok c)

include hc

theorem requireIV : RaisesListed (.menc m) (requireIV c s) := by
  rcases selectMode_eq_ok.1 hc with ⟨rfl, rfl⟩ | ⟨rfl, rfl⟩ | ⟨rfl, rfl⟩
  · exact ok ()
  · exact raiseIf (by decide)
  · exact raiseIf (by decide)

theorem modeEncrypt (rk : RoundKeys) (iv : Block) (pt : Bytes) :
    RaisesListed (.menc m) (modeEncrypt c rk iv pt) := by
  rcases selectMode_eq_ok.1 hc with ⟨rfl, rfl⟩ | ⟨rfl, rfl⟩ | ⟨rfl, rfl⟩
  · exact ok _
  · exact ok _
  · exact bind (CtrStream (by decide) _ _ _) fun _ _ => ok _

theorem checkCipherLength (n : Nat) : RaisesListed (.mdec m) (checkCipherLength c n) := by
  rcases selectMode_eq_ok.1 hc with ⟨rfl, rfl⟩ | ⟨rfl, rfl⟩ | ⟨rfl, rfl⟩
  · exact bind (raiseIf (by decide)) fun _ _ => raiseIf (by decide)
  · exact bind (raiseIf (by decide)) fun _ _ => raiseIf (by decide)
  · exact raiseIf (by decide)

theorem modeDecrypt (rk : RoundKeys) (ct : Bytes) : RaisesListed (.mdec m) (modeDecrypt c rk ct) := by
  rcases selectMode_eq_ok.1 hc with ⟨rfl, rfl⟩ | ⟨rfl, rfl⟩ | ⟨rfl, rfl⟩
  · exact paddedOrRaise (by decide) _
  · exact paddedOrRaise (by decide) _
  · exact CtrStream (by decide) _ _ _

end RaisesListed

namespace EndsAsListed

variable {i : Instr} {s : State}

theorem ok {u : State} (h : i ≠ .clre → u.ESTICKY = s.ESTICKY) : EndsAsListed i s (.ok u) where
  errors := .ok u
  sticky hi _ hu := Except.ok.inj hu ▸ h hi

theorem bind {α : Type} {x : Except ErrKind α} {f : α → Except ErrKind State} (hx : RaisesListed i x)
    (hf : ∀ a, x = .ok a → EndsAsListed i s (f a)) : EndsAsListed i s (x >>= f) where
  errors := hx.bind fun a ha => (hf a ha).errors
  sticky hi u hu := by
    obtain ⟨a, ha, hrest⟩ := except_bind_eq_ok.1 hu
    exact (hf a ha).sticky hi u hrest

theorem memWrite (h : 9 ∈ errorsOf i) (a : Nat) (vs : Bytes) : EndsAsListed i s (memWrite s a vs) := by
  rcases memWrite_cases s a vs with ⟨-, hok⟩ | ⟨-, -, herror⟩
  · rw [hok]
    exact ok fun _ => writeBytes_ESTICKY s a vs
  · rw [herror]
    exact ⟨.error (k := .memRange) h, fun _ => nofun⟩

theorem writeResult (h : 9 ∈ errorsOf i) (out : Bytes) : EndsAsListed i s (writeResult s out) where
  errors := .of_only .memRange (fun _ he => (writeResult_eq_error.1 he).2.2) h
  sticky _ u hu := by
    obtain ⟨-, rfl⟩ := writeResult_eq_ok.1 hu
    exact writeBytes_ESTICKY s _ out

end EndsAsListed

/-! ## Every command -/

theorem exec_endsAsListed (i : Instr) (s : State) :
    ∃ r, exec i s = complete (onErrorOf i) s r ∧ EndsAsListed i s r := by
  have keep {i : Instr} {u : State} (h : u.ESTICKY = s.ESTICKY) : EndsAsListed i s (.ok u) := .ok fun _ => h
  cases i with
  | clre => exact ⟨_, exec_clre s, .ok (absurd rfl)⟩
  | gmul a b => exact ⟨_, exec_gmul a b s, keep rfl⟩
  | xtime x => exact ⟨_, exec_xtime x s, keep rfl⟩
  | sbox x => exact ⟨_, exec_sbox x s, keep rfl⟩
  | isbox x => exact ⟨_, exec_isbox x s, keep rfl⟩
  | subb => exact ⟨_, exec_subb s, keep rfl⟩
  | isubb => exact ⟨_, exec_isubb s, keep rfl⟩
  | shrows => exact ⟨_, exec_shrows s, keep rfl⟩
  | ishrows => exact ⟨_, exec_ishrows s, keep rfl⟩
  | mixc => exact ⟨_, exec_mixc s, keep rfl⟩
  | imixc => exact ⟨_, exec_imixc s, keep rfl⟩
  | setsrc a => exact ⟨_, exec_setsrc a s, keep rfl⟩
  | setlen a => exact ⟨_, exec_setlen a s, keep rfl⟩
  | setdst a => exact ⟨_, exec_setdst a s, keep rfl⟩
  | lds a => exact ⟨_, exec_lds a s, .bind (.memRead (by simp [errorsOf]) _ _) fun _ _ => keep rfl⟩
  | sts a => exact ⟨_, exec_sts a s, .memWrite (by simp [errorsOf]) _ _⟩
  | ark k =>
    exact ⟨_, exec_ark k s, .bind (.roundKeyAt _ k) fun _ _ => .bind (.requireKey (by simp [errorsOf])) fun _ _ =>
      keep rfl⟩
  | enc => exact ⟨_, exec_enc s, .bind (.requireKey (by decide)) fun _ _ => keep rfl⟩
  | dec => exact ⟨_, exec_dec s, .bind (.requireKey (by decide)) fun _ _ => keep rfl⟩
  | kexp => exact ⟨_, exec_kexp s, .bind (.readSource16 (by decide) (by decide)) fun _ _ => keep rfl⟩
  | ldiv => exact ⟨_, exec_ldiv s, .bind (.readSource16 (by decide) (by decide)) fun _ _ => keep rfl⟩
  | ldnc => exact ⟨_, exec_ldnc s, .bind (.readSource16 (by decide) (by decide)) fun _ _ => keep rfl⟩
  | pad =>
    exact ⟨_, exec_pad s, .bind (.raiseIf (by decide)) fun _ _ => .bind (.readSource (by decide)) fun _ _ =>
      .writeResult (by decide) _⟩
  | unpad =>
    exact ⟨_, exec_unpad s, .bind (.raiseIf (by decide)) fun _ _ => .bind (.readSource (by decide)) fun _ _ =>
      .bind (.paddedOrRaise (by decide) _) fun _ _ => keep rfl⟩
  | menc m =>
    exact ⟨_, exec_menc m s, .bind (.selectMode (by simp [errorsOf])) fun _ hc =>
      .bind (.requireKey (by simp [errorsOf])) fun _ _ => .bind (.requireIV hc) fun _ _ =>
      .bind (.readSource (by simp [errorsOf])) fun _ _ => .bind (.modeEncrypt hc _ _ _) fun _ _ =>
      .writeResult (by simp [errorsOf]) _⟩
  | mdec m =>
    exact ⟨_, exec_mdec m s, .bind (.selectMode (by simp [errorsOf])) fun _ hc =>
      .bind (.requireKey (by simp [errorsOf])) fun _ _ => .bind (.checkCipherLength hc _) fun _ _ =>
      .bind (.readSource (by simp [errorsOf])) fun _ _ => .bind (.modeDecrypt hc _ _) fun _ _ =>
      .writeResult (by simp [errorsOf]) _⟩

/-- A command succeeds and leaves `ESTICKY` (CLRE apart), or it raises one error that is listed for it. -/
theorem exec_cases_listed {i : Instr} {s t : State} (h : exec i s = .next t) :
    (t.ERR = 0 ∧ (i ≠ .clre → t.ESTICKY = s.ESTICKY)) ∨
    ∃ e : ErrKind, t = raise e (onErrorOf i s) ∧ (i.wf = true → e.code ∈ errorsOf i) := by
  obtain ⟨r, hi, hr⟩ := exec_endsAsListed i s
  rw [hi] at h
  rcases complete_cases h with ⟨u, hu, rfl⟩ | ⟨e, he, rfl⟩
  · exact .inl ⟨rfl, fun hclre => hr.sticky hclre u hu⟩
  · exact .inr ⟨e, rfl, fun hwf => hr.errors hwf e he⟩

/-- What a failing command writes, as R187 lists it. -/
theorem raise_onErrorOf (e : ErrKind) (i : Instr) (s : State) : raise e (onErrorOf i s) =
    { s with ERR := e.code, ESTICKY := true,
             KV := (if i = .kexp then false else s.KV),
             IVOK := (if writesIV i then false else s.IVOK),
             OLEN := (if isBuffer i then 0 else s.OLEN) } := by
  cases i <;> rfl

/-- Settles O47: a success leaves `ESTICKY`, and a failure is `raise` after the command's own failure writes. -/
theorem failureWritesOnlyWhatIsListed : Obligations.FailureWritesOnlyWhatIsListed := by
  unfold Obligations.FailureWritesOnlyWhatIsListed
  refine ⟨fun i s t h => ?_, fun w s hw => ?_⟩
  · rcases exec_cases_listed h with ⟨hzero, hsticky⟩ | ⟨e, rfl, -⟩
    · exact ⟨fun herr => absurd hzero herr, fun _ => hsticky⟩
    · exact ⟨fun _ => raise_onErrorOf e i s, fun hzero => absurd hzero (code_ne_zero e)⟩
  · cases hd : decode w with
    | ok i => exact absurd hd (hw i)
    | error e => exact command_of_illegal hd s

/-- Settles O48: a command succeeds with `ERR` 0, or raises an error that is listed for it. -/
theorem commandsRaiseOnlyTheirErrors : Obligations.CommandsRaiseOnlyTheirErrors := by
  unfold Obligations.CommandsRaiseOnlyTheirErrors
  intro i s t hwf h
  rcases exec_cases_listed h with ⟨hzero, -⟩ | ⟨e, rfl, hlisted⟩
  · exact .inl hzero
  · exact .inr (hlisted hwf)

/-- Settles O46: CLRE cannot fail, and success writes `ERR` beside the `ESTICKY` that CLRE writes. -/
theorem clreCommand : Obligations.ClreCommand := by
  unfold Obligations.ClreCommand
  exact ⟨decode_clre, fun s => by rw [exec_clre, complete_ok, succeed]⟩

end Sys2Proof.Machine
end

section
/-! No command stops the machine, and no host step that names a byte that exists does (O49; spec/60_exceptions.md R186,
R187): every step goes on, and leaves the host's remaining steps to name bytes that exist. -/

namespace Sys2Proof.Machine

/-- The outcome is a next state, in which MEM is as large as in `s` and the host has the same steps before it. -/
def GoesOn (s : State) (o : Host.Outcome State Fault Refusal) : Prop :=
  ∃ t, o = .next t ∧ t.memSize = s.memSize ∧ t.pending = s.pending

theorem exec_goesOn (i : Instr) (s : State) : GoesOn s (exec i s) := by
  obtain ⟨t, h⟩ := exec_next i s
  exact ⟨t, h, (exec_frame h).memSize, (exec_frame h).pending⟩

theorem command_goesOn (w : Word) (s : State) : GoesOn s (command w s) := by
  cases hd : decode w with
  | ok i =>
    rw [command_of_decode hd]
    exact exec_goesOn i s
  | error e => exact ⟨_, command_of_illegal hd s, rfl, rfl⟩

theorem hostStep_goesOn {a : HostStep} {s : State} (ha : a.inMem s.memSize) : GoesOn s (hostStep a s) := by
  cases a with
  | writePort port v =>
    by_cases hp : port = 0
    · subst hp
      exact command_goesOn v s
    · exact ⟨s, hostStep_otherPort hp v s, rfl, rfl⟩
  | readPort port => exact ⟨_, rfl, rfl, rfl⟩
  | writeMem addr v => exact ⟨_, hostWriteMem_eq_next.2 ⟨ha, rfl⟩, rfl, rfl⟩
  | readMem addr => exact ⟨_, hostReadMem_eq_next.2 ⟨ha, rfl⟩, rfl, rfl⟩
  | reset => exact ⟨_, rfl, rfl, rfl⟩

/-- The host's coming steps name only bytes of MEM that exist. -/
def NamesBytesOfMem (s : State) : Prop := ∀ a ∈ s.pending, a.inMem s.memSize

theorem NamesBytesOfMem.step {s : State} (h : NamesBytesOfMem s) : ∃ t, step s = .next t ∧ NamesBytesOfMem t := by
  rcases step_cases s with ⟨-, hidle⟩ | ⟨a, rest, hp, hhost⟩
  · exact ⟨s, hidle, h⟩
  · obtain ⟨hfirst, hrest⟩ : a.inMem s.memSize ∧ ∀ b ∈ rest, b.inMem s.memSize := by
      rwa [NamesBytesOfMem, hp, List.forall_mem_cons] at h
    obtain ⟨t, ht, hsize, hpending⟩ := hostStep_goesOn (s := { s with pending := rest }) hfirst
    refine ⟨t, hhost.trans ht, ?_⟩
    rw [NamesBytesOfMem, hsize, hpending]
    exact hrest

theorem run_succ_of_step {M : Host.Core} {s t : M.State} (h : M.step s = .next t) (n : Nat) :
    M.run (n + 1) s = M.run n t := by
  rw [Host.Core.run, h]

theorem NamesBytesOfMem.safeRun {s : State} (h : NamesBytesOfMem s) : SafeRun s := by
  intro n
  induction n generalizing s with
  | zero => exact ⟨s, rfl⟩
  | succ n ih =>
    obtain ⟨t, ht, hnames⟩ := h.step
    obtain ⟨u, hu⟩ := ih hnames
    exact ⟨u, (run_succ_of_step (M := core) ht n).trans hu⟩

/-- Settles O49: every command has a next state, and every step leaves the host's coming steps naming bytes that exist. -/
theorem nothingStopsTheCore : Obligations.NothingStopsTheCore := by
  unfold Obligations.NothingStopsTheCore
  exact ⟨exec_next, fun s h => NamesBytesOfMem.safeRun h⟩

end Sys2Proof.Machine
end
